-- ==== Sys2Proof/Word.lean ====
section
/-! DEFINITION. The word types of MTC: 32-bit register words and addresses, 8-bit buffer bytes, 7-bit bus addresses
(00_scope.md R5: `REG_W`, `W_PCLK`, `W_SCL`, `W_PTR`, `W_LEN`, `W_ADDR`). -/

namespace Sys2Proof

/-- A register word, a clock value, an address or a length: 32 bits, unsigned (R5, R6). -/
abbrev Word := BitVec 32

/-- One byte of the caller's buffer, or of the wire (R5, R32). -/
abbrev Byte := BitVec 8

/-- A 7-bit bus address (R5 `W_ADDR`). -/
abbrev Addr7 := BitVec 7

end Sys2Proof
end

