-- ==== Sys2Proof/Syntax.lean ====
section
/-! DEFINITION. The syntax of MTC: one constructor for each row of spec/opcode_table.json, the seven commands with their
operands and the thirteen micro-steps of SEQ, and the two encoded forms an instruction has (30_encoding.md R68 to R74). -/

namespace Sys2Proof

/-- The duty-cycle mode (00_scope.md R5): `low` is `LOW_DUTY = 0`, `high` is `HIGH_DUTY = 1`. -/
inductive Duty where
  | low
  | high
  deriving DecidableEq, Repr

/-- The nine flags of `SR1` that the source names (10_state.md R24, R25). -/
inductive Flag where
  | sb
  | addr
  | btf
  | txe
  | berr
  | arlo
  | af
  | ovr
  | timeout
  deriving DecidableEq, Repr

/-- The micro-program counter's thirteen values U0 to U12 (10_state.md R15, 30_encoding.md R74). -/
inductive Upc where
  | u0 | u1 | u2 | u3 | u4 | u5 | u6 | u7 | u8 | u9 | u10 | u11 | u12
  deriving DecidableEq, Repr

/-- The three words of a command (30_encoding.md R68, format `CMD3`). -/
structure CmdWords where
  w0 : Word
  w1 : Word
  w2 : Word
  deriving DecidableEq, Repr

/-- An encoded instruction: the three words of a command on the command port, or the 4-bit code of a micro-step (R68, R74). -/
inductive Encoded where
  | cmd (w : CmdWords)
  | micro (code : BitVec 4)
  deriving DecidableEq, Repr

/-- The instructions of MTC. The command INITIALIZE is `initPeripheral`, since the plain word is one of Lean's own. -/
inductive Instr where
  /-- `CONFIGURE` (R80) -/
  | configure (pclk scl : Word) (duty : Duty) (addr : Addr7) (ack : Bool)
  /-- `SET_ENABLED` (R100) -/
  | setEnabled (en : Bool)
  /-- `CLOCK_GATE_ENABLE` (R102) -/
  | clockGateEnable
  /-- `HAS_FLAG` (R105); `sel` is the selector of R71 -/
  | hasFlag (sel : BitVec 4)
  /-- `CLEAR_ADDR` (R108) -/
  | clearAddr
  /-- `MASTER_SEND` (R115) -/
  | masterSend (addr : Addr7) (ptr len : Word)
  /-- `INITIALIZE` (R110) -/
  | initPeripheral (addr : Addr7) (ack : Bool) (scl : Word) (duty : Duty)
  /-- `SEQ_IDLE` (R117) -/
  | seqIdle
  /-- `SEQ_START_SET` (R118) -/
  | seqStartSet
  /-- `SEQ_WAIT_SB` (R119) -/
  | seqWaitSb
  /-- `SEQ_ADDR_WRITE` (R120) -/
  | seqAddrWrite
  /-- `SEQ_WAIT_ADDR` (R121) -/
  | seqWaitAddr
  /-- `SEQ_CLR_SR1` (R122) -/
  | seqClrSr1
  /-- `SEQ_CLR_SR2` (R123) -/
  | seqClrSr2
  /-- `SEQ_LOOP_TEST` (R124) -/
  | seqLoopTest
  /-- `SEQ_WAIT_TXE` (R125) -/
  | seqWaitTxe
  /-- `SEQ_DATA_WRITE` (R126) -/
  | seqDataWrite
  /-- `SEQ_DRAIN_TXE` (R127) -/
  | seqDrainTxe
  /-- `SEQ_WAIT_BTF` (R128) -/
  | seqWaitBtf
  /-- `SEQ_STOP_SET` (R129) -/
  | seqStopSet
  deriving DecidableEq, Repr

end Sys2Proof
end

