-- ==== Sys2Proof/WellFormed.lean ====
section
/-! DEFINITION. Well-formed instructions. Every operand but one is limited by its type (7-bit addresses, 32-bit values, one-bit
fields: 30_encoding.md R69, R70, and R72: every legal word executes whatever its operand values). The one check is the flag
selector of HAS_FLAG (R71). -/

namespace Sys2Proof

/-- 30_encoding.md R71: the nine selectors that name a flag; 3, 4, 5, 6, 12, 13 and 15 are reserved. -/
def selectorNamed (sel : BitVec 4) : Bool :=
  [0#4, 1#4, 2#4, 7#4, 8#4, 9#4, 10#4, 11#4, 14#4].contains sel

/-- The well-formed instructions. -/
def Instr.wf (i : Instr) : Bool :=
  match i with
  | .configure _ _ _ _ _ => true
  | .setEnabled _ => true
  | .clockGateEnable => true
  | .hasFlag sel => selectorNamed sel
  | .clearAddr => true
  | .masterSend _ _ _ => true
  | .initPeripheral _ _ _ _ => true
  | .seqIdle => true
  | .seqStartSet => true
  | .seqWaitSb => true
  | .seqAddrWrite => true
  | .seqWaitAddr => true
  | .seqClrSr1 => true
  | .seqClrSr2 => true
  | .seqLoopTest => true
  | .seqWaitTxe => true
  | .seqDataWrite => true
  | .seqDrainTxe => true
  | .seqWaitBtf => true
  | .seqStopSet => true

end Sys2Proof
end

