-- ==== Sys2Proof/Decode.lean ====
section
/-! DEFINITION. Decoding and encoding. Commands: 30_encoding.md R68 (opcodes), R69 (fields of `W0`), R70 (`W1`, `W2`), R71
(flag selectors), R72 (illegal words). Micro-steps: R74. The decoder is total and rejects by name. -/

namespace Sys2Proof

/-! ## Fields of `W0` (R69) -/

namespace W0

/-- `OP`, bits [31:28]. -/
def op (w : Word) : BitVec 4 := w.extractLsb' 28 4
/-- The reserved bits [27:14]. -/
def reserved (w : Word) : BitVec 14 := w.extractLsb' 14 14
/-- `FLAG`, bits [13:10]. -/
def flag (w : Word) : BitVec 4 := w.extractLsb' 10 4
/-- `EN`, bit [9]. -/
def en (w : Word) : Bool := w.getLsbD 9
/-- `ACK`, bit [8]. -/
def ack (w : Word) : Bool := w.getLsbD 8
/-- `DUTY`, bit [7]. -/
def duty (w : Word) : Bool := w.getLsbD 7
/-- `ADDR7`, bits [6:0]. -/
def addr (w : Word) : Addr7 := w.extractLsb' 0 7

/-- The word with the given fields and reserved bits 0. -/
def pack (op flag : BitVec 4) (en ack duty : Bool) (addr : Addr7) : Word :=
  op ++ 0#14 ++ flag ++ BitVec.ofBool en ++ BitVec.ofBool ack ++ BitVec.ofBool duty ++ addr

end W0

/-- R5: `LOW_DUTY = 0`, `HIGH_DUTY = 1`. -/
def Duty.bit (d : Duty) : Bool :=
  match d with
  | .low => false
  | .high => true

/-- The duty-cycle mode that a bit encodes (R5, R69). -/
def Duty.ofBit (b : Bool) : Duty := if b then .high else .low

/-- R60, R71: the bit index of a flag in `SR1`, which is its selector in HAS_FLAG. -/
def Flag.pos (f : Flag) : Nat :=
  match f with
  | .sb => 0
  | .addr => 1
  | .btf => 2
  | .txe => 7
  | .berr => 8
  | .arlo => 9
  | .af => 10
  | .ovr => 11
  | .timeout => 14

/-- The selector of a flag (R71). -/
def Flag.selector (f : Flag) : BitVec 4 := BitVec.ofNat 4 f.pos

/-- The flag a selector names (R71); none for a reserved selector. -/
def Flag.ofSelector (sel : BitVec 4) : Option Flag :=
  match sel.toNat with
  | 0 => some .sb
  | 1 => some .addr
  | 2 => some .btf
  | 7 => some .txe
  | 8 => some .berr
  | 9 => some .arlo
  | 10 => some .af
  | 11 => some .ovr
  | 14 => some .timeout
  | _ => none

/-- Why a word is illegal (R72) or a micro-step code unused (R74). -/
inductive DecodeError where
  /-- `OP` is 0 or 8 to 15 -/
  | reservedOpcode (op : BitVec 4)
  /-- `W0[27:14]` is not 0 -/
  | reservedBits
  /-- a field of `W0` that the command does not use is not 0 -/
  | unusedField
  /-- `W1` is not 0 where R70 says it must be -/
  | unusedW1
  /-- `W2` is not 0 where R70 says it must be -/
  | unusedW2
  /-- HAS_FLAG with a selector that names no flag -/
  | reservedFlag (sel : BitVec 4)
  /-- a micro-step code 13, 14 or 15 -/
  | unusedUpc (code : BitVec 4)
  deriving DecidableEq, Repr

/-- Accept `i` when every listed check holds; otherwise the first failing check's reason. -/
def acceptIf (checks : List (Bool × DecodeError)) (i : Instr) : Except DecodeError Instr :=
  match checks with
  | [] => .ok i
  | (ok, e) :: rest => if ok then acceptIf rest i else .error e

/-- The decoder of command words (R68 to R72). -/
def decodeCommand (c : CmdWords) : Except DecodeError Instr :=
  let w := c.w0
  let noFlag := (W0.flag w == 0, DecodeError.unusedField)
  let noEn := (!W0.en w, DecodeError.unusedField)
  let noAck := (!W0.ack w, DecodeError.unusedField)
  let noDuty := (!W0.duty w, DecodeError.unusedField)
  let noAddr := (W0.addr w == 0, DecodeError.unusedField)
  let noW1 := (c.w1 == 0, DecodeError.unusedW1)
  let noW2 := (c.w2 == 0, DecodeError.unusedW2)
  let clear := (W0.reserved w == 0, DecodeError.reservedBits)
  match (W0.op w).toNat with
  | 1 => acceptIf [clear, noFlag, noEn]
      (.configure c.w1 c.w2 (Duty.ofBit (W0.duty w)) (W0.addr w) (W0.ack w))
  | 2 => acceptIf [clear, noFlag, noAck, noDuty, noAddr, noW1, noW2] (.setEnabled (W0.en w))
  | 3 => acceptIf [clear, noFlag, noEn, noAck, noDuty, noAddr, noW1, noW2] .clockGateEnable
  | 4 => acceptIf [clear, noEn, noAck, noDuty, noAddr, noW1, noW2,
      (selectorNamed (W0.flag w), .reservedFlag (W0.flag w))] (.hasFlag (W0.flag w))
  | 5 => acceptIf [clear, noFlag, noEn, noAck, noDuty, noAddr, noW1, noW2] .clearAddr
  | 6 => acceptIf [clear, noFlag, noEn, noAck, noDuty] (.masterSend (W0.addr w) c.w1 c.w2)
  | 7 => acceptIf [clear, noFlag, noEn, noW1]
      (.initPeripheral (W0.addr w) (W0.ack w) c.w2 (Duty.ofBit (W0.duty w)))
  | _ => .error (.reservedOpcode (W0.op w))

/-- R74: the 4-bit code of a micro-step. -/
def Upc.code (u : Upc) : BitVec 4 :=
  match u with
  | .u0 => 0
  | .u1 => 1
  | .u2 => 2
  | .u3 => 3
  | .u4 => 4
  | .u5 => 5
  | .u6 => 6
  | .u7 => 7
  | .u8 => 8
  | .u9 => 9
  | .u10 => 10
  | .u11 => 11
  | .u12 => 12

/-- The micro-step a code names (R74); codes 13 to 15 are unused. -/
def Upc.ofCode (code : BitVec 4) : Option Upc :=
  match code.toNat with
  | 0 => some .u0
  | 1 => some .u1
  | 2 => some .u2
  | 3 => some .u3
  | 4 => some .u4
  | 5 => some .u5
  | 6 => some .u6
  | 7 => some .u7
  | 8 => some .u8
  | 9 => some .u9
  | 10 => some .u10
  | 11 => some .u11
  | 12 => some .u12
  | _ => none

/-- The micro-step instruction at a value of `UPC` (R74). -/
def Upc.instr (u : Upc) : Instr :=
  match u with
  | .u0 => .seqIdle
  | .u1 => .seqStartSet
  | .u2 => .seqWaitSb
  | .u3 => .seqAddrWrite
  | .u4 => .seqWaitAddr
  | .u5 => .seqClrSr1
  | .u6 => .seqClrSr2
  | .u7 => .seqLoopTest
  | .u8 => .seqWaitTxe
  | .u9 => .seqDataWrite
  | .u10 => .seqDrainTxe
  | .u11 => .seqWaitBtf
  | .u12 => .seqStopSet

/-- The decoder of micro-step codes (R74). -/
def decodeMicro (code : BitVec 4) : Except DecodeError Instr :=
  match Upc.ofCode code with
  | some u => .ok u.instr
  | none => .error (.unusedUpc code)

/-- The decoder: total, and every rejection has a name. -/
def decode (e : Encoded) : Except DecodeError Instr :=
  match e with
  | .cmd w => decodeCommand w
  | .micro code => decodeMicro code

/-- The encoder of an instruction, from the same tables (R68 to R71, R74). -/
def encode (i : Instr) : Encoded :=
  match i with
  | .configure pclk scl duty addr ack => .cmd ⟨W0.pack 1 0 false ack duty.bit addr, pclk, scl⟩
  | .setEnabled en => .cmd ⟨W0.pack 2 0 en false false 0, 0, 0⟩
  | .clockGateEnable => .cmd ⟨W0.pack 3 0 false false false 0, 0, 0⟩
  | .hasFlag sel => .cmd ⟨W0.pack 4 sel false false false 0, 0, 0⟩
  | .clearAddr => .cmd ⟨W0.pack 5 0 false false false 0, 0, 0⟩
  | .masterSend addr ptr len => .cmd ⟨W0.pack 6 0 false false false addr, ptr, len⟩
  | .initPeripheral addr ack scl duty => .cmd ⟨W0.pack 7 0 false ack duty.bit addr, 0, scl⟩
  | .seqIdle => .micro (Upc.code .u0)
  | .seqStartSet => .micro (Upc.code .u1)
  | .seqWaitSb => .micro (Upc.code .u2)
  | .seqAddrWrite => .micro (Upc.code .u3)
  | .seqWaitAddr => .micro (Upc.code .u4)
  | .seqClrSr1 => .micro (Upc.code .u5)
  | .seqClrSr2 => .micro (Upc.code .u6)
  | .seqLoopTest => .micro (Upc.code .u7)
  | .seqWaitTxe => .micro (Upc.code .u8)
  | .seqDataWrite => .micro (Upc.code .u9)
  | .seqDrainTxe => .micro (Upc.code .u10)
  | .seqWaitBtf => .micro (Upc.code .u11)
  | .seqStopSet => .micro (Upc.code .u12)

/-- The encoded form of an instruction whose bits are `w`, numbered as spec/opcode_table.json numbers them: a row of at most
8 bits is a micro-step code; a longer one is a command, `W0` in bits 31..0, `W1` in bits 63..32, `W2` in bits 95..64 (log 17). -/
def Encoded.ofTable (nbits w : Nat) : Option Encoded :=
  let v := w % 2 ^ nbits
  if nbits ≤ 8 then
    if v < 16 then some (.micro (BitVec.ofNat 4 v)) else none
  else
    some (.cmd ⟨BitVec.ofNat 32 v, BitVec.ofNat 32 (v / 2 ^ 32), BitVec.ofNat 32 (v / 2 ^ 64)⟩)

/-- What the decoder reads from an instruction whose bits are `w`; bits above `nbits` are 0. -/
def decodeTableWord (nbits w : Nat) : Option Instr :=
  match Encoded.ofTable nbits w with
  | some e => (match decode e with | .ok i => some i | .error _ => none)
  | none => none

end Sys2Proof
end

