-- ==== Sys2Proof/Config.lean ====
section
/-! DEFINITION. The implementation parameters of 00_scope.md R5 that the spec leaves OPEN or calls a parameter, and the free
values of the model. The parameters are plain data carried in State (no step changes them), so a statement about every state
is a statement about every choice of them. -/

namespace Sys2Proof

/-- One 32-bit word for each of the eleven words of `REGSPACE` (10_state.md R17, R30, R33): the ten registers of the
RegisterBlock in the spec's order, and `CLKEN`, which lies outside the block. -/
structure RegValues where
  cr1   : Word
  cr2   : Word
  oar1  : Word
  oar2  : Word
  dr    : Word
  sr1   : Word
  sr2   : Word
  ccr   : Word
  trise : Word
  fltr  : Word
  clken : Word
  deriving DecidableEq, Repr

/-- The parameters of R5. `rbReset` is `RB_RESET` (70_reset_and_hazards.md R181), `arithW` is `ARITH_W`
(40_timing_configurator.md R82, 93_implementation_defined.md X3), `posClkgate` is `POS_CLKGATE`, the bit of `CLKEN` that gates
this peripheral (10_state.md R30; another instance owns another bit, 60_exceptions.md R174). -/
structure Config where
  i2cBase   : Word
  clkenAddr : Word
  posClkgate : Fin 32
  arithW    : Nat
  rbReset   : RegValues
  deriving DecidableEq, Repr

/-- The six steps of the reference ENV (43_peripheral_environment.md R149, R151, R153 to R156). The two that draw an acknowledge bit
carry the bit drawn. -/
inductive EnvStep where
  /-- `E_START` (R149) -/
  | start
  /-- `E_ADDR` (R151) -/
  | addr (ack : Bool)
  /-- `E_DRAINED` (R153) -/
  | drained
  /-- `E_LOAD` (R154) -/
  | load
  /-- `E_STOP` (R155) -/
  | stop
  /-- `E_SHIFT_DONE` (R156) -/
  | shiftDone (ack : Bool)
  deriving DecidableEq, Repr

/-- One step that part 1 of 43_peripheral_environment.md (R140 to R146) lets ENV take (log 10). A move whose precondition
does not hold changes nothing. -/
inductive EnvMove where
  /-- generate a start condition, serving `START` if it is requested (R142); `keepHold` and `keepShift` say whether a byte left in
  the holding slot and in the shift register stays there or is lost -/
  | genStart (keepHold keepShift : Bool)
  /-- generate a stop condition, requested or not, with the same choice; `clear` says whether it clears `STOP` (R142, N8) -/
  | genStop (keepHold keepShift clear : Bool)
  /-- put the address byte in the holding slot on the bus; `ack` says whether a slave acknowledged it (R143), `keep` whether the
  byte stays in the slot -/
  | sendAddr (ack keep : Bool)
  /-- set `ADDR`, at any time after the address byte was acknowledged (R143); `enter` says whether ENV counts its address phase as
  over from here on -/
  | raiseAddr (enter : Bool)
  /-- move the byte in the holding slot to the shift register (R144) -/
  | load
  /-- put the byte in the shift register on the bus; `ack` says whether it was acknowledged (R144), `keep` whether the byte stays
  in the register -/
  | shiftDone (ack keep : Bool)
  /-- lose the byte in the holding slot, or the one in the shift register, that is not kept (R140, R145) -/
  | drop (keepHold keepShift : Bool)
  /-- set `SR1` to `v`, within R24, R143, R144 and R145 -/
  | status (v : Word)
  /-- leave the address or data phase: a `DR` write made now belongs to no transfer (R146, X6) -/
  | abandon
  deriving DecidableEq, Repr

namespace Config

/-- The default `RB_RESET` of R39 and R181: every register 0 except `TRISE = 2`. PRESUMED, unsafe (log 3): the spec marks
these values as general knowledge. -/
def rbResetDefault : RegValues where
  cr1   := 0
  cr2   := 0
  oar1  := 0
  oar2  := 0
  dr    := 0
  sr1   := 0
  sr2   := 0
  ccr   := 0
  trise := 2
  fltr  := 0
  clken := 0

/-- The values the spec uses in its examples: the two addresses of 20_memory.md R49 (PRESUMED, log 2), `POS_CLKGATE = 21`
(R5, R60, D16), `ARITH_W = 64` (R5, D6) and the default `RB_RESET`. -/
def default : Config where
  i2cBase   := 0x40005400
  clkenAddr := 0x40023840
  posClkgate := 21
  arithW    := 64
  rbReset   := rbResetDefault

/-- 20_memory.md R41: both base addresses are multiples of 4; a configuration that breaks this is refused (X18). DESIGN CHOICE,
unsafe (log 28): no rule says what a model does with a `CLKEN_ADDR` that is the address of one of the ten registers; it is
accepted, and `CLKEN` stays a word of its own. Nor does one rule out an `I2C_BASE` in the last 40 bytes (log 27, `regAddr`). -/
def wf (c : Config) : Bool :=
  c.i2cBase.toNat % 4 == 0 && c.clkenAddr.toNat % 4 == 0

/-- FREE VALUE (log 9): what the n-th read of `SR2` returns when neither scheduler of R158 runs. 10_state.md R27: its content is
a `draw(32 bits)` at every read; no rule may depend on it. It has no body: nothing can be proved of its value. -/
opaque freeSr2 : Nat → BitVec 32

/-- FREE VALUE (log 10): the moves an ENV that nothing is known of makes in its n-th turn. 00_scope.md R5: ENV is any agent
meeting 43_peripheral_environment.md R140 to R146, and it may move for ever or never (R146). It has no body: nothing can be proved
of its moves, so a statement about such an ENV holds of every sequence of turns. -/
opaque freeTurn : Nat → List EnvMove

/-- FREE VALUE (log 33): the steps the reference ENV tries in its n-th turn when nothing is known of its schedule, with the bits they
draw. 20_memory.md R52, 43_peripheral_environment.md R140: zero or more of its steps at any point of the order. It has no body. -/
opaque freeSteps : Nat → List EnvStep

end Config

end Sys2Proof
end

