-- ==== Sys2Proof/Machine/State.lean ====
section
/-! DEFINITION. The state of the modelled system (10_state.md, 43_peripheral_environment.md R147, 30_encoding.md R65), its
faults and refusals, and the state after reset (70_reset_and_hazards.md R180). Plain data throughout. -/

namespace Sys2Proof.Machine

/-! ## MTC -/

/-- The working registers of MTC (10_state.md R10, R11, R13, R14) and the micro-program counter (R15). -/
structure Mtc where
  /-- `H_ADDR`: bus address of the local device (R10) -/
  hAddr  : Addr7
  /-- `H_ACK`: acknowledge-enable flag (R10) -/
  hAck   : Bool
  /-- `H_SCL`: requested signaling frequency in Hz (R10) -/
  hScl   : Word
  /-- `H_DUTY`: duty-cycle mode (R10) -/
  hDuty  : Duty
  /-- `H_VALID`: a CONFIGURE has completed since reset (R10, D25) -/
  hValid : Bool
  /-- `PCLK`: peripheral bus clock in Hz of the current CONFIGURE (R11) -/
  pclk   : Word
  /-- `T_ADDR`: target device address (R13) -/
  tAddr  : Addr7
  /-- `T_PTR`: address of the first buffer byte (R13) -/
  tPtr   : Word
  /-- `T_LEN`: number of buffer bytes (R13) -/
  tLen   : Word
  /-- `IDX`: number of buffer bytes already written to `DR` (R13) -/
  idx    : Word
  /-- `TMP`: the value a read-modify-write read (R14) -/
  tmp    : Word
  /-- `RESULT`: the answer of the last HAS_FLAG (R14) -/
  result : Bool
  /-- `CMD`: the command words being executed, 96 bits (R14, R66) -/
  cmd    : CmdWords
  /-- `BUSY` (R14) -/
  busy   : Bool
  /-- `UPC` (R15) -/
  upc    : Upc
  deriving DecidableEq, Repr

/-! ## The peripheral: registers and ENV -/

/-- `PHASE` (43_peripheral_environment.md R147): `P_IDLE`, `P_STARTED`, `P_ADDR_SENT`, `P_DATA`, `P_NACKED`. -/
inductive Phase where
  | idle
  | started
  | addrSent
  | data
  | nacked
  deriving DecidableEq, Repr

/-- What appeared on the bus (R147): `S`, `B(byte, ack)`, `P`, `P_TRUNC`. -/
inductive WireEvent where
  | start
  | byte (v : Byte) (ack : Bool)
  | stop
  | stopTrunc
  deriving DecidableEq, Repr

/-- How far an address byte has come (R143): a byte written to `DR` after a start condition is in the holding slot, in the shift
register, or was put on the bus and acknowledged. The model's own field (log 10): it is what lets an ENV that is not the reference
one set `ADDR`. -/
inductive AddrStage where
  | none
  | held
  | shifting
  | acked
  deriving DecidableEq, Repr

/-- The stage once the byte in the holding slot is kept (`h`) or lost, and the one in the shift register (`s`): an address byte that
is lost will not be acknowledged. -/
def AddrStage.kept (a : AddrStage) (h s : Bool) : AddrStage :=
  match a with
  | .none => .none
  | .held => if h then .held else .none
  | .shifting => if s then .shifting else .none
  | .acked => .acked

/-- Which ENV stands behind the registers, and when it moves. The first four are the reference ENV: under the two schedulers of R158
(`eager`, `lazy k`), or interleaved with MTC in any way (R52, R140, log 33), with one turn after each MTC access and each internal
step. `plan turns again` tries in each turn the steps listed for it: first `turns`, then `again` over and over; with `again` empty it
never moves any more, with every step in `again` it is weakly fair (R146). `anyRef n` is the reference ENV whose schedule nothing is
known of: its next turn is the free value `Config.freeSteps n`, for ever. The last two are ENVs of part 1 (log 10), with turns at the
same points. `agenda turns` plays the turns of the list and, once it is empty, never moves again (R146). `free n` is the ENV nothing is
known of: its next turn is the free value `Config.freeTurn n`, for ever. -/
inductive Scheduler where
  | eager
  | lazy (k : Nat)
  | plan (turns again : List (List EnvStep))
  | anyRef (n : Nat)
  | agenda (turns : List (List EnvMove))
  | free (n : Nat)
  deriving DecidableEq, Repr

/-- The hidden state of ENV (R36, R147), the bus trace `WIRE` (R37), and the model's own fields: how far the address byte has
come, and what ENV will do: its scheduler, the acknowledge draws to come, and the count behind the free value of `SR2`. -/
structure Env where
  phase      : Phase
  holdValid  : Bool
  hold       : Byte
  shiftValid : Bool
  shift      : Byte
  addrStage  : AddrStage
  /-- `WIRE`, oldest event first (R37) -/
  wire       : List WireEvent
  sched      : Scheduler
  /-- the acknowledge draws of R151 and R156 under `eager` and `lazy`, next one first (log 12) -/
  acks       : List Bool
  /-- how many reads of `SR2` have drawn the free value `Config.freeSr2` (log 9) -/
  draws      : Nat
  deriving DecidableEq, Repr

/-- The peripheral: the eleven words of `REGSPACE`, the hidden `CLR_ARMED` (10_state.md R35) and ENV. -/
structure Periph where
  rb       : RegValues
  clrArmed : Bool
  env      : Env
  deriving DecidableEq, Repr

/-! ## Traces, memory, ports -/

/-- One entry of the access trace `ACC` (10_state.md R37, 20_memory.md R42): a read of a register at address `a` that
returned `v`, a write of `v` to it, a read of buffer byte `v` at address `a`. -/
inductive Access where
  | regRead (a v : Word)
  | regWrite (a v : Word)
  | bufRead (a : Word) (v : Byte)
  deriving DecidableEq, Repr

/-- `BUFSPACE` (10_state.md R32, R34) in canonical form: addresses strictly rising, none at or above 2^32, no byte equal to
what an unlisted address reads as. -/
abbrev Memory := List Host.Cell

/-- A response (30_encoding.md R67): `status` is `rsp_status`, `data` is `rsp_data`. -/
structure Response where
  status : Bool
  data   : Bool
  deriving DecidableEq, Repr

/-- What the host does before a step (30_encoding.md R65, log 7). -/
inductive HostMove where
  /-- nothing -/
  | idle
  /-- offer a command on the command port, behind those already offered -/
  | offer (w : CmdWords)
  /-- drive `pclk_hz` (70_reset_and_hazards.md R184) -/
  | clock (hz : Word)
  /-- put a byte into the buffer space (R194, X10) -/
  | poke (a : Word) (b : Byte)
  /-- pulse `rst` (R180) -/
  | rst
  deriving DecidableEq, Repr

/-- The ports (30_encoding.md R65): the host's moves to come, one a step; the commands offered and not yet accepted, of
which the first stands on the command port (`cmd_valid` is 1 exactly when there is one); `pclk_hz`; the response port
(`rsp_valid` is 1 exactly when there is a response). -/
structure Ports where
  host    : List HostMove
  offered : List CmdWords
  pclkHz  : Word
  rsp     : Option Response
  deriving DecidableEq, Repr

/-- The whole modelled system. `cfg` holds the parameters of R5; no step changes it. -/
structure State where
  cfg   : Config
  mtc   : Mtc
  per   : Periph
  ports : Ports
  buf   : Memory
  acc   : List Access
  deriving DecidableEq, Repr

/-! ## Stops -/

/-- MTC raises no exception and takes no trap (60_exceptions.md R160), a hang is no fault (R164) and an illegal command is a
response (R165): there is no fault, so the type has no constructor (log 25). -/
inductive Fault where
  deriving DecidableEq, Repr

/-- The runs the spec tells a model to refuse. -/
inductive Refusal where
  /-- An instruction that has no meaning yet. Raised by no arm of this model. Safe. -/
  | notModelled (mnemonic : String)
  /-- A configuration with a misaligned base address, raised by `step` (20_memory.md R41, X18). Safe. -/
  | misalignedConfig
  /-- A RegisterBlock access while `CLKGATE = 0`, raised by every instruction that makes one (20_memory.md R59, X12). Safe. -/
  | registerBlockUnclocked
  /-- A buffer range that overlaps `REGSPACE`, raised by MASTER_SEND (10_state.md R32, X11). Safe. -/
  | bufferAliasesRegisters
  /-- A `DR` write whose effect no rule gives, under an ENV that is not the reference one, raised by SEQ_ADDR_WRITE and
  SEQ_DATA_WRITE (43_peripheral_environment.md R144, X6, log 11). Safe. -/
  | drWriteUndescribed
  deriving DecidableEq, Repr

/-- The outcome of an instruction or a step. -/
abbrev Result := Host.Outcome State Fault Refusal

/-! ## Reset (70_reset_and_hazards.md R180) -/

/-- MTC after reset: `UPC = U0`, `BUSY = 0`, `H_VALID = 0` (R180). The operand registers hold no value the spec gives;
they are zero here. DESIGN CHOICE, unsafe (log 4). -/
def Mtc.reset : Mtc where
  hAddr  := 0
  hAck   := false
  hScl   := 0
  hDuty  := .low
  hValid := false
  pclk   := 0
  tAddr  := 0
  tPtr   := 0
  tLen   := 0
  idx    := 0
  tmp    := 0
  result := false
  cmd    := ⟨0, 0, 0⟩
  busy   := false
  upc    := .u0

/-- ENV after reset (R147, R180): idle, both slots empty, nothing on the wire. `HOLD` and `SHIFT` hold no value the spec
gives; they are zero here. DESIGN CHOICE, unsafe (log 5). R180 gives these values to the reference ENV and says of any other only
that it has its own initial state; here every ENV starts, after reset and after `rst`, from the reference one's. DESIGN CHOICE,
unsafe (log 29). -/
def Env.reset (sched : Scheduler) (acks : List Bool) (draws : Nat) : Env where
  phase      := .idle
  holdValid  := false
  hold       := 0
  shiftValid := false
  shift      := 0
  addrStage  := .none
  wire       := []
  sched      := sched
  acks       := acks
  draws      := draws

/-- The machine right after reset, for any parameters: each register holds `RB_RESET` of it, `CLR_ARMED = 0`, both traces
are empty, no command is offered and no response presented (R39, R180). The scheduler is eager (DESIGN CHOICE, log 5),
`pclk_hz` is 0 (an input; DESIGN CHOICE, log 7) and no buffer byte is listed (log 6). -/
def State.resetWith (cfg : Config) : State where
  cfg   := cfg
  mtc   := Mtc.reset
  per   := ⟨cfg.rbReset, false, Env.reset .eager [] 0⟩
  ports := ⟨[], [], 0, none⟩
  buf   := []
  acc   := []

/-- The machine right after reset, with the parameters of the spec's examples (log 2, log 3). -/
def State.reset : State := State.resetWith Config.default

end Sys2Proof.Machine
end

