-- ==== Sys2Proof/Machine/Flags.lean ====
section
/-! DEFINITION. Bits and named fields of the registers (30_encoding.md R60) and the flags of `SR1` (10_state.md R24, R25).
Every `POS_*` of the spec but the parameter `POS_CLKGATE` (Config) is named here and nowhere else. -/

namespace Sys2Proof.Machine

/-- Bit `n` of a word (R6). -/
def bitAt (w : Word) (n : Nat) : Bool := w.getLsbD n

/-- The word with only bit `n` set. -/
def bitMask (n : Nat) : Word := 1#32 <<< n

/-- The word with bit `n` replaced by `b`. -/
def putBit (w : Word) (n : Nat) (b : Bool) : Word :=
  if b then w ||| bitMask n else w &&& ~~~(bitMask n)

/-- `POS_PE`: `CR1` bit 0 (R60). -/
def posPe : Nat := 0
/-- `POS_START`: `CR1` bit 8 (R60). -/
def posStart : Nat := 8
/-- `POS_STOP`: `CR1` bit 9 (R60). -/
def posStop : Nat := 9
/-- `POS_ACK`: `CR1` bit 10 (R60). -/
def posAck : Nat := 10
/-- `CCR.DUTY`: bit 14 (R60). -/
def posDuty : Nat := 14
/-- `CCR.FS`: bit 15 (R60). -/
def posFs : Nat := 15

/-- `CR1.PE`. -/
def RegValues.pe (rb : RegValues) : Bool := bitAt rb.cr1 posPe
/-- `CR1.START`. -/
def RegValues.start (rb : RegValues) : Bool := bitAt rb.cr1 posStart
/-- `CR1.STOP`. -/
def RegValues.stop (rb : RegValues) : Bool := bitAt rb.cr1 posStop
/-- `CLKEN.CLKGATE`: the bit `POS_CLKGATE` (R30, R60, D16). -/
def RegValues.clkgate (c : Config) (rb : RegValues) : Bool := bitAt rb.clken c.posClkgate.val
/-- A flag of `SR1`. -/
def RegValues.flag (rb : RegValues) (f : Flag) : Bool := bitAt rb.sr1 f.pos

/-- The registers with one flag of `SR1` replaced. -/
def RegValues.setFlag (rb : RegValues) (f : Flag) (b : Bool) : RegValues :=
  { rb with sr1 := putBit rb.sr1 f.pos b }

/-- The registers with one bit of `CR1` replaced. -/
def RegValues.setCr1 (rb : RegValues) (n : Nat) (b : Bool) : RegValues :=
  { rb with cr1 := putBit rb.cr1 n b }

end Sys2Proof.Machine
end

