-- ==== Sys2Proof/Machine/Operands.lean ====
section
/-! DEFINITION. Operand assembly and the arithmetic of the Timing Configurator: 30_encoding.md R63, R64, R75;
00_scope.md R7; 40_timing_configurator.md R81 to R90. Pure functions; nothing here is state (10_state.md R12). -/

namespace Sys2Proof.Machine

/-- R7 `udiv`: rounds toward zero, and a zero divisor gives `DIV0 = 0` (D7). -/
def udiv (a b : Nat) : Nat := if b = 0 then 0 else a / b

/-- R7 `mulW`: the product modulo `2^ARITH_W`. -/
def mulW (arithW a b : Nat) : Nat := (a * b) % 2 ^ arithW

/-- R86: fast mode exactly when `scl > 100_000`. -/
def fastMode (scl : Word) : Bool := decide (100000 < scl.toNat)

/-- R83: the frequency field. -/
def freqField (pclk : Word) : BitVec 6 := BitVec.ofNat 6 (udiv pclk.toNat 1000000)

/-- R87: the divider in standard mode. -/
def divSm (arithW : Nat) (pclk scl : Word) : BitVec 12 :=
  BitVec.ofNat 12 (udiv pclk.toNat (mulW arithW 2 scl.toNat))

/-- R88: the factor of the fast-mode divider. -/
def dutyFactor (d : Duty) : Nat :=
  match d with
  | .low => 3
  | .high => 25

/-- R88: the divider in fast mode. -/
def divFm (arithW : Nat) (pclk scl : Word) (duty : Duty) : BitVec 12 :=
  BitVec.ofNat 12 (udiv pclk.toNat (mulW arithW (dutyFactor duty) scl.toNat))

/-- R89: the rise time in standard mode. -/
def triseSm (pclk : Word) : BitVec 6 := BitVec.ofNat 6 (udiv pclk.toNat 1000000 + 1)

/-- R90: the rise time in fast mode. -/
def triseFm (arithW : Nat) (pclk : Word) : BitVec 6 :=
  BitVec.ofNat 6 (udiv (mulW arithW pclk.toNat 300) 1000000000 + 1)

/-- R86, R89, R90: the rise time CONFIGURE writes. -/
def triseField (arithW : Nat) (pclk scl : Word) : BitVec 6 :=
  if fastMode scl then triseFm arithW pclk else triseSm pclk

/-- R86, R87, R88: the divider CONFIGURE writes. -/
def divField (arithW : Nat) (pclk scl : Word) (duty : Duty) : BitVec 12 :=
  if fastMode scl then divFm arithW pclk scl duty else divSm arithW pclk scl

/-- R63: the own-address register's value, `(a << 1) | 0x4000`. -/
def oar1Value (a : Addr7) : Word := (a.setWidth 32 <<< 1) ||| 0x4000#32

/-- R64: the address byte, `(a << 1) | 0`; the direction bit is always 0. -/
def addrByte (a : Addr7) : Byte := a.setWidth 8 <<< 1

/-- The bits of `CR1` that SET_ENABLED owns (R100). -/
def peMask : Word := bitMask posPe
/-- The bits of `CR1` that SEQ_START_SET owns (R118). -/
def startMask : Word := bitMask posStart
/-- The bits of `CR1` that SEQ_STOP_SET owns (R129). -/
def stopMask : Word := bitMask posStop
/-- The bits of `CR1` that CONFIGURE owns (R84). -/
def ackMask : Word := bitMask posAck
/-- The bits of `CR2` that CONFIGURE owns (R83). -/
def freqMask : Word := 0x3F#32
/-- The bits of `CLKEN` that CLOCK_GATE_ENABLE owns (R102). -/
def clkgateMask (c : Config) : Word := bitMask c.posClkgate.val

/-- A mask when the bit is 1, nothing when it is 0. -/
def maskIf (b : Bool) (m : Word) : Word := if b then m else 0

/-- R87, R88: the bits of `CCR` that CONFIGURE owns; in standard mode `DUTY` is not among them (D21). -/
def ccrMask (scl : Word) : Word := if fastMode scl then 0xCFFF#32 else 0x8FFF#32

/-- R87, R88: the bits CONFIGURE sets in `CCR`. -/
def ccrBits (arithW : Nat) (pclk scl : Word) (duty : Duty) : Word :=
  if fastMode scl then
    bitMask posFs ||| maskIf duty.bit (bitMask posDuty) ||| (divFm arithW pclk scl duty).setWidth 32
  else
    (divSm arithW pclk scl).setWidth 32

/-- R44: the value the write half of a read-modify-write writes over a value read. -/
def rmwValue (old clr set : Word) : Word := (old &&& ~~~clr) ||| set

end Sys2Proof.Machine
end

