-- ==== Sys2Proof/Machine/Env.lean ====
section
/-! DEFINITION. ENV, the agent behind the RegisterBlock (43_peripheral_environment.md). Everything here acts on the
peripheral alone (registers and ENV's own state), so ENV cannot touch MTC, the ports, the buffer or `ACC` (R140).
Part 1 (R140 to R146) is `applyMove`; part 2 (R147 to R157) is `envStep` and the hooks; R158 is `refStep` and `Periph.turn`. -/

namespace Sys2Proof.Machine
namespace Periph

/-- R148: the reference ENV may step only while `CLKGATE = 1` and `PE = 1`. -/
def envEnabled (c : Config) (p : Periph) : Bool := RegValues.clkgate c p.rb && RegValues.pe p.rb

/-- The stop condition that appears on the wire: truncating when a byte is still in a slot (R144, R155). -/
def stopEvent (p : Periph) : WireEvent :=
  if p.env.holdValid || p.env.shiftValid then .stopTrunc else .stop

/-! ## The reference ENV's steps -/

/-- R149 `E_START`. -/
def eStart (p : Periph) : Periph :=
  { p with
    rb := RegValues.setFlag (RegValues.setCr1 p.rb posStart false) .sb true
    env := { p.env with phase := .started, wire := p.env.wire ++ [.start] } }

/-- R151 `E_ADDR`, with its draw `a`. -/
def eAddr (a : Bool) (p : Periph) : Periph :=
  { p with
    rb := RegValues.setFlag p.rb (if a then .addr else .af) true
    env := { p.env with
      phase := if a then .addrSent else .nacked
      holdValid := false
      addrStage := if a then .acked else .none
      wire := p.env.wire ++ [.byte p.env.hold a] } }

/-- R153 `E_DRAINED`. -/
def eDrained (p : Periph) : Periph := { p with rb := RegValues.setFlag p.rb .btf true }

/-- R154 `E_LOAD`. -/
def eLoad (p : Periph) : Periph :=
  { p with
    rb := RegValues.setFlag p.rb .txe true
    env := { p.env with shift := p.env.hold, shiftValid := true, holdValid := false } }

/-- R155 `E_STOP`. -/
def eStop (p : Periph) : Periph :=
  { p with
    rb := RegValues.setFlag (RegValues.setFlag (RegValues.setCr1 p.rb posStop false) .txe false) .btf false
    env := { p.env with
      phase := .idle
      holdValid := false
      shiftValid := false
      addrStage := p.env.addrStage.kept false false
      wire := p.env.wire ++ [stopEvent p] } }

/-- R156 `E_SHIFT_DONE`, with its draw `a`. -/
def eShiftDone (a : Bool) (p : Periph) : Periph :=
  { p with
    rb := if a then p.rb else RegValues.setFlag p.rb .af true
    env := { p.env with
      phase := if a then p.env.phase else .nacked
      shiftValid := false
      wire := p.env.wire ++ [.byte p.env.shift a] } }

/-- The precondition of a step (R148, R149, R151, R153 to R156). DESIGN CHOICE, unsafe (log 35): with `START` and `STOP` both 1 in
`P_IDLE` the precondition of R149 enables `E_START` and that of R155 `E_STOP`, where X22 says stop first, then start, and R155 settles
only the other phases; here both are enabled, so a plan or an unknown schedule may take either first. The two schedulers of R158 take
`E_STOP`. -/
def stepEnabled (c : Config) (p : Periph) (m : EnvStep) : Bool :=
  envEnabled c p &&
  match m with
  | .start => RegValues.start p.rb && p.env.phase == .idle
  | .addr _ => p.env.phase == .started && p.env.holdValid
  | .drained => p.env.phase == .data && !p.env.holdValid && !p.env.shiftValid && !RegValues.flag p.rb .btf
  | .load => p.env.phase == .data && p.env.holdValid && !p.env.shiftValid
  | .stop => RegValues.stop p.rb
  | .shiftDone _ => p.env.phase == .data && p.env.shiftValid

/-- The effect of a step. -/
def takeStep (m : EnvStep) (p : Periph) : Periph :=
  match m with
  | .start => eStart p
  | .addr a => eAddr a p
  | .drained => eDrained p
  | .load => eLoad p
  | .stop => eStop p
  | .shiftDone a => eShiftDone a p

/-- A step of the reference ENV, where its precondition holds; else nothing. -/
def envStep (c : Config) (m : EnvStep) (p : Periph) : Periph :=
  if stepEnabled c p m then takeStep m p else p

/-- Steps of the reference ENV one after another, whichever are enabled when their turn comes. -/
def envSteps (c : Config) (ms : List EnvStep) (p : Periph) : Periph :=
  match ms with
  | [] => p
  | m :: rest => envSteps c rest (envStep c m p)

/-! ## R158: one step by priority -/

/-- The next acknowledge draw of R151 and R156; with none left it is 1, as R158 has it for its schedulers (log 12). -/
def ackDraw (p : Periph) : Bool :=
  match p.env.acks with
  | [] => true
  | a :: _ => a

/-- The peripheral with the next acknowledge draw taken. -/
def dropAck (p : Periph) : Periph := { p with env := { p.env with acks := p.env.acks.tail } }

/-- The priority order of R158, with the bit `a` for the step that draws one. -/
def stepOrder (a : Bool) : List EnvStep := [.stop, .start, .addr a, .shiftDone a, .load, .drained]

/-- The peripheral once the draw of a step has been taken. -/
def drawFor (m : EnvStep) (p : Periph) : Periph :=
  match m with
  | .addr _ => dropAck p
  | .shiftDone _ => dropAck p
  | .start | .drained | .load | .stop => p

/-- The first enabled step in the order of R158; none when no step is enabled. -/
def refStep (c : Config) (p : Periph) : Option Periph :=
  ((stepOrder (ackDraw p)).find? (stepEnabled c p)).map (fun m => takeStep m (drawFor m p))

/-- Reference steps until none is enabled, at most `n` of them. -/
def runRef (c : Config) (n : Nat) (p : Periph) : Periph :=
  match n with
  | 0 => p
  | n + 1 =>
    match refStep c p with
    | none => p
    | some q => runRef c n q

/-- More reference steps than can follow one another with no MTC access between (log 21). -/
def eagerFuel : Nat := 8

/-- R158 eager: every enabled step, repeatedly, until none is enabled. -/
def runEager (c : Config) (p : Periph) : Periph := runRef c eagerFuel p

/-- R158 lazy: one enabled step, or none. -/
def runOnce (c : Config) (p : Periph) : Periph :=
  match refStep c p with
  | none => p
  | some q => q

/-! ## Part 1: any ENV -/

/-- What part 1 says of a status word `v` that ENV may show next (log 10): `ADDR` is neither set (that is `raiseAddr`) nor cleared
(R143); `SB` does not rise before a start condition has been on the bus (R24, R142); `TXE` rises only with the holding slot empty,
`BTF` only with the shift register empty (R144), and neither while `ADDR` is latched (R143, R188). Error flags and unnamed bits are
free (R145). DESIGN CHOICE, unsafe (log 30): `SB`, `TXE` and `BTF` may fall in any turn, since no rule of part 1 says that ENV keeps
them. DESIGN CHOICE, unsafe (log 32): R144 names only the move into the shift register for `TXE` and the drain onto the bus for `BTF`,
and does not say what they show after a byte is lost; here a slot whose byte was lost is an empty slot, so `TXE` may rise after a held
byte was lost, and `BTF` after a byte in the shift register was, which never reached the bus. DESIGN CHOICE, unsafe (log 34): R24 sets
`SB` for the start condition that `START` requested, and R142 does not say whether ENV may raise it for another; here `SB` may rise once
any start condition is on `WIRE`, requested or not, and may rise again for an old one. -/
def statusAllowed (p : Periph) (v : Word) : Bool :=
  bitAt v Flag.addr.pos == RegValues.flag p.rb .addr
  && (!bitAt v Flag.sb.pos || RegValues.flag p.rb .sb || p.env.wire.contains .start)
  && (!bitAt v Flag.txe.pos || RegValues.flag p.rb .txe
      || (!p.env.holdValid && !RegValues.flag p.rb .addr))
  && (!bitAt v Flag.btf.pos || RegValues.flag p.rb .btf
      || (!p.env.shiftValid && !RegValues.flag p.rb .addr))

/-- The byte in the holding slot kept (`h`) or lost, and the one in the shift register (`s`). -/
def keepSlots (h s : Bool) (p : Periph) : Periph :=
  { p with env := { p.env with
      holdValid := p.env.holdValid && h
      shiftValid := p.env.shiftValid && s
      addrStage := p.env.addrStage.kept h s } }

/-- The stop condition that appears on the wire: truncating when it cuts off an unsent byte, that is, loses one (R144, R147). -/
def stopEventWith (h s : Bool) (p : Periph) : WireEvent :=
  if (p.env.holdValid && !h) || (p.env.shiftValid && !s) then .stopTrunc else .stop

/-- A start condition that serves no request: no flag and no bit of `CR1` changes (R142 speaks of requested ones). -/
def unrequestedStart (p : Periph) : Periph :=
  { p with env := { p.env with phase := .started, wire := p.env.wire ++ [.start] } }

/-- One move of an ENV of part 1 (log 10). ENV moves only while the peripheral is clocked (20_memory.md R46, R59). While `ADDR` is
latched no data byte moves (R143), and `BTF = 1` keeps saying that the shift register has drained (R144): a byte that enters it
clears `BTF`. Part 1 does not say what a start or a stop condition does to a byte left in a slot, nor what phase a raised `ADDR`
leads to: the move says it. DESIGN CHOICE, unsafe (log 26): a start condition begins the address phase (phase started), a stop
condition ends the transfer (phase idle), and `ADDR`, raised after a stop, a start or an abandoned transfer as well as before, leads
to phase addrSent with `enter` and leaves the phase without. -/
def applyMove (c : Config) (m : EnvMove) (p : Periph) : Periph :=
  if !RegValues.clkgate c p.rb then p else
  match m with
  | .genStart h s => if RegValues.start p.rb then eStart (keepSlots h s p) else unrequestedStart (keepSlots h s p)
  | .genStop h s clear =>
    { p with
      rb := if clear then RegValues.setCr1 p.rb posStop false else p.rb
      env := { (keepSlots h s p).env with phase := .idle, wire := p.env.wire ++ [stopEventWith h s p] } }
  | .sendAddr a keep =>
    if p.env.addrStage == .held && p.env.holdValid then
      { p with env := { p.env with
          holdValid := keep
          addrStage := if a then .acked else if keep then .held else .none
          wire := p.env.wire ++ [.byte p.env.hold a] } }
    else p
  | .raiseAddr enter =>
    if p.env.addrStage == .acked then
      { p with
        rb := RegValues.setFlag p.rb .addr true
        env := { p.env with phase := if enter then .addrSent else p.env.phase } }
    else p
  | .load =>
    if p.env.holdValid && !p.env.shiftValid && (!RegValues.flag p.rb .addr || p.env.addrStage == .held) then
      { p with
        rb := RegValues.setFlag p.rb .btf false
        env := { p.env with
          shift := p.env.hold
          shiftValid := true
          holdValid := false
          addrStage := if p.env.addrStage == .held then .shifting else p.env.addrStage } }
    else p
  | .shiftDone a keep =>
    if p.env.shiftValid && (!RegValues.flag p.rb .addr || p.env.addrStage == .shifting) then
      { p with env := { p.env with
          shiftValid := keep
          addrStage :=
            if p.env.addrStage == .shifting then (if a then .acked else if keep then .shifting else .none)
            else p.env.addrStage
          wire := p.env.wire ++ [.byte p.env.shift a] } }
    else p
  | .drop h s => keepSlots h s p
  | .status v => if statusAllowed p v then { p with rb := { p.rb with sr1 := v } } else p
  | .abandon => { p with env := { p.env with phase := if p.env.phase == .idle then .idle else .nacked } }

/-- A turn of moves, in order. -/
def applyMoves (c : Config) (ms : List EnvMove) (p : Periph) : Periph :=
  match ms with
  | [] => p
  | m :: rest => applyMoves c rest (applyMove c m p)

/-- The peripheral under another schedule. -/
def reschedule (sc : Scheduler) (p : Periph) : Periph := { p with env := { p.env with sched := sc } }

/-- The next turn of a plan and the turns left before it starts over (log 33). -/
def planTurn (turns again : List (List EnvStep)) : List EnvStep × List (List EnvStep) :=
  match turns, again with
  | t :: rest, _ => (t, rest)
  | [], t :: rest => (t, rest)
  | [], [] => ([], [])

/-- An agenda ENV plays its next turn and keeps the rest. -/
def playTurn (c : Config) (turns : List (List EnvMove)) (p : Periph) : Periph :=
  match turns with
  | [] => p
  | t :: rest => applyMoves c t (reschedule (.agenda rest) p)

/-! ## Turns -/

/-- Where a turn of ENV falls: after a `REGSPACE` access, with the number of such accesses since reset; after a buffer read;
after a step of MTC that makes no access. -/
inductive TurnPoint where
  | bus (count : Nat)
  | buffer
  | internal
  deriving DecidableEq, Repr

/-- ENV's turn (R52, R140, R158). `eager` steps after every MTC access, `lazy k` after every `k`-th `REGSPACE` access,
every other schedule everywhere (log 23). -/
def turn (c : Config) (at_ : TurnPoint) (p : Periph) : Periph :=
  match p.env.sched with
  | .eager =>
    match at_ with
    | .bus _ => runEager c p
    | .buffer => runEager c p
    | .internal => p
  | .lazy k =>
    match at_ with
    | .bus count => if count % k == 0 then runOnce c p else p
    | .buffer => p
    | .internal => p
  | .plan turns again =>
    envSteps c (planTurn turns again).1 (reschedule (.plan (planTurn turns again).2 again) p)
  | .anyRef n => envSteps c (Config.freeSteps n) (reschedule (.anyRef (n + 1)) p)
  | .agenda turns => playTurn c turns p
  | .free n => applyMoves c (Config.freeTurn n) (reschedule (.free (n + 1)) p)

/-- Whether the reference ENV is the one behind the registers. -/
def isRef (p : Periph) : Bool :=
  match p.env.sched with
  | .eager => true
  | .lazy _ => true
  | .plan _ _ => true
  | .anyRef _ => true
  | .agenda _ => false
  | .free _ => false

/-- Whether one of the two schedulers of R158 runs the reference ENV. -/
def isScheduled (p : Periph) : Bool :=
  match p.env.sched with
  | .eager => true
  | .lazy _ => true
  | .plan _ _ => false
  | .anyRef _ => false
  | .agenda _ => false
  | .free _ => false

/-! ## Effects of accesses on ENV -/

/-- Effect of a `DR` write of the byte `b` (R144, R150). The reference ENV takes it in `P_STARTED` and `P_DATA` and drops it
otherwise. Any other ENV takes it into the holding slot, which clears `TXE` (R24), and its flags are otherwise its own: `BTF` speaks
of the shift register alone (R144). In the address phase the byte is an address byte (R22, R143). -/
def drHook (b : Byte) (p : Periph) : Periph :=
  if p.env.phase == .started then
    { p with
      rb := RegValues.setFlag p.rb (if isRef p then .sb else .txe) false
      env := { p.env with hold := b, holdValid := true, addrStage := .held } }
  else if p.env.phase == .data || (p.env.phase == .addrSent && !isRef p) then
    { p with
      rb := if isRef p then RegValues.setFlag (RegValues.setFlag p.rb .txe false) .btf false
            else RegValues.setFlag p.rb .txe false
      env := { p.env with hold := b, holdValid := true } }
  else p

/-- Whether a rule gives the effect of a `DR` write now. Under the reference ENV always (R150). Under any other ENV only in
the address phase before its end with the holding slot empty, or afterwards (phase addrSent or data) with `TXE = 1` (R144, X6,
log 11). -/
def drWriteDescribed (p : Periph) : Bool :=
  isRef p || (p.env.phase == .started && !p.env.holdValid) || ((p.env.phase == .data || p.env.phase == .addrSent) && RegValues.flag p.rb .txe)

/-- Whether an `SR2` read that clears `ADDR` ends the address phase (20_memory.md R45, R152): in phase addrSent, and under an ENV that
is not the reference one also in phase started once its address byte was acknowledged. -/
def addrPhaseEnds (p : Periph) : Bool :=
  p.env.phase == .addrSent || (!isRef p && p.env.phase == .started && p.env.addrStage == .acked)

/-- Effect of an `SR2` read that clears `ADDR` (R152). The reference ENV enters the data phase and sets `TXE`; any other ENV
enters the data phase and sets its flags in its own turns. -/
def addrClearHook (p : Periph) : Periph :=
  if addrPhaseEnds p then
    { p with
      rb := if isRef p then RegValues.setFlag p.rb .txe true else p.rb
      env := { p.env with phase := .data } }
  else p

/-- Effect of a `CR1` write that changes `PE` from 1 to 0 (R157): the reference ENV is reset. Any other ENV reacts in its own
turns (X16, log 15). -/
def disableHook (p : Periph) : Periph :=
  if isRef p then
    { p with
      rb := RegValues.setFlag (RegValues.setFlag (RegValues.setFlag (RegValues.setFlag p.rb
        .sb false) .addr false) .btf false) .txe false
      env := { p.env with phase := .idle, holdValid := false, shiftValid := false, addrStage := p.env.addrStage.kept false false } }
  else p

end Periph
end Sys2Proof.Machine
end

