-- ==== Sys2Proof/Machine/Ops.lean ====
section
/-! DEFINITION. The operations every meaning is made of: the buffer memory (10_state.md R32, R34), the access primitives
`RegRead`, `RegWrite`, `RegRMW`, `BufRead` with their side effects and their entry in `ACC` (20_memory.md R42 to R47), the
command port (30_encoding.md R66, R67, R72) and the host's moves (R65). Taking an exception: MTC has none (60_exceptions.md
R168); what stands in its place is `respondIllegal` (R165). -/

namespace Sys2Proof.Machine

/-! ## BUFSPACE -/

/-- What an unlisted byte of `BUFSPACE` reads as. DESIGN CHOICE, unsafe (log 6). -/
def Memory.unlisted : Byte := 0

/-- The byte at an address. -/
def Memory.read (m : Memory) (a : Nat) : Byte :=
  match m with
  | [] => Memory.unlisted
  | (b, v) :: rest => if b = a then v else Memory.read rest a

/-- The memory with one byte replaced, in canonical form again. -/
def Memory.write (m : Memory) (a : Nat) (v : Byte) : Memory :=
  match m with
  | [] => if v = Memory.unlisted then [] else [(a, v)]
  | (b, w) :: rest =>
    if a < b then (if v = Memory.unlisted then (b, w) :: rest else (a, v) :: (b, w) :: rest)
    else if a = b then (if v = Memory.unlisted then rest else (a, v) :: rest)
    else (b, w) :: Memory.write rest a v

/-- The canonical form from an address on: addresses strictly rising from `lo`, below 2^32, no byte as an unlisted one. -/
def Memory.wfFrom (lo : Nat) (m : Memory) : Bool :=
  match m with
  | [] => true
  | (a, v) :: rest =>
    decide (lo ≤ a) && decide (a < 2 ^ 32) && !(v == Memory.unlisted) && Memory.wfFrom (a + 1) rest

/-- The canonical form. -/
def Memory.wf (m : Memory) : Bool := Memory.wfFrom 0 m

/-! ## REGSPACE: names and addresses -/

/-- The eleven words of `REGSPACE` (R17, R30, R33). -/
inductive RegName where
  | cr1 | cr2 | oar1 | oar2 | dr | sr1 | sr2 | ccr | trise | fltr | clken
  deriving DecidableEq, Repr

/-- R61: the offset of a register from `I2C_BASE`; `CLKEN` has none. -/
def RegName.offset (r : RegName) : Nat :=
  match r with
  | .cr1 => 0x00
  | .cr2 => 0x04
  | .oar1 => 0x08
  | .oar2 => 0x0C
  | .dr => 0x10
  | .sr1 => 0x14
  | .sr2 => 0x18
  | .ccr => 0x1C
  | .trise => 0x20
  | .fltr => 0x24
  | .clken => 0

/-- R42, R48: the byte address of a word of `REGSPACE`. DESIGN CHOICE, unsafe (log 27): no rule says what a block whose base lies in
the last 40 bytes of the 32-bit space does; such a base is accepted and the addresses wrap modulo 2^32. -/
def regAddr (c : Config) (r : RegName) : Word :=
  match r with
  | .clken => c.clkenAddr
  | .cr1 | .cr2 | .oar1 | .oar2 | .dr | .sr1 | .sr2 | .ccr | .trise | .fltr =>
    c.i2cBase + BitVec.ofNat 32 r.offset

/-- The byte addresses that the words of `REGSPACE` occupy (R32). -/
def regSpaceBytes (c : Config) : List Word :=
  (List.range 40).map (fun k => c.i2cBase + BitVec.ofNat 32 k)
    ++ (List.range 4).map (fun k => c.clkenAddr + BitVec.ofNat 32 k)

/-- R32, X11: the buffer range `[ptr, ptr + len)`, taken modulo 2^32, meets `REGSPACE`. -/
def bufferAliases (c : Config) (ptr len : Word) : Bool :=
  (regSpaceBytes c).any (fun a => decide ((a - ptr).toNat < len.toNat))

/-- The registers whose reads R45 describes: all but `DR` (X7). -/
inductive ReadReg where
  | cr1 | cr2 | oar1 | oar2 | sr1 | sr2 | ccr | trise | fltr | clken
  deriving DecidableEq, Repr

/-- The registers whose writes R46 describes (X7). -/
inductive WriteReg where
  | cr1 | cr2 | oar1 | dr | ccr | trise | clken
  deriving DecidableEq, Repr

/-- The registers written by read-modify-write (R44). -/
inductive RmwReg where
  | cr1 | cr2 | ccr | clken
  deriving DecidableEq, Repr

/-- The register a read names. -/
def ReadReg.name (r : ReadReg) : RegName :=
  match r with
  | .cr1 => .cr1
  | .cr2 => .cr2
  | .oar1 => .oar1
  | .oar2 => .oar2
  | .sr1 => .sr1
  | .sr2 => .sr2
  | .ccr => .ccr
  | .trise => .trise
  | .fltr => .fltr
  | .clken => .clken

/-- The register a write names. -/
def WriteReg.name (r : WriteReg) : RegName :=
  match r with
  | .cr1 => .cr1
  | .cr2 => .cr2
  | .oar1 => .oar1
  | .dr => .dr
  | .ccr => .ccr
  | .trise => .trise
  | .clken => .clken

/-- The read half of a read-modify-write. -/
def RmwReg.toRead (r : RmwReg) : ReadReg :=
  match r with
  | .cr1 => .cr1
  | .cr2 => .cr2
  | .ccr => .ccr
  | .clken => .clken

/-- The write half of a read-modify-write. -/
def RmwReg.toWrite (r : RmwReg) : WriteReg :=
  match r with
  | .cr1 => .cr1
  | .cr2 => .cr2
  | .ccr => .ccr
  | .clken => .clken

/-! ## Reads -/

/-- The value the next read of `SR2` returns (R27, X8, log 9): 0 under the two schedulers of R158, else the free value. -/
def sr2Draw (p : Periph) : Word :=
  if Periph.isScheduled p then 0 else Config.freeSr2 p.env.draws

/-- R45: the value a read returns. -/
def readValue (r : ReadReg) (p : Periph) : Word :=
  match r with
  | .cr1 => p.rb.cr1
  | .cr2 => p.rb.cr2
  | .oar1 => p.rb.oar1
  | .oar2 => p.rb.oar2
  | .sr1 => p.rb.sr1
  | .sr2 => sr2Draw p
  | .ccr => p.rb.ccr
  | .trise => p.rb.trise
  | .fltr => p.rb.fltr
  | .clken => p.rb.clken

/-- R45 for `SR2`: the content becomes the value drawn; when `CLR_ARMED = 1`, `ADDR` and `CLR_ARMED` are cleared and ENV is
told that the address phase is over (R35, R152). -/
def sr2ReadEffect (p : Periph) : Periph :=
  let q : Periph :=
    { p with
      rb := { p.rb with sr2 := sr2Draw p }
      env := { p.env with draws := if Periph.isScheduled p then p.env.draws else p.env.draws + 1 } }
  if p.clrArmed then
    Periph.addrClearHook { q with rb := RegValues.setFlag q.rb .addr false, clrArmed := false }
  else q

/-- R45: the side effect of a read. -/
def readEffect (r : ReadReg) (p : Periph) : Periph :=
  match r with
  | .sr1 => { p with clrArmed := RegValues.flag p.rb .addr }
  | .sr2 => sr2ReadEffect p
  | .clken => p
  | .cr1 | .cr2 | .oar1 | .oar2 | .ccr | .trise | .fltr => { p with clrArmed := false }

/-! ## Writes -/

/-- R46 for `CR1`: stored; a change of `PE` from 1 to 0 is told to ENV (R157). -/
def cr1WriteEffect (v : Word) (p : Periph) : Periph :=
  let q : Periph := { p with rb := { p.rb with cr1 := v }, clrArmed := false }
  if RegValues.pe p.rb && !RegValues.pe q.rb then Periph.disableHook q else q

/-- R46: storing, and the side effect of a write. -/
def writeEffect (r : WriteReg) (v : Word) (p : Periph) : Periph :=
  match r with
  | .cr1 => cr1WriteEffect v p
  | .cr2 => { p with rb := { p.rb with cr2 := v }, clrArmed := false }
  | .oar1 => { p with rb := { p.rb with oar1 := v }, clrArmed := false }
  | .dr => Periph.drHook (v.setWidth 8) { p with clrArmed := false }
  | .ccr => { p with rb := { p.rb with ccr := v }, clrArmed := false }
  | .trise => { p with rb := { p.rb with trise := v }, clrArmed := false }
  | .clken => { p with rb := { p.rb with clken := v } }

/-! ## Accesses: one entry of `ACC` and one turn of ENV each -/

/-- Whether an access is one of `REGSPACE`; those are what a lazy scheduler counts (R158). -/
def Access.isBus (a : Access) : Bool :=
  match a with
  | .regRead _ _ => true
  | .regWrite _ _ => true
  | .bufRead _ _ => false

/-- The number of `REGSPACE` accesses since reset (R158). -/
def busCount (acc : List Access) : Nat := acc.countP Access.isBus

/-- Append an access to `ACC` (R42). -/
def logAccess (a : Access) (s : State) : State := { s with acc := s.acc ++ [a] }

/-- ENV's turn after a `REGSPACE` access (R52). -/
def busTurn (s : State) : State := { s with per := Periph.turn s.cfg (.bus (busCount s.acc)) s.per }

/-- ENV's turn after a buffer read (R52). -/
def bufferTurn (s : State) : State := { s with per := Periph.turn s.cfg .buffer s.per }

/-- ENV's turn in a step of MTC that makes no access (R140). -/
def internalTurn (s : State) : State := { s with per := Periph.turn s.cfg .internal s.per }

/-- `RegRead(REG)` (R42, R45): the value, and the state after the side effect and ENV's turn. -/
def regRead (r : ReadReg) (s : State) : Word × State :=
  let v := readValue r s.per
  (v, busTurn (logAccess (.regRead (regAddr s.cfg r.name) v) { s with per := readEffect r s.per }))

/-- `RegWrite(REG, v)` (R42, R46). -/
def regWrite (r : WriteReg) (v : Word) (s : State) : State :=
  busTurn (logAccess (.regWrite (regAddr s.cfg r.name) v) { s with per := writeEffect r v s.per })

/-- `x[TMP] <- v`. -/
def setTmp (v : Word) (s : State) : State := { s with mtc := { s.mtc with tmp := v } }

/-- `RegRMW(REG, clr, set)` (R44): two accesses with ENV's turn after each; `TMP` holds the value read. -/
def regRmw (r : RmwReg) (clr set : Word) (s : State) : State :=
  let t := regRead r.toRead s
  let u := setTmp t.1 t.2
  regWrite r.toWrite (rmwValue u.mtc.tmp clr set) u

/-- `BufRead(a)` (R47). -/
def bufRead (a : Word) (s : State) : Byte × State :=
  let v := Memory.read s.buf a.toNat
  (v, bufferTurn (logAccess (.bufRead a v) s))

/-- R59, X12: an instruction that accesses the RegisterBlock is refused while `CLKGATE = 0`. Nothing but MTC changes
`CLKGATE`, so asking once, before the first access, is asking at each. -/
def whenClocked (s : State) (r : Result) : Result :=
  if RegValues.clkgate s.cfg s.per.rb then r else .refused .registerBlockUnclocked

/-- A write of one byte to `DR`, zero-extended (R22, R43), then `k`; refused where no rule gives its effect (X6, log 11). -/
def drWriteThen (b : Byte) (s : State) (k : State → State) : Result :=
  if Periph.drWriteDescribed s.per then .next (k (regWrite .dr (b.setWidth 32) s))
  else .refused .drWriteUndescribed

/-- `pc <- u` (R8, R15). -/
def setUpc (u : Upc) (s : State) : State := { s with mtc := { s.mtc with upc := u } }

/-! ## The command port -/

/-- R66, R67: a command ends: one response, then `BUSY <- 0`. -/
def respond (status data : Bool) (s : State) : State :=
  { s with
    mtc := { s.mtc with busy := false }
    ports := { s.ports with rsp := some ⟨status, data⟩ } }

/-- R72, R165 `IllegalCommand`: `rsp_status = 1`, `rsp_data = 0`, no access, nothing else changed. -/
def respondIllegal (s : State) : State := respond true false s

/-- R66: acceptance latches `CMD` and sets `BUSY`; the command leaves the port, and an earlier response is no longer
presented (log 8). -/
def accept (w : CmdWords) (rest : List CmdWords) (s : State) : State :=
  { s with
    mtc := { s.mtc with cmd := w, busy := true }
    ports := { s.ports with offered := rest, rsp := none } }

/-- R66 `cmd_ready`. -/
def cmdReady (s : State) : Bool := !s.mtc.busy

/-- The five protocol states, presented on the debug port only (10_state.md R16). -/
inductive SeqState where
  | idle
  | startSent
  | addressAcked
  | transmitting
  | awaitingDrainAndStop
  deriving DecidableEq, Repr

/-- R16: the protocol state is a function of `UPC`. -/
def seqState (u : Upc) : SeqState :=
  match u with
  | .u0 | .u1 | .u2 => .idle
  | .u3 | .u4 | .u5 | .u6 => .startSent
  | .u7 | .u8 | .u9 => .addressAcked
  | .u10 | .u11 => .transmitting
  | .u12 => .awaitingDrainAndStop

/-- R16, R65 `seq_state[2:0]`: the code on the debug port. -/
def seqStateCode (q : SeqState) : BitVec 3 :=
  match q with
  | .idle => 0
  | .startSent => 1
  | .addressAcked => 2
  | .transmitting => 3
  | .awaitingDrainAndStop => 4

/-! ## The host -/

/-- R180: `rst` puts MTC, the RegisterBlock, ENV and both traces in their reset state, whatever was going on. What is the
host's stays: its moves to come, the commands it offers, `pclk_hz`, the buffer; so do ENV's schedule and draws (log 20). What ENV's own initial state is, for one that is not the reference one: log 29. -/
def rstState (s : State) : State :=
  { s with
    mtc := Mtc.reset
    per := ⟨s.cfg.rbReset, false, Env.reset s.per.env.sched s.per.env.acks s.per.env.draws⟩
    ports := { s.ports with rsp := none }
    acc := [] }

/-- One host move other than `rst` (log 7). -/
def applyHost (m : HostMove) (s : State) : State :=
  match m with
  | .idle => s
  | .offer w => { s with ports := { s.ports with offered := s.ports.offered ++ [w] } }
  | .clock hz => { s with ports := { s.ports with pclkHz := hz } }
  | .poke a b => { s with buf := Memory.write s.buf a.toNat b }
  | .rst => rstState s

/-- The host's move before a step, taken off its list; with none listed the host does nothing. -/
def hostTurn (s : State) : State :=
  match s.ports.host with
  | [] => s
  | m :: rest => applyHost m { s with ports := { s.ports with host := rest } }

/-- Whether the host pulses `rst` in this step. -/
def rstAsserted (s : State) : Bool :=
  match s.ports.host with
  | .rst :: _ => true
  | _ => false

end Sys2Proof.Machine
end

