-- ==== Sys2Proof/Machine/Configure.lean ====
section
/-! DEFINITION. The Timing Configurator: CONFIGURE (40_timing_configurator.md R80 to R92). -/

namespace Sys2Proof.Machine

/-- R10, R11, R80: the operands are latched before the first access. -/
def latchConfig (pclk scl : Word) (duty : Duty) (addr : Addr7) (ack : Bool) (s : State) : State :=
  { s with mtc := { s.mtc with pclk := pclk, hScl := scl, hDuty := duty, hAddr := addr, hAck := ack } }

/-- R80 step 1 (R84): `CR1.ACK`. -/
def configAck (s : State) : State := regRmw .cr1 ackMask (maskIf s.mtc.hAck ackMask) s

/-- R80 step 2 (R83): `CR2.FREQ`. -/
def configFreq (s : State) : State := regRmw .cr2 freqMask ((freqField s.mtc.pclk).setWidth 32) s

/-- R80 step 3 (R85): `OAR1`. -/
def configAddr (s : State) : State := regWrite .oar1 (oar1Value s.mtc.hAddr) s

/-- R80 step 4 (R86 to R88): `CCR.DIV`, `CCR.FS`, and `CCR.DUTY` in fast mode. -/
def configDiv (s : State) : State :=
  regRmw .ccr (ccrMask s.mtc.hScl) (ccrBits s.cfg.arithW s.mtc.pclk s.mtc.hScl s.mtc.hDuty) s

/-- R80 step 5 (R89, R90): `TRISE`. -/
def configRise (s : State) : State :=
  regWrite .trise ((triseField s.cfg.arithW s.mtc.pclk s.mtc.hScl).setWidth 32) s

/-- `x[H_VALID] <- 1` (R80, D25). -/
def setValid (s : State) : State := { s with mtc := { s.mtc with hValid := true } }

/-- The body of CONFIGURE (R80): the latches, eight accesses in the order of R91, `H_VALID`. -/
def configBody (pclk scl : Word) (duty : Duty) (addr : Addr7) (ack : Bool) (s : State) : State :=
  setValid (configRise (configDiv (configAddr (configFreq (configAck (latchConfig pclk scl duty addr ack s))))))

/-- CONFIGURE (R80). No operand is checked (R92). -/
def execConfigure (pclk scl : Word) (duty : Duty) (addr : Addr7) (ack : Bool) (s : State) : Result :=
  whenClocked s (.next (respond false false (configBody pclk scl duty addr ack s)))

end Sys2Proof.Machine
end

