-- ==== Sys2Proof/Machine/Control.lean ====
section
/-! DEFINITION. Enable, clock gate, status poller and INITIALIZE (41_enable_status_init.md R100 to R112). -/

namespace Sys2Proof.Machine

/-- `RegRMW(CR1, 0x0001, en)` (R100). -/
def enableBody (en : Bool) (s : State) : State := regRmw .cr1 peMask (maskIf en peMask) s

/-- The read-modify-write of `CLKEN` (R102). -/
def clockGateBody (s : State) : State := regRmw .clken (clkgateMask s.cfg) (clkgateMask s.cfg) s

/-- SET_ENABLED (R100). -/
def execSetEnabled (en : Bool) (s : State) : Result :=
  whenClocked s (.next (respond false false (enableBody en s)))

/-- CLOCK_GATE_ENABLE (R102): allowed with the gate off. -/
def execClockGateEnable (s : State) : Result := .next (respond false false (clockGateBody s))

/-- `x[RESULT] <- b` (R14). -/
def setResult (b : Bool) (s : State) : State := { s with mtc := { s.mtc with result := b } }

/-- The response of HAS_FLAG carries `x[RESULT]` (R67, R105). -/
def respondResult (s : State) : State := respond false s.mtc.result s

/-- HAS_FLAG (R105): one read of `SR1`, one bit of the value read. A selector that names no flag is an illegal command
(R71, R72). -/
def execHasFlag (sel : BitVec 4) (s : State) : Result :=
  match Flag.ofSelector sel with
  | some f => whenClocked s (.next (respondResult (setResult (bitAt (regRead .sr1 s).1 f.pos) (regRead .sr1 s).2)))
  | none => .next (respondIllegal s)

/-- The two-register clearing read (R108): `SR1`, then `SR2`, both values discarded. -/
def clearBody (s : State) : State := (regRead .sr2 (regRead .sr1 s).2).2

/-- CLEAR_ADDR (R108). -/
def execClearAddr (s : State) : Result := whenClocked s (.next (respond false false (clearBody s)))

/-- The body of INITIALIZE (R110): gate, enable, then the body of CONFIGURE with `pclk_hz` sampled once. -/
def initBody (addr : Addr7) (ack : Bool) (scl : Word) (duty : Duty) (s : State) : State :=
  let t := enableBody true (clockGateBody s)
  configBody t.ports.pclkHz scl duty addr ack t

/-- INITIALIZE (R110): one command, one response. Its first access sets `CLKGATE`, so it is never refused (R59, R102). -/
def execInitPeripheral (addr : Addr7) (ack : Bool) (scl : Word) (duty : Duty) (s : State) : Result :=
  .next (respond false false (initBody addr ack scl duty s))

end Sys2Proof.Machine
end

