-- ==== Sys2Proof/Machine/Sequencer.lean ====
section
/-! DEFINITION. The master-transmit sequencer: MASTER_SEND and the micro-steps U0 to U12 (42_master_transmit.md R115 to R136). -/

namespace Sys2Proof.Machine

/-- R115: the transfer registers at acceptance; `IDX <- 0`. -/
def latchTransfer (addr : Addr7) (ptr len : Word) (s : State) : State :=
  { s with mtc := { s.mtc with tAddr := addr, tPtr := ptr, tLen := len, idx := 0 } }

/-- MASTER_SEND (R115): latch, then `pc <- U1`; the response comes from U12. Nothing is checked (R136) but a buffer range
that aliases `REGSPACE`, which is refused (R32, X11). -/
def execMasterSend (addr : Addr7) (ptr len : Word) (s : State) : Result :=
  if bufferAliases s.cfg ptr len then .refused .bufferAliasesRegisters
  else .next (setUpc .u1 (latchTransfer addr ptr len s))

/-- A poll (R119, R121, R125, R127, R128): one read of `SR1`; go to `next` when the flag's bit of the value read is 1, else
stay at `here`. There is no bound and no timeout (R134). -/
def pollFlag (f : Flag) (here next : Upc) (s : State) : State :=
  setUpc (if bitAt (regRead .sr1 s).1 f.pos then next else here) (regRead .sr1 s).2

/-- U0 `SEQ_IDLE` (R117): no access; `UPC` stays. -/
def execSeqIdle (s : State) : Result := .next (internalTurn s)

/-- U1 `SEQ_START_SET` (R118): `CR1.START <- 1`. -/
def execSeqStartSet (s : State) : Result :=
  whenClocked s (.next (setUpc .u2 (regRmw .cr1 startMask startMask s)))

/-- U2 `SEQ_WAIT_SB` (R119). -/
def execSeqWaitSb (s : State) : Result := whenClocked s (.next (pollFlag .sb .u2 .u3 s))

/-- U3 `SEQ_ADDR_WRITE` (R120): the address byte to `DR`. -/
def execSeqAddrWrite (s : State) : Result :=
  whenClocked s (drWriteThen (addrByte s.mtc.tAddr) s (setUpc .u4))

/-- U4 `SEQ_WAIT_ADDR` (R121). -/
def execSeqWaitAddr (s : State) : Result := whenClocked s (.next (pollFlag .addr .u4 .u5 s))

/-- U5 `SEQ_CLR_SR1` (R122). -/
def execSeqClrSr1 (s : State) : Result := whenClocked s (.next (setUpc .u6 (regRead .sr1 s).2))

/-- U6 `SEQ_CLR_SR2` (R123). -/
def execSeqClrSr2 (s : State) : Result := whenClocked s (.next (setUpc .u7 (regRead .sr2 s).2))

/-- U7 `SEQ_LOOP_TEST` (R124): no access; an unsigned comparison. -/
def execSeqLoopTest (s : State) : Result :=
  .next (setUpc (if s.mtc.idx.toNat < s.mtc.tLen.toNat then .u8 else .u10) (internalTurn s))

/-- U8 `SEQ_WAIT_TXE` (R125). -/
def execSeqWaitTxe (s : State) : Result := whenClocked s (.next (pollFlag .txe .u8 .u9 s))

/-- `x[IDX] <- x[IDX] + 1` (R126). -/
def bumpIdx (s : State) : State := { s with mtc := { s.mtc with idx := s.mtc.idx + 1 } }

/-- The address of the buffer byte U9 reads, modulo 2^32 (R34, R126). -/
def bufferAddr (m : Mtc) : Word := m.tPtr + m.idx

/-- U9 `SEQ_DATA_WRITE` (R126): read a buffer byte, write it to `DR`, count it. -/
def execSeqDataWrite (s : State) : Result :=
  whenClocked s
    (drWriteThen (bufRead (bufferAddr s.mtc) s).1 (bufRead (bufferAddr s.mtc) s).2 (fun t => setUpc .u7 (bumpIdx t)))

/-- U10 `SEQ_DRAIN_TXE` (R127). -/
def execSeqDrainTxe (s : State) : Result := whenClocked s (.next (pollFlag .txe .u10 .u11 s))

/-- U11 `SEQ_WAIT_BTF` (R128). -/
def execSeqWaitBtf (s : State) : Result := whenClocked s (.next (pollFlag .btf .u11 .u12 s))

/-- U12 `SEQ_STOP_SET` (R129): `CR1.STOP <- 1`, respond, `pc <- U0`. -/
def execSeqStopSet (s : State) : Result :=
  whenClocked s (.next (setUpc .u0 (respond false false (regRmw .cr1 stopMask stopMask s))))

end Sys2Proof.Machine
end

