-- ==== Sys2Proof/Machine/Dispatch.lean ====
section
/-! DEFINITION. One arm per instruction, each one direct call of its meaning. -/

namespace Sys2Proof.Machine

def exec (i : Instr) (s : State) : Host.Outcome State Fault Refusal :=
  match i with
  | .configure pclk scl duty addr ack => Sys2Proof.Machine.execConfigure pclk scl duty addr ack s
  | .setEnabled en => Sys2Proof.Machine.execSetEnabled en s
  | .clockGateEnable => Sys2Proof.Machine.execClockGateEnable s
  | .hasFlag sel => Sys2Proof.Machine.execHasFlag sel s
  | .clearAddr => Sys2Proof.Machine.execClearAddr s
  | .masterSend addr ptr len => Sys2Proof.Machine.execMasterSend addr ptr len s
  | .initPeripheral addr ack scl duty => Sys2Proof.Machine.execInitPeripheral addr ack scl duty s
  | .seqIdle => Sys2Proof.Machine.execSeqIdle s
  | .seqStartSet => Sys2Proof.Machine.execSeqStartSet s
  | .seqWaitSb => Sys2Proof.Machine.execSeqWaitSb s
  | .seqAddrWrite => Sys2Proof.Machine.execSeqAddrWrite s
  | .seqWaitAddr => Sys2Proof.Machine.execSeqWaitAddr s
  | .seqClrSr1 => Sys2Proof.Machine.execSeqClrSr1 s
  | .seqClrSr2 => Sys2Proof.Machine.execSeqClrSr2 s
  | .seqLoopTest => Sys2Proof.Machine.execSeqLoopTest s
  | .seqWaitTxe => Sys2Proof.Machine.execSeqWaitTxe s
  | .seqDataWrite => Sys2Proof.Machine.execSeqDataWrite s
  | .seqDrainTxe => Sys2Proof.Machine.execSeqDrainTxe s
  | .seqWaitBtf => Sys2Proof.Machine.execSeqWaitBtf s
  | .seqStopSet => Sys2Proof.Machine.execSeqStopSet s

end Sys2Proof.Machine
end

