-- ==== Sys2Proof/Machine/Fetch.lean ====
section
/-! DEFINITION. Where a step takes its instruction from: the sequencer's micro-program counter while a command is in execution,
else the first command on the command port (10_state.md R15, 30_encoding.md R66, R74). -/

namespace Sys2Proof.Machine

/-- What a step has to do: nothing but reset, run an instruction in a state, or answer an illegal command. -/
inductive Work where
  | run (i : Instr) (s : State)
  | illegal (s : State)
  deriving DecidableEq, Repr

/-- The instruction at `UPC`. Every value of `UPC` is a used code (R15, X17). -/
def fetchMicro (s : State) : Work :=
  match decodeMicro s.mtc.upc.code with
  | .ok i => .run i s
  | .error _ => .illegal s

/-- R66: the accepted command is decoded from `CMD`. -/
def decodeAccepted (s : State) : Work :=
  match decodeCommand s.mtc.cmd with
  | .ok i => .run i s
  | .error _ => .illegal s

/-- R66, R117: with `BUSY = 1` the sequencer goes on at `UPC`. With `BUSY = 0` the first command offered is accepted and
decoded; with none offered SEQ is at U0 and waits. -/
def fetch (s : State) : Work :=
  if s.mtc.busy then fetchMicro s
  else
    match s.ports.offered with
    | [] => .run .seqIdle s
    | w :: rest => decodeAccepted (accept w rest s)

/-- The state in which the very next `fetch` yields the encoded instruction: a command stands first on the port and MTC is
ready for it; a micro-step is where `UPC` points, with a command in execution (for U0: with none, and none offered). The
host does nothing before that step (log 16). -/
def placeEncoded (e : Encoded) (s : State) : State :=
  let s := { s with ports := { s.ports with host := .idle :: s.ports.host } }
  match e with
  | .cmd w =>
    { s with
      mtc := { s.mtc with busy := false, upc := .u0 }
      ports := { s.ports with offered := w :: s.ports.offered } }
  | .micro code =>
    match Upc.ofCode code with
    | none => s
    | some .u0 =>
      { s with mtc := { s.mtc with busy := false, upc := .u0 }, ports := { s.ports with offered := [] } }
    | some u => { s with mtc := { s.mtc with busy := true, upc := u } }

end Sys2Proof.Machine
end

