-- ==== Sys2Proof/Machine/Step.lean ====
section
/-! DEFINITION. One step of the machine (log 1): a configuration check, the host's move, then one command or one micro-step. -/

namespace Sys2Proof.Machine

/-- What a step does once the host has moved. -/
def runWork (w : Work) : Host.Outcome State Fault Refusal :=
  match w with
  | .run i s => exec i s
  | .illegal s => .next (respondIllegal s)

/-- One step. A misaligned configuration is refused (R41, X18). The host's move comes first; in a step in which it pulses
`rst`, MTC accepts no command and issues no access (R180). -/
def step (s : State) : Host.Outcome State Fault Refusal :=
  if s.cfg.wf then
    if rstAsserted s then .next (hostTurn s)
    else runWork (fetch (hostTurn s))
  else .refused .misalignedConfig

/-- `s` with the instruction whose bits are `w` placed where the next step fetches (log 16, log 17). -/
def State.withFetchWord (s : State) (nbits w : Nat) : State :=
  match Encoded.ofTable nbits w with
  | some e => placeEncoded e s
  | none => s

end Sys2Proof.Machine
end

