-- ==== Sys2Proof/Safety.lean ====
section
/-! DEFINITION. The terms claims are made in: what ENV may change (43_peripheral_environment.md R140 to R143), the invariants of
the machine, and the shape of the access trace of a completed MASTER_SEND (42_master_transmit.md R132). -/

namespace Sys2Proof.Safety

open Sys2Proof.Machine

/-- `q` differs from `p` at most by what ENV may change (R140 to R143): every storage register and `CLR_ARMED` are the same, of
`CR1` only `START` and `STOP` may differ and those only by falling, a latched `ADDR` stays latched, and `WIRE` only grows. -/
structure EnvOnly (p q : Periph) : Prop where
  cr1Bits : ∀ n, n ≠ posStart → n ≠ posStop → bitAt q.rb.cr1 n = bitAt p.rb.cr1 n
  start   : RegValues.start q.rb = true → RegValues.start p.rb = true
  stop    : RegValues.stop q.rb = true → RegValues.stop p.rb = true
  cr2     : q.rb.cr2 = p.rb.cr2
  oar1    : q.rb.oar1 = p.rb.oar1
  oar2    : q.rb.oar2 = p.rb.oar2
  dr      : q.rb.dr = p.rb.dr
  sr2     : q.rb.sr2 = p.rb.sr2
  ccr     : q.rb.ccr = p.rb.ccr
  trise   : q.rb.trise = p.rb.trise
  fltr    : q.rb.fltr = p.rb.fltr
  clken   : q.rb.clken = p.rb.clken
  armed   : q.clrArmed = p.clrArmed
  addr    : RegValues.flag p.rb .addr = true → RegValues.flag q.rb .addr = true
  wire    : ∃ es, q.env.wire = p.env.wire ++ es

/-- The registers after the writes of CONFIGURE (R83 to R90), as numbers: products modulo `2^ARITH_W` (R7), divisions by zero 0
(D7), `DUTY` written in fast mode only (R87, R88). -/
def configured (c : Config) (pclk scl : Word) (duty : Duty) (addr : Addr7) (ack : Bool) (rb : RegValues) : RegValues :=
  { rb with
    cr1 := (rb.cr1 &&& ~~~0x0400#32) ||| (if ack then 0x0400#32 else 0#32)
    cr2 := (rb.cr2 &&& ~~~0x003F#32) ||| BitVec.ofNat 32 ((pclk.toNat / 1000000) % 64)
    oar1 := BitVec.ofNat 32 (addr.toNat * 2 + 0x4000)
    ccr :=
      if scl.toNat ≤ 100000 then
        (rb.ccr &&& ~~~0x8FFF#32) ||| BitVec.ofNat 32 ((pclk.toNat / ((2 * scl.toNat) % 2 ^ c.arithW)) % 4096)
      else
        (rb.ccr &&& ~~~0xCFFF#32)
          ||| (0x8000#32 ||| (if duty = .high then 0x4000#32 else 0#32)
            ||| BitVec.ofNat 32
              ((pclk.toNat / (((if duty = .high then 25 else 3) * scl.toNat) % 2 ^ c.arithW)) % 4096))
    trise :=
      if scl.toNat ≤ 100000 then BitVec.ofNat 32 ((pclk.toNat / 1000000 + 1) % 64)
      else BitVec.ofNat 32 ((((pclk.toNat * 300) % 2 ^ c.arithW) / 1000000000 + 1) % 64) }

/-- A plan of the reference ENV is weakly fair with every acknowledge draw 1 (43_peripheral_environment.md R146,
70_reset_and_hazards.md R199): the turns it repeats for ever name each of the six steps, and no step of it draws 0. A step that stays
enabled is then taken, since its turn comes again and again. -/
def fair (turns again : List (List EnvStep)) : Bool :=
  [.start, .addr true, .drained, .load, .stop, .shiftDone true].all (fun m => again.any (fun t => t.contains m))
    && (turns ++ again).all (fun t => t.all (fun m => !(m == .addr false || m == .shiftDone false)))

/-- ENV is silent: an agenda with no move left (R146). -/
def silent (p : Periph) : Bool := p.env.sched == .agenda []

/-- The control state of SEQ between two steps (R15, R66, R67, R115, R124, R126): `BUSY` is 1 exactly when `UPC` is not U0; no
response is presented while `BUSY = 1`; `IDX` is 0 up to the loop, below `T_LEN` at U8 and U9, at most `T_LEN` at U7, and equal
to it from U10 on. -/
def controlInv (s : State) : Bool :=
  (s.mtc.busy == !(s.mtc.upc == .u0))
  && (!s.mtc.busy || s.ports.rsp == none)
  && (match s.mtc.upc with
      | .u0 => true
      | .u1 | .u2 | .u3 | .u4 | .u5 | .u6 => s.mtc.idx == 0
      | .u7 => decide (s.mtc.idx.toNat ≤ s.mtc.tLen.toNat)
      | .u8 | .u9 => decide (s.mtc.idx.toNat < s.mtc.tLen.toNat)
      | .u10 | .u11 | .u12 => s.mtc.idx == s.mtc.tLen)

/-- The two-step clear and the phases (R35, R143): `CLR_ARMED` implies a latched `ADDR`, and in the reference ENV's data phase `ADDR`
is 0 (another ENV may set it again). -/
def latchInv (p : Periph) : Bool :=
  (!p.clrArmed || RegValues.flag p.rb .addr)
  && (!(Periph.isRef p && p.env.phase == .data) || !RegValues.flag p.rb .addr)

/-- The slots. Under the reference ENV (R147 to R157, R190): the shift register is busy only in the data phase, the holding slot is
empty before a start and after an acknowledged address, in the data phase `BTF = 1` means that both are empty, and an address byte
is held exactly when a byte is held after a start. Under any other ENV (R24, R144): `TXE = 1` means that the holding slot is empty,
`BTF = 1` that the shift register is, and an address byte said to be in a slot is in a full one. -/
def slotInv (p : Periph) : Bool :=
  if Periph.isRef p then
    (p.env.phase == .data || !p.env.shiftValid)
      && (!(p.env.phase == .idle || p.env.phase == .addrSent) || !p.env.holdValid)
      && (!(p.env.phase == .data && RegValues.flag p.rb .btf) || (!p.env.holdValid && !p.env.shiftValid))
      && (p.env.addrStage == .held) == (p.env.phase == .started && p.env.holdValid)
      && !(p.env.addrStage == .shifting)
  else
    (!RegValues.flag p.rb .txe || !p.env.holdValid)
      && (!RegValues.flag p.rb .btf || !p.env.shiftValid)
      && (!(p.env.addrStage == .held) || p.env.holdValid)
      && (!(p.env.addrStage == .shifting) || p.env.shiftValid)

/-- Whether ENV may set `ADDR` with no further `DR` write (R143): under the reference ENV a byte is in the holding slot, under any
other that still moves an address byte is under way or was acknowledged. -/
def addrUnderway (p : Periph) : Bool :=
  if Periph.isRef p then p.env.holdValid else !(p.env.addrStage == .none) && !silent p

/-- The invariant of the machine: control, latch, slots, and the buffer's canonical form. -/
def inv (s : State) : Bool :=
  controlInv s && latchInv s.per && slotInv s.per && Memory.wf s.buf

/-! ## The access trace of a completed MASTER_SEND (R132) -/

/-- A read of `SR1` that returned `v`. -/
def sr1Read (c : Config) (v : Word) : Access := .regRead (regAddr c .sr1) v

/-- A poll for a flag that succeeded: one or more reads of `SR1`, the last with the flag's bit 1, every earlier one with it 0. -/
def pollTrace (c : Config) (f : Flag) (l : List Access) : Prop :=
  ∃ (vs : List Word) (v : Word), (∀ w ∈ vs, bitAt w f.pos = false) ∧ bitAt v f.pos = true
    ∧ l = vs.map (sr1Read c) ++ [sr1Read c v]

/-- The part of the trace for the buffer bytes `bs` from address `a` on: for each, a poll for `TXE`, the buffer read, the write
of the byte to `DR`. -/
def bytesTrace (c : Config) (a : Word) (bs : List Byte) (l : List Access) : Prop :=
  match bs with
  | [] => l = []
  | b :: rest => ∃ p m, pollTrace c .txe p ∧ bytesTrace c (a + 1) rest m
      ∧ l = p ++ [.bufRead a b, .regWrite (regAddr c .dr) (b.setWidth 32)] ++ m

/-- R132: the access trace of one MASTER_SEND with target `addr` and bytes `bs` at `ptr` that ran to completion.
The `SR1` value of the clearing read still shows the latched `ADDR` (R122). -/
def sendTrace (c : Config) (addr : Addr7) (ptr : Word) (bs : List Byte) (l : List Access) : Prop :=
  ∃ (old old' v d : Word) (pSb pAddr body pTxe pBtf : List Access),
    pollTrace c .sb pSb ∧ pollTrace c .addr pAddr ∧ bytesTrace c ptr bs body
    ∧ pollTrace c .txe pTxe ∧ pollTrace c .btf pBtf ∧ bitAt v Flag.addr.pos = true
    ∧ l = [.regRead (regAddr c .cr1) old, .regWrite (regAddr c .cr1) (old ||| 0x0100#32)]
        ++ pSb ++ [.regWrite (regAddr c .dr) ((addrByte addr).setWidth 32)]
        ++ pAddr ++ [sr1Read c v, .regRead (regAddr c .sr2) d]
        ++ body ++ pTxe ++ pBtf
        ++ [.regRead (regAddr c .cr1) old', .regWrite (regAddr c .cr1) (old' ||| 0x0200#32)]

/-- The `n` bytes of the buffer memory from address `a` on, modulo 2^32 (R34). -/
def bufferBytes (m : Memory) (a : Word) (n : Nat) : List Byte :=
  match n with
  | 0 => []
  | n + 1 => Memory.read m a.toNat :: bufferBytes m (a + 1) n

end Sys2Proof.Safety
end

