-- ==== Sys2Proof/Certificates/Slice0/Obligations.lean ====
section
/-! DEFINITION. The statements for the provers, from the numbered rules of spec/. `exec` is the meaning of one instruction,
`step` one step of the machine; `EnvOnly p q` says that q differs from p at most by what ENV may change (Sys2Proof/Safety.lean). -/

open Sys2Proof Sys2Proof.Machine Sys2Proof.Safety

/-! ## Encodings -/

/-- Every well-formed instruction decodes from its own encoding, whatever its operands (30_encoding.md, sections 3 and 4). -/
def Obligations.DecodeOfEncode : Prop :=
  ∀ i : Instr, i.wf = true → decode (encode i) = .ok i

/-- Every encoded form that decodes at all is the encoding of the instruction it decodes to, which is well-formed: no two words
mean the same instruction and no bit is ignored (30_encoding.md, sections 3 and 4). -/
def Obligations.EncodeOfDecode : Prop :=
  ∀ (e : Encoded) (i : Instr), decode e = .ok i → i.wf = true ∧ encode i = e

/-- R72: a command is legal exactly when `W0` matches one of the seven match and mask pairs, `W1` and `W2` are 0 where R70 says
so, and the selector of HAS_FLAG names a flag (R71). -/
def Obligations.LegalCommandWords : Prop :=
  ∀ c : CmdWords, (∃ i, decodeCommand c = .ok i) ↔
    (c.w0 &&& 0xFFFFFE00#32 = 0x10000000#32
    ∨ (c.w0 &&& 0xFFFFFDFF#32 = 0x20000000#32 ∧ c.w1 = 0 ∧ c.w2 = 0)
    ∨ (c.w0 = 0x30000000#32 ∧ c.w1 = 0 ∧ c.w2 = 0)
    ∨ (c.w0 &&& 0xFFFFC3FF#32 = 0x40000000#32 ∧ c.w1 = 0 ∧ c.w2 = 0
        ∧ (c.w0.extractLsb' 10 4).toNat ∈ [0, 1, 2, 7, 8, 9, 10, 11, 14])
    ∨ (c.w0 = 0x50000000#32 ∧ c.w1 = 0 ∧ c.w2 = 0)
    ∨ c.w0 &&& 0xFFFFFF80#32 = 0x60000000#32
    ∨ (c.w0 &&& 0xFFFFFE00#32 = 0x70000000#32 ∧ c.w1 = 0))

/-- R78: the spec's own encoding examples decode to the commands they stand for, and R74: so do three micro-step codes. -/
def Obligations.SpecExampleWordsDecode : Prop :=
  decode (.cmd ⟨0x10000161, 0x00F42400, 0x000186A0⟩) = .ok (.configure 16000000 100000 .low 0x61 true)
  ∧ decode (.cmd ⟨0x20000200, 0, 0⟩) = .ok (.setEnabled true)
  ∧ decode (.cmd ⟨0x40001C00, 0, 0⟩) = .ok (.hasFlag 7)
  ∧ decode (.cmd ⟨0x60000068, 0x20000000, 2⟩) = .ok (.masterSend 0x68 0x20000000 2)
  ∧ decode (.cmd ⟨0x700001E1, 0, 0x00061A80⟩) = .ok (.initPeripheral 0x61 true 400000 .high)
  ∧ decode (.micro 0b0000) = .ok .seqIdle
  ∧ decode (.micro 0b1001) = .ok .seqDataWrite
  ∧ decode (.micro 0b1100) = .ok .seqStopSet

/-! ## Steps -/

/-- A step runs the decoded instruction: after the host's move (unless it pulses `rst`), a ready MTC accepts the first command on
the port and runs what its words decode to (R66); while a command is in execution the micro-step at `UPC` runs (R74); with no
command offered SEQ_IDLE runs (R117). -/
def Obligations.StepRunsDecodedInstruction : Prop :=
  ∀ s : State, s.cfg.wf = true → rstAsserted s = false →
    (∀ (w : CmdWords) (rest : List CmdWords) (i : Instr),
      (hostTurn s).mtc.busy = false → (hostTurn s).ports.offered = w :: rest →
      decode (.cmd w) = .ok i → step s = exec i (accept w rest (hostTurn s)))
    ∧ (∀ i : Instr, (hostTurn s).mtc.busy = true →
      decode (.micro (hostTurn s).mtc.upc.code) = .ok i → step s = exec i (hostTurn s))
    ∧ ((hostTurn s).mtc.busy = false → (hostTurn s).ports.offered = [] → step s = exec .seqIdle (hostTurn s))

/-- What the host's move before a step does (30_encoding.md, section 2; log 7): nothing, a command offered behind the others, a new
value on `pclk_hz`, a byte of the buffer space. -/
def Obligations.HostMovesLandBeforeTheStep : Prop :=
  ∀ (s : State) (rest : List HostMove),
    (s.ports.host = [] → hostTurn s = s)
    ∧ (s.ports.host = .idle :: rest → hostTurn s = { s with ports := { s.ports with host := rest } })
    ∧ (∀ w, s.ports.host = .offer w :: rest →
      hostTurn s = { s with ports := { s.ports with host := rest, offered := s.ports.offered ++ [w] } })
    ∧ (∀ hz, s.ports.host = .clock hz :: rest →
      hostTurn s = { s with ports := { s.ports with host := rest, pclkHz := hz } })
    ∧ (∀ a b, s.ports.host = .poke a b :: rest →
      hostTurn s = { s with
        ports := { s.ports with host := rest }
        buf := Memory.write s.buf a.toNat b })

/-- R66, R72, R165: a malformed command is latched into `CMD`, performs no access and changes nothing but `BUSY` and `CMD`; the
response has `rsp_status = 1` and `rsp_data = 0`. That it comes from a queue of offered commands is the model's choice (log 7), and
so is that it replaces an earlier response (log 8). -/
def Obligations.IllegalCommandIsAnsweredOnly : Prop :=
  ∀ (s : State) (w : CmdWords) (rest : List CmdWords) (e : DecodeError),
    s.cfg.wf = true → rstAsserted s = false →
    (hostTurn s).mtc.busy = false → (hostTurn s).ports.offered = w :: rest → decode (.cmd w) = .error e →
    step s = .next { hostTurn s with
      mtc := { (hostTurn s).mtc with cmd := w, busy := false }
      ports := { (hostTurn s).ports with offered := rest, rsp := some ⟨true, false⟩ } }

/-- R180: `rst` resets MTC, the RegisterBlock, `CLKEN`, `CLR_ARMED`, ENV and both traces, whatever was going on, and MTC accepts no
command in that step. That the commands offered stay on the port is the model's choice (log 20), and so is that an ENV which is not
the reference one takes the reference one's initial phase and slots (log 29). -/
def Obligations.RstResetsTheSystem : Prop :=
  ∀ (s : State) (rest : List HostMove), s.cfg.wf = true → s.ports.host = .rst :: rest →
    ∃ t, step s = .next t
      ∧ t.mtc.upc = .u0 ∧ t.mtc.busy = false ∧ t.mtc.hValid = false ∧ t.ports.rsp = none
      ∧ cmdReady t = true ∧ t.ports.offered = s.ports.offered
      ∧ t.per.rb = s.cfg.rbReset ∧ t.per.clrArmed = false
      ∧ t.per.env.phase = .idle ∧ t.per.env.holdValid = false ∧ t.per.env.shiftValid = false
      ∧ t.per.env.wire = [] ∧ t.acc = [] ∧ t.cfg = s.cfg

/-- R39: what reset leaves, for every choice of the parameters. -/
def Obligations.ResetValues : Prop :=
  ∀ cfg : Config,
    (State.resetWith cfg).mtc.upc = .u0 ∧ (State.resetWith cfg).mtc.busy = false
    ∧ (State.resetWith cfg).mtc.hValid = false ∧ (State.resetWith cfg).per.clrArmed = false
    ∧ (State.resetWith cfg).per.rb = cfg.rbReset
    ∧ (State.resetWith cfg).per.env.phase = .idle
    ∧ (State.resetWith cfg).per.env.holdValid = false ∧ (State.resetWith cfg).per.env.shiftValid = false
    ∧ (State.resetWith cfg).per.env.wire = [] ∧ (State.resetWith cfg).acc = []

/-! ## Invariants -/

/-- The invariant holds right after reset, for every choice of the parameters. -/
def Obligations.InvariantAtReset : Prop :=
  ∀ cfg : Config, inv (State.resetWith cfg) = true

/-- Every step keeps the control invariant of SEQ, from any state that meets it and under any ENV and host. -/
def Obligations.StepKeepsControlInvariant : Prop :=
  ∀ s t : State, controlInv s = true → step s = .next t → controlInv t = true

/-- Every step keeps the two-step clear's invariant: `CLR_ARMED` only with `ADDR` latched, no latched `ADDR` in the
reference ENV's data phase. -/
def Obligations.StepKeepsLatchInvariant : Prop :=
  ∀ s t : State, latchInv s.per = true → step s = .next t → latchInv t.per = true

/-- Every step keeps the whole invariant: control, latch, ENV's slots (under any ENV), the buffer's canonical form. -/
def Obligations.StepKeepsInvariant : Prop :=
  ∀ s t : State, inv s = true → step s = .next t → inv t = true

/-- R190, R144: under the slot invariant, a stop condition truncates nothing in the reference ENV's data phase with `BTF = 1`, nor
under any other ENV with `TXE = 1` (the holding slot is empty) and `BTF = 1` (the shift register has drained), whatever that ENV
does with its slots. -/
def Obligations.DrainedStopTruncatesNothing : Prop :=
  ∀ (c : Config) (p : Periph), slotInv p = true → RegValues.flag p.rb .btf = true →
    (∀ q, Periph.isRef p = true → p.env.phase = .data → RegValues.stop p.rb = true →
      Periph.refStep c p = some q ∨ (Periph.envEnabled c p = true ∧ q = Periph.envStep c .stop p) →
      q.env.wire = p.env.wire ++ [.stop])
    ∧ (∀ keepHold keepShift clear, Periph.isRef p = false → RegValues.clkgate c p.rb = true →
      RegValues.flag p.rb .txe = true →
      (Periph.applyMove c (.genStop keepHold keepShift clear) p).env.wire = p.env.wire ++ [.stop])

/-! ## Rules about the whole machine -/

/-- No step changes the parameters, and no instruction changes the buffer (10_state.md R34, R38). -/
def Obligations.ParametersAndBufferAreImmutable : Prop :=
  (∀ s t : State, step s = .next t → t.cfg = s.cfg)
  ∧ (∀ (i : Instr) (s t : State), exec i s = .next t → t.buf = s.buf)

/-- R103: once set, `CLKGATE` stays set until reset. -/
def Obligations.ClockGateIsNeverCleared : Prop :=
  ∀ s t : State, rstAsserted s = false → RegValues.clkgate s.cfg s.per.rb = true → step s = .next t →
    RegValues.clkgate t.cfg t.per.rb = true

/-- R21: `OAR2` and `FLTR` keep their value after reset. -/
def Obligations.OpaqueRegistersNeverChange : Prop :=
  ∀ s t : State, rstAsserted s = false → step s = .next t →
    t.per.rb.oar2 = s.per.rb.oar2 ∧ t.per.rb.fltr = s.per.rb.fltr

/-- R10: only CONFIGURE and INITIALIZE write the handle configuration, and each of them writes all of it. -/
def Obligations.HandleWrittenOnlyByConfigure : Prop :=
  (∀ (i : Instr) (s t : State), (∀ pclk scl duty addr ack, i ≠ .configure pclk scl duty addr ack) →
    (∀ addr ack scl duty, i ≠ .initPeripheral addr ack scl duty) → exec i s = .next t →
    t.mtc.hAddr = s.mtc.hAddr ∧ t.mtc.hAck = s.mtc.hAck ∧ t.mtc.hScl = s.mtc.hScl ∧ t.mtc.hDuty = s.mtc.hDuty
      ∧ t.mtc.hValid = s.mtc.hValid)
  ∧ (∀ pclk scl duty addr ack s t, exec (.configure pclk scl duty addr ack) s = .next t →
    t.mtc.hAddr = addr ∧ t.mtc.hAck = ack ∧ t.mtc.hScl = scl ∧ t.mtc.hDuty = duty ∧ t.mtc.hValid = true)
  ∧ (∀ addr ack scl duty s t, exec (.initPeripheral addr ack scl duty) s = .next t →
    t.mtc.hAddr = addr ∧ t.mtc.hAck = ack ∧ t.mtc.hScl = scl ∧ t.mtc.hDuty = duty ∧ t.mtc.hValid = true)

/-- 10_state.md R18 and R142: `START` rises only in SEQ_START_SET and `STOP` only in SEQ_STOP_SET, under any ENV. -/
def Obligations.RequestsRiseOnlyInTheirMicroSteps : Prop :=
  ∀ (i : Instr) (s t : State), exec i s = .next t →
    (RegValues.start s.per.rb = false → RegValues.start t.per.rb = true → i = .seqStartSet)
    ∧ (RegValues.stop s.per.rb = false → RegValues.stop t.per.rb = true → i = .seqStopSet)

/-- R35, R143, R157: a latched `ADDR` is cleared only by an instruction that reads `SR2`, or by disabling the reference ENV (a
SET_ENABLED(0) with `PE = 1`); under any other ENV by a read of `SR2` alone. -/
def Obligations.AddrLatchedUntilClearingRead : Prop :=
  ∀ (i : Instr) (s t : State), exec i s = .next t → RegValues.flag s.per.rb .addr = true →
    RegValues.flag t.per.rb .addr = false →
    i = .clearAddr ∨ i = .seqClrSr2
      ∨ (i = .setEnabled false ∧ Periph.isRef s.per = true ∧ RegValues.pe s.per.rb = true)

/-- 10_state.md R37: no instruction removes or alters an entry of `ACC` or an event of `WIRE`. -/
def Obligations.TracesOnlyGrow : Prop :=
  ∀ (i : Instr) (s t : State), exec i s = .next t →
    (∃ l, t.acc = s.acc ++ l) ∧ (∃ es, t.per.env.wire = s.per.env.wire ++ es)

/-- 10_state.md R26: with an ENV that does not move, no instruction changes a flag but by the accesses to `SR2` and `DR`: `ADDR` by
the clearing read, `TXE` by a data write. -/
def Obligations.FlagsChangeOnlyByAccesses : Prop :=
  ∀ (i : Instr) (s t : State) (f : Flag), silent s.per = true → exec i s = .next t →
    RegValues.flag t.per.rb f ≠ RegValues.flag s.per.rb f →
    (f = .addr ∧ (i = .clearAddr ∨ i = .seqClrSr2)) ∨ (f = .txe ∧ (i = .seqDataWrite ∨ i = .seqAddrWrite))

/-- R59: while `CLKGATE = 0`, every instruction that accesses the RegisterBlock is refused. -/
def Obligations.UnclockedAccessIsRefused : Prop :=
  ∀ (s : State) (i : Instr), RegValues.clkgate s.cfg s.per.rb = false → i.wf = true →
    i ≠ .clockGateEnable → (∀ addr ack scl duty, i ≠ .initPeripheral addr ack scl duty) →
    (∀ addr ptr len, i ≠ .masterSend addr ptr len) → i ≠ .seqIdle → i ≠ .seqLoopTest →
    exec i s = .refused .registerBlockUnclocked

/-- R41: a configuration with a misaligned base address is refused. -/
def Obligations.MisalignedConfigIsRefused : Prop :=
  ∀ s : State, (s.cfg.i2cBase.toNat % 4 ≠ 0 ∨ s.cfg.clkenAddr.toNat % 4 ≠ 0) →
    step s = .refused .misalignedConfig

/-- 10_state.md R16: the protocol state and its code as a function of `UPC`. -/
def Obligations.ProtocolStateCodes : Prop :=
  (∀ u, u ∈ [Upc.u0, .u1, .u2] → seqState u = .idle)
  ∧ (∀ u, u ∈ [Upc.u3, .u4, .u5, .u6] → seqState u = .startSent)
  ∧ (∀ u, u ∈ [Upc.u7, .u8, .u9] → seqState u = .addressAcked)
  ∧ (∀ u, u ∈ [Upc.u10, .u11] → seqState u = .transmitting)
  ∧ seqState .u12 = .awaitingDrainAndStop
  ∧ seqStateCode .idle = 0 ∧ seqStateCode .startSent = 1 ∧ seqStateCode .addressAcked = 2
  ∧ seqStateCode .transmitting = 3 ∧ seqStateCode .awaitingDrainAndStop = 4

/-- The buffer memory (20_memory.md, section 2; log 6): a byte put reads as put, every other byte reads as before, and two canonical
memories that read the same everywhere are the same data. -/
def Obligations.BufferMemoryReadsWhatWasPut : Prop :=
  (∀ (m : Memory) (a b : Nat) (v : Byte), Memory.wf m = true →
    Memory.read (Memory.write m a v) a = v
    ∧ (b ≠ a → Memory.read (Memory.write m a v) b = Memory.read m b))
  ∧ (∀ m n : Memory, Memory.wf m = true → Memory.wf n = true →
    (∀ a, Memory.read m a = Memory.read n a) → m = n)

/-! ## Commands -/

/-- SET_ENABLED (R100): `PE` takes the operand, every other bit of `CR1` is written back as read; two accesses, response 0. When
the reference ENV is not disabled by it, everything else differs at most by what ENV may change. -/
def Obligations.SetEnabledWritesPeOnly : Prop :=
  ∀ (en : Bool) (s : State), RegValues.clkgate s.cfg s.per.rb = true →
    ∃ t, exec (.setEnabled en) s = .next t
      ∧ t.cfg = s.cfg ∧ t.buf = s.buf
      ∧ t.mtc = { s.mtc with tmp := s.per.rb.cr1, busy := false }
      ∧ t.ports = { s.ports with rsp := some ⟨false, false⟩ }
      ∧ t.acc = s.acc ++ [.regRead (regAddr s.cfg .cr1) s.per.rb.cr1,
          .regWrite (regAddr s.cfg .cr1) ((s.per.rb.cr1 &&& ~~~0x0001#32) ||| (if en then 0x0001#32 else 0#32))]
      ∧ RegValues.pe t.per.rb = en
      ∧ (en = true ∨ RegValues.pe s.per.rb = false ∨ Periph.isRef s.per = false →
          EnvOnly { s.per with
            rb := { s.per.rb with
              cr1 := (s.per.rb.cr1 &&& ~~~0x0001#32) ||| (if en then 0x0001#32 else 0#32) }
            clrArmed := false } t.per)

/-- R157: SET_ENABLED(0) with `PE = 1` resets the reference ENV: phase idle, slots empty, `SB`, `ADDR`, `BTF`, `TXE` cleared;
`START` and `STOP` are written back as read, an error flag that is set stays set, no storage register changes, `WIRE` is kept. -/
def Obligations.DisableResetsReferenceEnv : Prop :=
  ∀ s : State, RegValues.clkgate s.cfg s.per.rb = true → Periph.isRef s.per = true → RegValues.pe s.per.rb = true →
    ∃ t, exec (.setEnabled false) s = .next t
      ∧ t.per.env.phase = .idle ∧ t.per.env.holdValid = false ∧ t.per.env.shiftValid = false
      ∧ RegValues.flag t.per.rb .sb = false ∧ RegValues.flag t.per.rb .addr = false
      ∧ RegValues.flag t.per.rb .btf = false ∧ RegValues.flag t.per.rb .txe = false
      ∧ (∀ f, f ∈ [Flag.berr, .arlo, .af, .ovr, .timeout] → RegValues.flag s.per.rb f = true →
          RegValues.flag t.per.rb f = true)
      ∧ t.per.rb.cr1 = s.per.rb.cr1 &&& ~~~0x0001#32
      ∧ t.per.rb.cr2 = s.per.rb.cr2 ∧ t.per.rb.oar1 = s.per.rb.oar1 ∧ t.per.rb.oar2 = s.per.rb.oar2
      ∧ t.per.rb.dr = s.per.rb.dr ∧ t.per.rb.sr2 = s.per.rb.sr2 ∧ t.per.rb.ccr = s.per.rb.ccr
      ∧ t.per.rb.trise = s.per.rb.trise ∧ t.per.rb.fltr = s.per.rb.fltr ∧ t.per.rb.clken = s.per.rb.clken
      ∧ t.per.clrArmed = false ∧ (∃ es, t.per.env.wire = s.per.env.wire ++ es)

/-- CLOCK_GATE_ENABLE (R102): `CLKGATE`, the bit `POS_CLKGATE` of `CLKEN`, is set, every other bit of `CLKEN` is kept; two
accesses, response 0; never refused. -/
def Obligations.ClockGateEnableSetsOneBit : Prop :=
  ∀ s : State, ∃ t, exec .clockGateEnable s = .next t
    ∧ t.cfg = s.cfg ∧ t.buf = s.buf
    ∧ t.mtc = { s.mtc with tmp := s.per.rb.clken, busy := false }
    ∧ t.ports = { s.ports with rsp := some ⟨false, false⟩ }
    ∧ t.acc = s.acc ++ [.regRead s.cfg.clkenAddr s.per.rb.clken,
        .regWrite s.cfg.clkenAddr (s.per.rb.clken ||| (1#32 <<< s.cfg.posClkgate.val))]
    ∧ EnvOnly { s.per with rb := { s.per.rb with clken := s.per.rb.clken ||| (1#32 <<< s.cfg.posClkgate.val) } } t.per

/-- HAS_FLAG (R105): one read of `SR1`; the response carries the selected bit of the value read; the read arms the two-step clear
exactly when `ADDR` is 1. That a HAS_FLAG term whose selector names no flag, which no decoding yields, answers as R72 has the word
answered, as an illegal command, and does nothing else, is the model's choice (log 18). -/
def Obligations.HasFlagAnswersTheBit : Prop :=
  ∀ (sel : BitVec 4) (s : State),
    (selectorNamed sel = true → RegValues.clkgate s.cfg s.per.rb = true →
      ∃ t, exec (.hasFlag sel) s = .next t
        ∧ t.cfg = s.cfg ∧ t.buf = s.buf
        ∧ t.mtc = { s.mtc with result := bitAt s.per.rb.sr1 sel.toNat, busy := false }
        ∧ t.ports = { s.ports with rsp := some ⟨false, bitAt s.per.rb.sr1 sel.toNat⟩ }
        ∧ t.acc = s.acc ++ [.regRead (regAddr s.cfg .sr1) s.per.rb.sr1]
        ∧ EnvOnly { s.per with clrArmed := bitAt s.per.rb.sr1 1 } t.per)
    ∧ (selectorNamed sel = false →
      exec (.hasFlag sel) s = .next { s with
        mtc := { s.mtc with busy := false }
        ports := { s.ports with rsp := some ⟨true, false⟩ } })

/-- CLEAR_ADDR (R108): the two reads back to back. `CLR_ARMED` is 0 afterwards. When ENV may not set `ADDR` again by itself it is 0
afterwards; no storage register changes. The value read from `SR2` is 0 under the two schedulers of R158. -/
def Obligations.ClearAddrClearsTheLatch : Prop :=
  ∀ s : State, RegValues.clkgate s.cfg s.per.rb = true →
    ∃ t v, exec .clearAddr s = .next t
      ∧ t.cfg = s.cfg ∧ t.buf = s.buf
      ∧ t.mtc = { s.mtc with busy := false }
      ∧ t.ports = { s.ports with rsp := some ⟨false, false⟩ }
      ∧ t.acc = s.acc ++ [.regRead (regAddr s.cfg .sr1) s.per.rb.sr1, .regRead (regAddr s.cfg .sr2) v]
      ∧ (Periph.isScheduled s.per = true → v = 0)
      ∧ t.per.clrArmed = false
      ∧ (addrUnderway s.per = false → RegValues.flag s.per.rb .addr = true →
          RegValues.flag t.per.rb .addr = false)
      ∧ (RegValues.flag s.per.rb .addr = false →
          EnvOnly { s.per with rb := { s.per.rb with sr2 := v }, clrArmed := false } t.per)
      ∧ EnvOnly { s.per with
          rb := { RegValues.setFlag s.per.rb .addr false with sr2 := v }
          clrArmed := false } t.per

/-- CONFIGURE (R80): it latches its operands, writes the five registers with the fields of R83 to R90 (`configured`, in
Sys2Proof/Safety.lean), sets `H_VALID` and answers 0, for every operand value. Everything else differs at most by what ENV may
change. -/
def Obligations.ConfigureWritesItsFields : Prop :=
  ∀ (pclk scl : Word) (duty : Duty) (addr : Addr7) (ack : Bool) (s : State),
    RegValues.clkgate s.cfg s.per.rb = true →
    ∃ t, exec (.configure pclk scl duty addr ack) s = .next t
      ∧ t.cfg = s.cfg ∧ t.buf = s.buf
      ∧ t.mtc = { s.mtc with
          pclk := pclk, hScl := scl, hDuty := duty, hAddr := addr, hAck := ack, hValid := true
          tmp := s.per.rb.ccr, busy := false }
      ∧ t.ports = { s.ports with rsp := some ⟨false, false⟩ }
      ∧ EnvOnly { s.per with
          rb := configured s.cfg pclk scl duty addr ack s.per.rb
          clrArmed := false } t.per

/-- R91: the eight accesses of CONFIGURE, always these and in this order, for every ENV: three read-modify-writes that read what the
register held when the command started and keep the bits the command does not own, two straight writes. The values written are
those of `configured` (Sys2Proof/Safety.lean), each register's own. -/
def Obligations.ConfigureAccessTrace : Prop :=
  ∀ (pclk scl : Word) (duty : Duty) (addr : Addr7) (ack : Bool) (s t : State),
    exec (.configure pclk scl duty addr ack) s = .next t →
      t.acc = s.acc ++ [
        .regRead (regAddr s.cfg .cr1) s.per.rb.cr1,
        .regWrite (regAddr s.cfg .cr1) (configured s.cfg pclk scl duty addr ack s.per.rb).cr1,
        .regRead (regAddr s.cfg .cr2) s.per.rb.cr2,
        .regWrite (regAddr s.cfg .cr2) (configured s.cfg pclk scl duty addr ack s.per.rb).cr2,
        .regWrite (regAddr s.cfg .oar1) (configured s.cfg pclk scl duty addr ack s.per.rb).oar1,
        .regRead (regAddr s.cfg .ccr) s.per.rb.ccr,
        .regWrite (regAddr s.cfg .ccr) (configured s.cfg pclk scl duty addr ack s.per.rb).ccr,
        .regWrite (regAddr s.cfg .trise) (configured s.cfg pclk scl duty addr ack s.per.rb).trise]

/-- R94: the source's testable properties of the configurator, with exact arithmetic (`ARITH_W = 64`), as numbers read from the
registers CONFIGURE leaves. -/
def Obligations.ConfiguratorProperties : Prop :=
  ∀ (pclk scl : Word) (duty : Duty) (addr : Addr7) (ack : Bool) (s t : State),
    s.cfg.arithW = 64 → exec (.configure pclk scl duty addr ack) s = .next t →
    (scl.toNat ≤ 100000 → t.per.rb.ccr.toNat % 4096 = (pclk.toNat / (2 * scl.toNat)) % 4096
      ∧ bitAt t.per.rb.ccr 15 = false ∧ bitAt t.per.rb.ccr 14 = bitAt s.per.rb.ccr 14
      ∧ t.per.rb.trise.toNat = (pclk.toNat / 1000000 + 1) % 64)
    ∧ (100000 < scl.toNat → duty = .low → t.per.rb.ccr.toNat % 4096 = (pclk.toNat / (3 * scl.toNat)) % 4096
      ∧ bitAt t.per.rb.ccr 14 = false)
    ∧ (100000 < scl.toNat → duty = .high → t.per.rb.ccr.toNat % 4096 = (pclk.toNat / (25 * scl.toNat)) % 4096
      ∧ bitAt t.per.rb.ccr 14 = true)
    ∧ (100000 < scl.toNat → bitAt t.per.rb.ccr 15 = true
      ∧ t.per.rb.trise.toNat = (pclk.toNat * 300 / 1000000000 + 1) % 64)
    ∧ t.per.rb.oar1.toNat = addr.toNat * 2 + 0x4000
    ∧ (∀ n, n ≠ 8 → n ≠ 9 → n ≠ 10 → bitAt t.per.rb.cr1 n = bitAt s.per.rb.cr1 n)
    ∧ bitAt t.per.rb.cr1 10 = ack

/-- R93: a second, identical CONFIGURE leaves every register the first one wrote as it is, but for the bits of `CR1` that are
ENV's to change. -/
def Obligations.ConfigureIsIdempotent : Prop :=
  ∀ (pclk scl : Word) (duty : Duty) (addr : Addr7) (ack : Bool) (s t : State),
    exec (.configure pclk scl duty addr ack) s = .next t →
    ∃ u, exec (.configure pclk scl duty addr ack) t = .next u
      ∧ u.per.rb.cr2 = t.per.rb.cr2 ∧ u.per.rb.oar1 = t.per.rb.oar1 ∧ u.per.rb.ccr = t.per.rb.ccr
      ∧ u.per.rb.trise = t.per.rb.trise
      ∧ (∀ n, n ≠ 8 → n ≠ 9 → bitAt u.per.rb.cr1 n = bitAt t.per.rb.cr1 n)

/-- INITIALIZE (R110): never refused; the twelve accesses in their order; `CLKGATE` and `PE` set, the five registers of CONFIGURE
written with `pclk_hz` as the clock; one response. The values read from `CR1` are those it held, but for the bits ENV may change. -/
def Obligations.InitializeEnablesAndConfigures : Prop :=
  ∀ (addr : Addr7) (ack : Bool) (scl : Word) (duty : Duty) (s : State),
    ∃ t, exec (.initPeripheral addr ack scl duty) s = .next t
      ∧ t.cfg = s.cfg ∧ t.buf = s.buf
      ∧ t.mtc = { s.mtc with
          pclk := s.ports.pclkHz, hScl := scl, hDuty := duty, hAddr := addr, hAck := ack, hValid := true
          tmp := s.per.rb.ccr, busy := false }
      ∧ t.ports = { s.ports with rsp := some ⟨false, false⟩ }
      ∧ (∃ v w : Word,
          t.acc = s.acc ++ [
            .regRead s.cfg.clkenAddr s.per.rb.clken,
            .regWrite s.cfg.clkenAddr (s.per.rb.clken ||| (1#32 <<< s.cfg.posClkgate.val)),
            .regRead (regAddr s.cfg .cr1) v,
            .regWrite (regAddr s.cfg .cr1) (v ||| 0x0001#32),
            .regRead (regAddr s.cfg .cr1) w,
            .regWrite (regAddr s.cfg .cr1) ((w &&& ~~~0x0400#32) ||| (if ack then 0x0400#32 else 0#32)),
            .regRead (regAddr s.cfg .cr2) s.per.rb.cr2,
            .regWrite (regAddr s.cfg .cr2) t.per.rb.cr2,
            .regWrite (regAddr s.cfg .oar1) t.per.rb.oar1,
            .regRead (regAddr s.cfg .ccr) s.per.rb.ccr,
            .regWrite (regAddr s.cfg .ccr) t.per.rb.ccr,
            .regWrite (regAddr s.cfg .trise) t.per.rb.trise]
          ∧ (∀ n, n ≠ 8 → n ≠ 9 → bitAt v n = bitAt s.per.rb.cr1 n)
          ∧ (∀ n, n ≠ 8 → n ≠ 9 → bitAt w n = bitAt (v ||| 0x0001#32) n))
      ∧ EnvOnly { s.per with
          rb := configured s.cfg s.ports.pclkHz scl duty addr ack
            { s.per.rb with
              clken := s.per.rb.clken ||| (1#32 <<< s.cfg.posClkgate.val)
              cr1 := s.per.rb.cr1 ||| 0x0001#32 }
          clrArmed := false } t.per

/-- R77: INITIALIZE is exactly CLOCK_GATE_ENABLE, SET_ENABLED(1) and CONFIGURE with `pclk_hz`, one after another. -/
def Obligations.InitializeIsItsExpansion : Prop :=
  ∀ (addr : Addr7) (ack : Bool) (scl : Word) (duty : Duty) (s : State),
    ∃ a b, exec .clockGateEnable s = .next a ∧ exec (.setEnabled true) a = .next b
      ∧ exec (.initPeripheral addr ack scl duty) s = exec (.configure b.ports.pclkHz scl duty addr ack) b

/-- MASTER_SEND (R115): it latches the transfer registers, clears `IDX` and goes to U1; no access, no response. A buffer range
that meets `REGSPACE` is refused instead (10_state.md R32, X11), which at acceptance is the model's choice (log 14); a zero length
never meets it (R131). That it is accepted with `CLKGATE = 0` as well, and the run refused at the first access, that of U1, is the
model's reading of R59 (log 13). -/
def Obligations.MasterSendStartsTheSequencer : Prop :=
  ∀ (addr : Addr7) (ptr len : Word) (s : State),
    (∀ k, k < 40 → len.toNat ≤ (s.cfg.i2cBase + BitVec.ofNat 32 k - ptr).toNat) →
    (∀ k, k < 4 → len.toNat ≤ (s.cfg.clkenAddr + BitVec.ofNat 32 k - ptr).toNat) →
    exec (.masterSend addr ptr len) s = .next { s with
      mtc := { s.mtc with tAddr := addr, tPtr := ptr, tLen := len, idx := 0, upc := .u1 } }

/-- 10_state.md R32: a MASTER_SEND whose buffer range meets a word of `REGSPACE` is refused. -/
def Obligations.AliasingBufferIsRefused : Prop :=
  ∀ (addr : Addr7) (ptr len : Word) (s : State),
    (∃ k, k < 40 ∧ (s.cfg.i2cBase + BitVec.ofNat 32 k - ptr).toNat < len.toNat)
      ∨ (∃ k, k < 4 ∧ (s.cfg.clkenAddr + BitVec.ofNat 32 k - ptr).toNat < len.toNat) →
    exec (.masterSend addr ptr len) s = .refused .bufferAliasesRegisters

/-! ## Micro-steps -/

/-- SEQ_IDLE (R117) makes no access and stays; SEQ_LOOP_TEST (R124) makes no access and goes to U8 or U10. Both leave everything
else as it is, but for what ENV may change. The two schedulers of R158 move after accesses only, so ENV does nothing then under them;
that ENV under any other schedule has a turn in such a step is the model's choice (log 23). -/
def Obligations.StepsWithoutAccess : Prop :=
  ∀ s : State,
    (∃ t, exec .seqIdle s = .next t ∧ t = { s with per := t.per } ∧ EnvOnly s.per t.per
      ∧ (Periph.isScheduled s.per = true → t.per = s.per))
    ∧ (∃ t, exec .seqLoopTest s = .next t
      ∧ t = { s with
          per := t.per
          mtc := { s.mtc with upc := if s.mtc.idx.toNat < s.mtc.tLen.toNat then .u8 else .u10 } }
      ∧ EnvOnly s.per t.per
      ∧ (Periph.isScheduled s.per = true → t.per = s.per))

/-- SEQ_START_SET (R118): `START` is set by a read-modify-write that writes every other bit back as read, `UPC` goes to U2. -/
def Obligations.StartSetRequestsAStart : Prop :=
  ∀ s : State, RegValues.clkgate s.cfg s.per.rb = true →
    ∃ t, exec .seqStartSet s = .next t
      ∧ t.cfg = s.cfg ∧ t.buf = s.buf ∧ t.ports = s.ports
      ∧ t.mtc = { s.mtc with tmp := s.per.rb.cr1, upc := .u2 }
      ∧ t.acc = s.acc ++ [.regRead (regAddr s.cfg .cr1) s.per.rb.cr1,
          .regWrite (regAddr s.cfg .cr1) (s.per.rb.cr1 ||| 0x0100#32)]
      ∧ EnvOnly { s.per with
          rb := { s.per.rb with cr1 := s.per.rb.cr1 ||| 0x0100#32 }, clrArmed := false } t.per

/-- SEQ_STOP_SET (R129): `STOP` is set by a read-modify-write, MASTER_SEND responds 0 and `UPC` returns to U0. -/
def Obligations.StopSetRequestsAStopAndResponds : Prop :=
  ∀ s : State, RegValues.clkgate s.cfg s.per.rb = true →
    ∃ t, exec .seqStopSet s = .next t
      ∧ t.cfg = s.cfg ∧ t.buf = s.buf
      ∧ t.ports = { s.ports with rsp := some ⟨false, false⟩ }
      ∧ t.mtc = { s.mtc with tmp := s.per.rb.cr1, upc := .u0, busy := false }
      ∧ t.acc = s.acc ++ [.regRead (regAddr s.cfg .cr1) s.per.rb.cr1,
          .regWrite (regAddr s.cfg .cr1) (s.per.rb.cr1 ||| 0x0200#32)]
      ∧ EnvOnly { s.per with
          rb := { s.per.rb with cr1 := s.per.rb.cr1 ||| 0x0200#32 }, clrArmed := false } t.per

/-- The five polls (R119, R121, R125, R127, R128): one read of `SR1`; on to the next micro-step when the flag's bit of the value
read is 1, else the same micro-step again. The read arms the two-step clear exactly when `ADDR` is 1. -/
def Obligations.PollsTestOneBit : Prop :=
  ∀ (s : State) (i : Instr) (n : Nat) (here next : Upc), RegValues.clkgate s.cfg s.per.rb = true →
    (i, n, here, next) ∈ [(Instr.seqWaitSb, 0, Upc.u2, Upc.u3), (.seqWaitAddr, 1, .u4, .u5),
      (.seqWaitTxe, 7, .u8, .u9), (.seqDrainTxe, 7, .u10, .u11), (.seqWaitBtf, 2, .u11, .u12)] →
    ∃ t, exec i s = .next t
      ∧ t.cfg = s.cfg ∧ t.buf = s.buf ∧ t.ports = s.ports
      ∧ t.mtc = { s.mtc with upc := if bitAt s.per.rb.sr1 n then next else here }
      ∧ t.acc = s.acc ++ [.regRead (regAddr s.cfg .sr1) s.per.rb.sr1]
      ∧ EnvOnly { s.per with clrArmed := bitAt s.per.rb.sr1 1 } t.per

/-- SEQ_ADDR_WRITE (R120): the address byte, direction bit 0, zero-extended, to `DR`; `UPC` goes to U4. It completes under the
reference ENV in every state, and under any other ENV in the address phase with the holding slot empty, or afterwards, up to the
end of the data phase, with `TXE = 1` (log 11). -/
def Obligations.AddrWriteSendsTheAddressByte : Prop :=
  ∀ s : State, RegValues.clkgate s.cfg s.per.rb = true →
    Periph.isRef s.per = true ∨ (s.per.env.phase = .started ∧ s.per.env.holdValid = false)
      ∨ ((s.per.env.phase = .data ∨ s.per.env.phase = .addrSent) ∧ RegValues.flag s.per.rb .txe = true) →
    ∃ t, exec .seqAddrWrite s = .next t
      ∧ t.cfg = s.cfg ∧ t.buf = s.buf ∧ t.ports = s.ports
      ∧ t.mtc = { s.mtc with upc := .u4 }
      ∧ t.acc = s.acc ++ [.regWrite (regAddr s.cfg .dr) (BitVec.ofNat 32 (s.mtc.tAddr.toNat * 2))]
      ∧ EnvOnly { s.per with clrArmed := false } t.per

/-- SEQ_DATA_WRITE (R126): buffer byte `IDX` is read at `(T_PTR + IDX) mod 2^32` and written, zero-extended, to `DR`; `IDX` is
incremented and `UPC` goes to U7. It completes under the reference ENV in every state, and under any other ENV wherever ENV's turn
after the buffer read leaves a state in which a rule gives the write's effect. -/
def Obligations.DataWriteSendsTheNextByte : Prop :=
  ∀ s : State, RegValues.clkgate s.cfg s.per.rb = true →
    Periph.isRef s.per = true ∨ Periph.drWriteDescribed (Periph.turn s.cfg .buffer s.per) = true →
    ∃ t, exec .seqDataWrite s = .next t
      ∧ t.cfg = s.cfg ∧ t.buf = s.buf ∧ t.ports = s.ports
      ∧ t.mtc = { s.mtc with idx := s.mtc.idx + 1, upc := .u7 }
      ∧ t.acc = s.acc ++ [
          .bufRead (s.mtc.tPtr + s.mtc.idx) (Memory.read s.buf (s.mtc.tPtr + s.mtc.idx).toNat),
          .regWrite (regAddr s.cfg .dr)
            (BitVec.ofNat 32 (Memory.read s.buf (s.mtc.tPtr + s.mtc.idx).toNat).toNat)]
      ∧ EnvOnly { s.per with clrArmed := false } t.per

/-- The model's refusal of a `DR` write whose effect no rule gives (X6, log 11): under an ENV that is not the reference one, outside
the address phase with the holding slot empty and the time from its end to that of the data phase with `TXE = 1`. -/
def Obligations.UndescribedDrWriteIsRefused : Prop :=
  ∀ s : State, RegValues.clkgate s.cfg s.per.rb = true → Periph.isRef s.per = false →
    (s.per.env.phase ≠ .started ∨ s.per.env.holdValid = true →
      (s.per.env.phase ≠ .data ∧ s.per.env.phase ≠ .addrSent) ∨ RegValues.flag s.per.rb .txe = false →
      exec .seqAddrWrite s = .refused .drWriteUndescribed)
    ∧ (Periph.drWriteDescribed (Periph.turn s.cfg .buffer s.per) = false →
      exec .seqDataWrite s = .refused .drWriteUndescribed)

/-- SEQ_CLR_SR1 (R122) and SEQ_CLR_SR2 (R123): one read each, value discarded. The first arms the two-step clear when `ADDR` is
latched; the second, when armed, clears `ADDR` (for good when ENV may not set it again by itself) and always disarms; the value it reads
is 0 under the two schedulers of R158. -/
def Obligations.ClearingReadsOfTheSequencer : Prop :=
  ∀ s : State, RegValues.clkgate s.cfg s.per.rb = true →
    (∃ t, exec .seqClrSr1 s = .next t
      ∧ t.cfg = s.cfg ∧ t.buf = s.buf ∧ t.ports = s.ports
      ∧ t.mtc = { s.mtc with upc := .u6 }
      ∧ t.acc = s.acc ++ [.regRead (regAddr s.cfg .sr1) s.per.rb.sr1]
      ∧ EnvOnly { s.per with clrArmed := bitAt s.per.rb.sr1 1 } t.per)
    ∧ (∃ t v, exec .seqClrSr2 s = .next t
      ∧ t.cfg = s.cfg ∧ t.buf = s.buf ∧ t.ports = s.ports
      ∧ t.mtc = { s.mtc with upc := .u7 }
      ∧ t.acc = s.acc ++ [.regRead (regAddr s.cfg .sr2) v]
      ∧ (Periph.isScheduled s.per = true → v = 0)
      ∧ (s.per.clrArmed = true → addrUnderway s.per = false → RegValues.flag t.per.rb .addr = false)
      ∧ EnvOnly { s.per with
          rb := { (if s.per.clrArmed then RegValues.setFlag s.per.rb .addr false else s.per.rb) with sr2 := v }
          clrArmed := false } t.per)

/-! ## ENV -/

/-- R141, R18 and R28 to R30: a register changes only by the instruction that owns it, whatever ENV is behind it: `CR2`, `OAR1`,
`CCR`, `TRISE` and `CR1.ACK` by CONFIGURE and INITIALIZE, `CR1.PE` by SET_ENABLED and INITIALIZE, `CLKEN` by CLOCK_GATE_ENABLE and
INITIALIZE and there only in its bit `POS_CLKGATE`; no unnamed bit of `CR1` ever changes. -/
def Obligations.RegistersChangeOnlyByTheirOwners : Prop :=
  ∀ (i : Instr) (s t : State), exec i s = .next t →
    ((∀ pclk scl duty addr ack, i ≠ .configure pclk scl duty addr ack) →
      (∀ addr ack scl duty, i ≠ .initPeripheral addr ack scl duty) →
      t.per.rb.cr2 = s.per.rb.cr2 ∧ t.per.rb.oar1 = s.per.rb.oar1 ∧ t.per.rb.ccr = s.per.rb.ccr
        ∧ t.per.rb.trise = s.per.rb.trise ∧ bitAt t.per.rb.cr1 10 = bitAt s.per.rb.cr1 10)
    ∧ ((∀ en, i ≠ .setEnabled en) → (∀ addr ack scl duty, i ≠ .initPeripheral addr ack scl duty) →
      bitAt t.per.rb.cr1 0 = bitAt s.per.rb.cr1 0)
    ∧ (i ≠ .clockGateEnable → (∀ addr ack scl duty, i ≠ .initPeripheral addr ack scl duty) →
      t.per.rb.clken = s.per.rb.clken)
    ∧ (∀ n, n ≠ s.cfg.posClkgate.val → bitAt t.per.rb.clken n = bitAt s.per.rb.clken n)
    ∧ (∀ n, n ≠ 0 → n ≠ 8 → n ≠ 9 → n ≠ 10 → bitAt t.per.rb.cr1 n = bitAt s.per.rb.cr1 n)
    ∧ t.per.rb.oar2 = s.per.rb.oar2 ∧ t.per.rb.fltr = s.per.rb.fltr ∧ t.per.rb.dr = s.per.rb.dr

/-- R142: in one step of the reference ENV, whichever is taken, or one move of any other, `START` falls only together with `SB` set and a start
condition on the wire, and `STOP` falls only together with a stop condition on the wire. -/
def Obligations.RequestsFallOnlyWhenServed : Prop :=
  ∀ (c : Config) (p q : Periph),
    (Periph.refStep c p = some q ∨ (∃ m, q = Periph.envStep c m p) ∨ ∃ m, q = Periph.applyMove c m p) →
    (RegValues.start p.rb = true → RegValues.start q.rb = false →
      RegValues.flag q.rb .sb = true ∧ q.env.wire = p.env.wire ++ [.start])
    ∧ (RegValues.stop p.rb = true → RegValues.stop q.rb = false →
      q.env.wire = p.env.wire ++ [.stop] ∨ q.env.wire = p.env.wire ++ [.stopTrunc])

/-- R143, R22. The reference ENV sets `ADDR` only by putting on the wire, acknowledged, the byte written after a start condition. Any other
ENV sets it only for an address byte that was acknowledged, at that moment or later: a byte becomes an address byte only by a `DR`
write in the address phase, goes to the shift register only from the holding slot, and counts as acknowledged only by appearing so
on the wire. Under either the address phase begins only with a start condition on the wire. -/
def Obligations.AddrRisesOnlyByAcknowledge : Prop :=
  ∀ (c : Config) (p q : Periph),
    (Periph.refStep c p = some q ∨ (∃ m, q = Periph.envStep c m p) → RegValues.flag p.rb .addr = false →
      RegValues.flag q.rb .addr = true →
      p.env.phase = .started ∧ p.env.holdValid = true ∧ q.env.wire = p.env.wire ++ [.byte p.env.hold true])
    ∧ (∀ m, q = Periph.applyMove c m p →
      (RegValues.flag p.rb .addr = false → RegValues.flag q.rb .addr = true → p.env.addrStage = .acked)
      ∧ (p.env.addrStage ≠ .acked → q.env.addrStage = .acked →
        (p.env.addrStage = .held ∧ p.env.holdValid = true ∧ q.env.wire = p.env.wire ++ [.byte p.env.hold true])
        ∨ (p.env.addrStage = .shifting ∧ p.env.shiftValid = true
          ∧ q.env.wire = p.env.wire ++ [.byte p.env.shift true]))
      ∧ (p.env.addrStage ≠ .shifting → q.env.addrStage = .shifting →
        p.env.addrStage = .held ∧ p.env.holdValid = true ∧ q.env.shift = p.env.hold)
      ∧ (p.env.addrStage ≠ .held → q.env.addrStage ≠ .held))
    ∧ (∀ r v, q = writeEffect r v p → p.env.addrStage ≠ .held → q.env.addrStage = .held →
      r = .dr ∧ p.env.phase = .started ∧ q.env.hold = v.setWidth 8 ∧ q.env.holdValid = true)
    ∧ (Periph.refStep c p = some q ∨ (∃ m, q = Periph.envStep c m p) ∨ (∃ m, q = Periph.applyMove c m p) →
      p.env.phase ≠ .started → q.env.phase = .started → q.env.wire = p.env.wire ++ [.start])

/-- The six steps of the reference ENV, each with its own precondition and its effect, whichever of them is taken (R149, R151, R153,
R154, R155, R156), in a state in which ENV is enabled (R148); and the one that R158 picks: the first enabled one in its priority order,
none when none is enabled. That `E_START` may be taken in `P_IDLE` while `STOP = 1` as well is the model's choice (log 35). That the
acknowledge draws of the two schedulers come from a list, and are 1 once it is used up, is the
model's choice (log 12). -/
def Obligations.ReferenceEnvSteps : Prop :=
  ∀ (c : Config) (p : Periph), Periph.envEnabled c p = true →
    (RegValues.stop p.rb = true → ∃ q, Periph.envStep c .stop p = q ∧ Periph.refStep c p = some q
      ∧ RegValues.stop q.rb = false ∧ q.env.phase = .idle ∧ q.env.holdValid = false ∧ q.env.shiftValid = false
      ∧ RegValues.flag q.rb .txe = false ∧ RegValues.flag q.rb .btf = false
      ∧ (∀ f, f ≠ .txe → f ≠ .btf → RegValues.flag q.rb f = RegValues.flag p.rb f)
      ∧ q.env.wire = p.env.wire ++ [if p.env.holdValid || p.env.shiftValid then .stopTrunc else .stop])
    ∧ (RegValues.start p.rb = true → p.env.phase = .idle → ∃ q, Periph.envStep c .start p = q
      ∧ (RegValues.stop p.rb = false → Periph.refStep c p = some q)
      ∧ RegValues.start q.rb = false ∧ RegValues.flag q.rb .sb = true ∧ q.env.phase = .started
      ∧ q.env.wire = p.env.wire ++ [.start])
    ∧ (∀ a, p.env.phase = .started → p.env.holdValid = true → ∃ q, Periph.envStep c (.addr a) p = q
      ∧ (RegValues.stop p.rb = false → a = p.env.acks.headD true →
        Periph.refStep c p = some { q with env := { q.env with acks := p.env.acks.tail } })
      ∧ q.env.wire = p.env.wire ++ [.byte p.env.hold a] ∧ q.env.holdValid = false
      ∧ (a = true → RegValues.flag q.rb .addr = true ∧ q.env.phase = .addrSent)
      ∧ (a = false → RegValues.flag q.rb .af = true ∧ q.env.phase = .nacked))
    ∧ (∀ a, p.env.phase = .data → p.env.shiftValid = true → ∃ q, Periph.envStep c (.shiftDone a) p = q
      ∧ (RegValues.stop p.rb = false → a = p.env.acks.headD true →
        Periph.refStep c p = some { q with env := { q.env with acks := p.env.acks.tail } })
      ∧ q.env.wire = p.env.wire ++ [.byte p.env.shift a] ∧ q.env.shiftValid = false
      ∧ (a = true → q.rb = p.rb ∧ q.env.phase = .data)
      ∧ (a = false → RegValues.flag q.rb .af = true ∧ q.env.phase = .nacked))
    ∧ (p.env.phase = .data → p.env.holdValid = true → p.env.shiftValid = false → ∃ q, Periph.envStep c .load p = q
      ∧ (RegValues.stop p.rb = false → Periph.refStep c p = some q)
      ∧ q.env.shift = p.env.hold ∧ q.env.shiftValid = true ∧ q.env.holdValid = false
      ∧ RegValues.flag q.rb .txe = true ∧ q.env.wire = p.env.wire)
    ∧ (p.env.phase = .data → p.env.holdValid = false → p.env.shiftValid = false → RegValues.flag p.rb .btf = false →
      ∃ q, Periph.envStep c .drained p = q
      ∧ (RegValues.stop p.rb = false → Periph.refStep c p = some q)
      ∧ RegValues.flag q.rb .btf = true ∧ q.env = p.env)
    ∧ (RegValues.stop p.rb = false → (RegValues.start p.rb = false ∨ p.env.phase ≠ .idle) →
      (p.env.phase ≠ .started ∨ p.env.holdValid = false) →
      (p.env.phase ≠ .data ∨ (p.env.shiftValid = false ∧ p.env.holdValid = false ∧ RegValues.flag p.rb .btf = true)) →
      Periph.refStep c p = none ∧ ∀ m, Periph.envStep c m p = p)

/-- R150, R152: what the reference ENV does at a `DR` write and at an `SR2` read in each phase, whatever its schedule; the whole effect of
the access, before ENV's next turn. The value read is 0 under the two schedulers of R158, which is none of the free draws (log 9); under
any other schedule of the reference ENV it is the next one (R27). `addrStage` is the model's own record that an address byte is held
(log 10). -/
def Obligations.ReferenceEnvHooks : Prop :=
  ∀ (p : Periph) (v : Word),
    Periph.isRef p = true →
    (p.env.phase = .started → writeEffect .dr v p = { p with
      rb := RegValues.setFlag p.rb .sb false
      clrArmed := false
      env := { p.env with hold := v.setWidth 8, holdValid := true, addrStage := .held } })
    ∧ (p.env.phase = .data → writeEffect .dr v p = { p with
      rb := RegValues.setFlag (RegValues.setFlag p.rb .txe false) .btf false
      clrArmed := false
      env := { p.env with hold := v.setWidth 8, holdValid := true } })
    ∧ (p.env.phase ≠ .started → p.env.phase ≠ .data → writeEffect .dr v p = { p with clrArmed := false })
    ∧ (p.clrArmed = true → p.env.phase = .addrSent → readEffect .sr2 p = { p with
      rb := { RegValues.setFlag (RegValues.setFlag p.rb .addr false) .txe true with sr2 := sr2Draw p }
      clrArmed := false
      env := { p.env with phase := .data, draws := if Periph.isScheduled p then p.env.draws else p.env.draws + 1 } })
    ∧ (p.clrArmed = true → p.env.phase ≠ .addrSent → readEffect .sr2 p = { p with
      rb := { RegValues.setFlag p.rb .addr false with sr2 := sr2Draw p }
      clrArmed := false
      env := { p.env with draws := if Periph.isScheduled p then p.env.draws else p.env.draws + 1 } })
    ∧ (p.clrArmed = false → readEffect .sr2 p = { p with
      rb := { p.rb with sr2 := sr2Draw p }
      env := { p.env with draws := if Periph.isScheduled p then p.env.draws else p.env.draws + 1 } })
    ∧ (Periph.isScheduled p = true → readValue .sr2 p = 0)

/-- R158. Eager scheduling ends with no step of the reference ENV enabled, whatever the state: after each register read, register
write and buffer read, the reference ENV has taken enabled steps, one after another from the state the access left, until none is
enabled. Lazy-k: after each `REGSPACE` access it has taken the one enabled step, if any, when the number of `REGSPACE` accesses since
reset is a multiple of k, and no step otherwise; after a buffer read it has taken none. -/
def Obligations.EagerRunsToQuiescence : Prop :=
  (∀ (c : Config) (p : Periph), Periph.refStep c (Periph.runEager c p) = none)
  ∧ ∀ s : State,
    let chain := Relation.ReflTransGen (fun a b => Periph.refStep s.cfg a = some b)
    (s.per.env.sched = .eager →
      (∀ r, chain (readEffect r s.per) (regRead r s).2.per ∧ Periph.refStep s.cfg (regRead r s).2.per = none)
      ∧ (∀ r v, chain (writeEffect r v s.per) (regWrite r v s).per
        ∧ Periph.refStep s.cfg (regWrite r v s).per = none)
      ∧ (∀ a, chain s.per (bufRead a s).2.per ∧ Periph.refStep s.cfg (bufRead a s).2.per = none))
    ∧ (∀ k, s.per.env.sched = .lazy k →
      (∀ r, (regRead r s).2.per =
        if (busCount s.acc + 1) % k = 0 then (Periph.refStep s.cfg (readEffect r s.per)).getD (readEffect r s.per)
        else readEffect r s.per)
      ∧ (∀ r v, (regWrite r v s).per =
        if (busCount s.acc + 1) % k = 0 then (Periph.refStep s.cfg (writeEffect r v s.per)).getD (writeEffect r v s.per)
        else writeEffect r v s.per)
      ∧ (∀ a, (bufRead a s).2.per = s.per))

/-- R148: with `CLKGATE = 0` or `PE = 0` the reference ENV is inert, whatever its schedule: no step is enabled, and a turn changes at
most what is left of the schedule, under the two of R158 nothing at all. -/
def Obligations.DisabledReferenceEnvIsInert : Prop :=
  ∀ (c : Config) (w : Periph.TurnPoint) (p : Periph), Periph.isRef p = true →
    RegValues.clkgate c p.rb = false ∨ RegValues.pe p.rb = false →
    (∀ m, Periph.envStep c m p = p)
    ∧ Periph.turn c w p = { p with env := { p.env with sched := (Periph.turn c w p).env.sched } }
    ∧ (Periph.isScheduled p = true → Periph.turn c w p = p)

/-- Each step of the reference ENV, whichever is taken, is a sequence of moves that part 1 allows (43_peripheral_environment.md, part 2:
it is built to satisfy part 1). The two sides may differ only in the acknowledge draws left, which an agenda spells out in its moves. -/
def Obligations.ReferenceEnvIsAPartOneEnv : Prop :=
  ∀ (c : Config) (p q : Periph), Periph.isRef p = true → latchInv p = true → slotInv p = true →
    Periph.refStep c p = some q ∨ (∃ m, q = Periph.envStep c m p) →
    ∃ ms, Periph.applyMoves c ms p = { q with env := { q.env with acks := p.env.acks } }

/-! ## Whole transfers -/

/-- R132: a MASTER_SEND that has run to completion has left exactly the access trace of R132, for every ENV, with the buffer's bytes
in order. -/
def Obligations.CompletedSendHasTheSpecTrace : Prop :=
  ∀ (s s1 t : State) (addr : Addr7) (ptr len : Word) (n : Nat),
    s.cfg.wf = true → s.ports.host = [] → s.ports.offered = [] → s.mtc.busy = true →
    exec (.masterSend addr ptr len) s = .next s1 → Host.Core.run core n s1 = .next t → t.mtc.busy = false →
    ∃ l, t.acc = s.acc ++ l ∧ sendTrace s.cfg addr ptr (bufferBytes s.buf ptr len.toNat) l

/-- Under the reference ENV with eager scheduling and every draw 1 (no draw is listed, and then each is 1: log 12), a MASTER_SEND
issued on a quiet, enabled peripheral terminates after exactly `10 + 3 * len` micro-steps (a step is one micro-step: log 1), and the
wire gains the start, the address byte, the buffer's bytes in order, each acknowledged, and the stop
(43_peripheral_environment.md R158; 70_reset_and_hazards.md, section 4). -/
def Obligations.EagerSendTerminates : Prop :=
  ∀ (s s1 : State) (addr : Addr7) (ptr len : Word),
    s.cfg.wf = true → s.ports.host = [] → s.mtc.busy = true →
    s.per.env.sched = .eager → s.per.env.acks = [] → Periph.envEnabled s.cfg s.per = true →
    s.per.env.phase = .idle → s.per.env.holdValid = false → s.per.env.shiftValid = false →
    RegValues.start s.per.rb = false → RegValues.stop s.per.rb = false →
    RegValues.flag s.per.rb .sb = false → RegValues.flag s.per.rb .addr = false →
    RegValues.flag s.per.rb .txe = false → RegValues.flag s.per.rb .btf = false →
    exec (.masterSend addr ptr len) s = .next s1 →
    ∃ t, Host.Core.run core (10 + 3 * len.toNat) s1 = .next t
      ∧ t.mtc.busy = false ∧ t.mtc.upc = .u0 ∧ t.ports.rsp = some ⟨false, false⟩
      ∧ t.per.env.phase = .idle ∧ RegValues.stop t.per.rb = false ∧ RegValues.start t.per.rb = false
      ∧ t.per.env.wire = s.per.env.wire ++ [.start, .byte (addrByte addr) true]
          ++ (bufferBytes s.buf ptr len.toNat).map (fun b => WireEvent.byte b true) ++ [.stop]

/-- R199(d), R146: under a weakly fair reference ENV with every acknowledge draw 1, a MASTER_SEND issued on a quiet, enabled peripheral
terminates, in whatever order and however late ENV takes its steps; its response is 0, and once ENV has served the stop request, with no
further command offered, `WIRE` has grown by exactly the start, the address byte, the buffer's bytes in order, each acknowledged, and the
stop. A weakly fair ENV is one with a plan that names each of the six steps in the part it repeats for ever (`Safety.fair`; that its
schedule is such a plan is the model's choice, log 33). -/
def Obligations.WeaklyFairSendTerminates : Prop :=
  ∀ (s s1 : State) (addr : Addr7) (ptr len : Word) (turns again : List (List EnvStep)),
    s.cfg.wf = true → s.ports.host = [] → s.ports.offered = [] → s.mtc.busy = true →
    s.per.env.sched = .plan turns again → fair turns again = true → Periph.envEnabled s.cfg s.per = true →
    s.per.env.phase = .idle → s.per.env.holdValid = false → s.per.env.shiftValid = false →
    RegValues.start s.per.rb = false → RegValues.stop s.per.rb = false →
    RegValues.flag s.per.rb .sb = false → RegValues.flag s.per.rb .addr = false →
    RegValues.flag s.per.rb .txe = false → RegValues.flag s.per.rb .btf = false →
    exec (.masterSend addr ptr len) s = .next s1 →
    ∃ n t, Host.Core.run core n s1 = .next t
      ∧ t.mtc.busy = false ∧ t.mtc.upc = .u0 ∧ t.ports.rsp = some ⟨false, false⟩
      ∧ t.per.env.phase = .idle ∧ RegValues.stop t.per.rb = false ∧ RegValues.start t.per.rb = false
      ∧ t.per.env.wire = s.per.env.wire ++ [.start, .byte (addrByte addr) true]
          ++ (bufferBytes s.buf ptr len.toNat).map (fun b => WireEvent.byte b true) ++ [.stop]

/-- R134, R164: a hang is an infinite execution. At any of the five polls and under any ENV: as long as the flag is 0, every run of `n`
steps is at the same micro-step, still busy, with no new response, and has made `n` more reads of `SR1`, each with the flag's bit 0. And the
flag stays 0 for ever, with every register as it is, under an ENV that does not move and under the reference ENV, whatever its
schedule, when `PE = 0` (R148) or when a byte was not acknowledged and no stop is requested (R151, R156); of ENV nothing changes then
but what is left of its schedule. -/
def Obligations.HangIsAnInfiniteExecution : Prop :=
  ∀ (s : State) (f : Flag) (n : Nat), s.cfg.wf = true → s.ports.host = [] → s.mtc.busy = true →
    RegValues.clkgate s.cfg s.per.rb = true →
    (s.mtc.upc, f) ∈ [(Upc.u2, Flag.sb), (.u4, .addr), (.u8, .txe), (.u10, .txe), (.u11, .btf)] →
    ((∀ k u, k < n → Host.Core.run core k s = .next u → RegValues.flag u.per.rb f = false) →
      ∃ (t : State) (vs : List Word), Host.Core.run core n s = .next t ∧ t.mtc = s.mtc ∧ t.ports = s.ports
        ∧ vs.length = n ∧ (∀ v ∈ vs, bitAt v f.pos = false) ∧ t.acc = s.acc ++ vs.map (sr1Read s.cfg))
    ∧ (silent s.per = true
        ∨ (Periph.isRef s.per = true
          ∧ (RegValues.pe s.per.rb = false
            ∨ (s.per.env.phase = .nacked ∧ RegValues.stop s.per.rb = false))) →
      RegValues.flag s.per.rb f = false →
      ∃ t, Host.Core.run core n s = .next t ∧ t.mtc = s.mtc ∧ t.ports = s.ports ∧ t.per.rb = s.per.rb
        ∧ t.per.env = { s.per.env with sched := t.per.env.sched }
        ∧ t.acc = s.acc ++ List.replicate n (sr1Read s.cfg s.per.rb.sr1))

/-- R144, R24: under an ENV that is not the reference one a `DR` write in the address or data phase puts its low 8 bits in the holding
slot, clears `TXE` and changes no other flag; in phase started it is the address byte (`addrStage`, the model's own record). The `SR2`
read that clears `ADDR` ends the address phase (20_memory.md R45) once the address byte was acknowledged and leaves any other phase.
Where such a write is refused instead (log 11), and when that read finds the address phase over (log 26), are the model's reading. -/
def Obligations.AnyEnvTakesTheDrByte : Prop :=
  ∀ (p : Periph) (v : Word), Periph.isRef p = false →
    (p.env.phase = .started → writeEffect .dr v p = { p with
      rb := RegValues.setFlag p.rb .txe false
      clrArmed := false
      env := { p.env with hold := v.setWidth 8, holdValid := true, addrStage := .held } })
    ∧ (p.env.phase = .data ∨ p.env.phase = .addrSent → writeEffect .dr v p = { p with
      rb := RegValues.setFlag p.rb .txe false
      clrArmed := false
      env := { p.env with hold := v.setWidth 8, holdValid := true } })
    ∧ (p.clrArmed = true → RegValues.flag (readEffect .sr2 p).rb .addr = false ∧ (readEffect .sr2 p).clrArmed = false
      ∧ (∀ f, f ≠ .addr → RegValues.flag (readEffect .sr2 p).rb f = RegValues.flag p.rb f)
      ∧ (p.env.phase = .addrSent ∨ (p.env.phase = .started ∧ p.env.addrStage = .acked) →
        (readEffect .sr2 p).env.phase = .data)
      ∧ (p.env.phase ≠ .addrSent → (p.env.phase ≠ .started ∨ p.env.addrStage ≠ .acked) →
        (readEffect .sr2 p).env.phase = p.env.phase))
    ∧ (p.clrArmed = false → (readEffect .sr2 p).rb = { p.rb with sr2 := (readEffect .sr2 p).rb.sr2 })
end

