-- ==== Sys2Proof/Laws/Bits.lean ====
section
/-! SUPPORT. Bits, masks and named fields: what a write of one bit or of a masked value does to every bit. -/

namespace Sys2Proof.Laws

open Sys2Proof.Machine

theorem bitAt_bitMask (n m : Nat) : bitAt (bitMask n) m = (decide (m < 32) && decide (m = n)) := by
  unfold bitAt bitMask
  rw [BitVec.getLsbD_shiftLeft]
  by_cases h : m < n
  · simp [h]; omega
  · simp only [h, decide_false, Bool.not_false, Bool.and_true, BitVec.getLsbD_one]
    by_cases h2 : m = n
    · subst h2; simp
    · have : ¬ m - n = 0 := by omega
      simp [this, h2]

theorem bitAt_and (a b : Word) (n : Nat) : bitAt (a &&& b) n = (bitAt a n && bitAt b n) :=
  BitVec.getLsbD_and

theorem bitAt_or (a b : Word) (n : Nat) : bitAt (a ||| b) n = (bitAt a n || bitAt b n) :=
  BitVec.getLsbD_or

theorem bitAt_not (a : Word) (n : Nat) : bitAt (~~~a) n = (decide (n < 32) && !bitAt a n) :=
  BitVec.getLsbD_not

theorem bitAt_of_ge (a : Word) (n : Nat) (h : 32 ≤ n) : bitAt a n = false :=
  BitVec.getLsbD_of_ge a n h

theorem bitAt_putBit (w : Word) (n m : Nat) (b : Bool) (h : n < 32) :
    bitAt (putBit w n b) m = if m = n then b else bitAt w m := by
  unfold putBit
  by_cases hm : m < 32
  · cases b
    · simp only [Bool.false_eq_true, if_false, bitAt_and, bitAt_not, bitAt_bitMask, hm, decide_true, Bool.true_and]
      by_cases e : m = n <;> simp [e]
    · simp only [if_true, bitAt_or, bitAt_bitMask, hm, decide_true, Bool.true_and]
      by_cases e : m = n <;> simp [e]
  · have e : m ≠ n := by omega
    rw [if_neg e, bitAt_of_ge _ _ (by omega), bitAt_of_ge _ _ (by omega)]

/-- R44: every bit of the value a read-modify-write writes. -/
theorem bitAt_rmwValue (old clr set : Word) (n : Nat) :
    bitAt (rmwValue old clr set) n = ((bitAt old n && !bitAt clr n) || bitAt set n) := by
  unfold rmwValue
  rw [bitAt_or, bitAt_and, bitAt_not]
  by_cases h : n < 32
  · simp [h]
  · simp [bitAt_of_ge _ _ (Nat.le_of_not_lt h)]

/-- R44 where every owned bit is set: the mask is or-ed in. -/
theorem rmwValue_own (w m : Word) : rmwValue w m m = w ||| m := by
  apply BitVec.eq_of_getLsbD_eq
  intro i hi
  have e := bitAt_rmwValue w m m i
  unfold bitAt at e
  rw [e, BitVec.getLsbD_or]
  cases BitVec.getLsbD w i <;> cases BitVec.getLsbD m i <;> rfl

theorem bitAt_maskIf (b : Bool) (m : Word) (n : Nat) : bitAt (maskIf b m) n = (b && bitAt m n) := by
  cases b
  · simp [maskIf, bitAt]
  · simp [maskIf]

/-- R7: division by zero gives 0, as Lean's own division of natural numbers does. -/
theorem udiv_eq (a b : Nat) : udiv a b = a / b := by
  unfold udiv
  split
  · simp [*]
  · rfl

/-- R6: a field of `k` bits, zero-extended, as a number. -/
theorem setWidth_ofNat (k n : Nat) : (BitVec.ofNat k n).setWidth 32 = BitVec.ofNat 32 (n % 2 ^ k) := by
  apply BitVec.eq_of_toNat_eq
  simp

theorem Flag.pos_lt (f : Flag) : f.pos < 32 := by cases f <;> decide

theorem Flag.pos_inj (f g : Flag) : f.pos = g.pos ↔ f = g := by cases f <;> cases g <;> decide

/-- Reading a flag after writing one. -/
@[simp] theorem flag_setFlag (rb : RegValues) (f g : Flag) (b : Bool) :
    RegValues.flag (RegValues.setFlag rb f b) g = if g = f then b else RegValues.flag rb g := by
  show bitAt (putBit rb.sr1 f.pos b) g.pos = _
  rw [bitAt_putBit _ _ _ _ (Flag.pos_lt f)]
  simp only [Flag.pos_inj]
  rfl

@[simp] theorem flag_setCr1 (rb : RegValues) (n : Nat) (b : Bool) (f : Flag) :
    RegValues.flag (RegValues.setCr1 rb n b) f = RegValues.flag rb f := rfl
@[simp] theorem clkgate_setFlag (c : Config) (rb : RegValues) (f : Flag) (b : Bool) :
    RegValues.clkgate c (RegValues.setFlag rb f b) = RegValues.clkgate c rb := rfl
@[simp] theorem clkgate_setCr1 (c : Config) (rb : RegValues) (n : Nat) (b : Bool) :
    RegValues.clkgate c (RegValues.setCr1 rb n b) = RegValues.clkgate c rb := rfl
@[simp] theorem pe_setFlag (rb : RegValues) (f : Flag) (b : Bool) :
    RegValues.pe (RegValues.setFlag rb f b) = RegValues.pe rb := rfl
@[simp] theorem start_setFlag (rb : RegValues) (f : Flag) (b : Bool) :
    RegValues.start (RegValues.setFlag rb f b) = RegValues.start rb := rfl
@[simp] theorem stop_setFlag (rb : RegValues) (f : Flag) (b : Bool) :
    RegValues.stop (RegValues.setFlag rb f b) = RegValues.stop rb := rfl

/-- Every bit of `CR1` after one is written. -/
theorem cr1_setCr1 (rb : RegValues) (n m : Nat) (b : Bool) (h : n < 32) :
    bitAt (RegValues.setCr1 rb n b).cr1 m = if m = n then b else bitAt rb.cr1 m :=
  bitAt_putBit _ _ _ _ h

theorem start_setCr1 (rb : RegValues) (n : Nat) (b : Bool) (h : n < 32) :
    RegValues.start (RegValues.setCr1 rb n b) = if posStart = n then b else RegValues.start rb :=
  cr1_setCr1 rb n posStart b h
theorem stop_setCr1 (rb : RegValues) (n : Nat) (b : Bool) (h : n < 32) :
    RegValues.stop (RegValues.setCr1 rb n b) = if posStop = n then b else RegValues.stop rb :=
  cr1_setCr1 rb n posStop b h
theorem pe_setCr1 (rb : RegValues) (n : Nat) (b : Bool) (h : n < 32) :
    RegValues.pe (RegValues.setCr1 rb n b) = if posPe = n then b else RegValues.pe rb :=
  cr1_setCr1 rb n posPe b h

end Sys2Proof.Laws
end

