-- ==== Sys2Proof/Laws/Codec.lean ====
section
/-! SUPPORT. The fields of a packed `W0` (30_encoding.md R69), the flag selectors (R71) and the micro-step codes (R74). -/

namespace Sys2Proof.Laws

section Pack
variable (op flag : BitVec 4) (en ack duty : Bool) (addr : Addr7)

/-- Every bit of a packed `W0`. -/
theorem getLsbD_pack (i : Nat) : (W0.pack op flag en ack duty addr).getLsbD i =
    if i < 7 then addr.getLsbD i
    else if i = 7 then duty
    else if i = 8 then ack
    else if i = 9 then en
    else if i < 14 then flag.getLsbD (i - 10)
    else if i < 28 then false
    else op.getLsbD (i - 28) := by
  unfold W0.pack
  simp only [BitVec.getLsbD_append, BitVec.getLsbD_ofBool]
  by_cases h1 : i < 7
  · simp [h1]
  by_cases h2 : i < 8
  · have : i = 7 := by omega
    subst this; simp
  by_cases h3 : i < 9
  · have : i = 8 := by omega
    subst this; simp
  by_cases h4 : i < 10
  · have : i = 9 := by omega
    subst this; simp
  have e7 : ¬ i = 7 := by omega
  have e8 : ¬ i = 8 := by omega
  have e9 : ¬ i = 9 := by omega
  have l1 : ¬ i - 7 < 1 := by omega
  have l2 : ¬ i - 7 - 1 < 1 := by omega
  have l3 : ¬ i - 7 - 1 - 1 < 1 := by omega
  have q : i - 7 - 1 - 1 - 1 = i - 10 := by omega
  simp only [h1, e7, e8, e9, l1, l2, l3, if_false, q]
  by_cases h5 : i < 14
  · have : i - 10 < 4 := by omega
    simp [h5, this]
  have l5 : ¬ i - 10 < 4 := by omega
  have q2 : i - 10 - 4 = i - 14 := by omega
  simp only [h5, l5, if_false, q2]
  by_cases h6 : i < 28
  · have : i - 14 < 14 := by omega
    simp [h6, this]
  have l6 : ¬ i - 14 < 14 := by omega
  have q3 : i - 14 - 14 = i - 28 := by omega
  simp only [h6, l6, if_false, q3]

@[simp] theorem op_pack : W0.op (W0.pack op flag en ack duty addr) = op := by
  apply BitVec.eq_of_getLsbD_eq
  intro i hi
  unfold W0.op
  rw [BitVec.getLsbD_extractLsb', getLsbD_pack]
  have a : ¬ 28 + i < 7 := by omega
  have b : ¬ 28 + i < 14 := by omega
  have c : ¬ 28 + i < 28 := by omega
  have d : ¬ 28 + i = 7 ∧ ¬ 28 + i = 8 ∧ ¬ 28 + i = 9 := by omega
  simp [a, b, c, d, hi]

@[simp] theorem reserved_pack : W0.reserved (W0.pack op flag en ack duty addr) = 0 := by
  apply BitVec.eq_of_getLsbD_eq
  intro i hi
  unfold W0.reserved
  rw [BitVec.getLsbD_extractLsb', getLsbD_pack]
  have a : ¬ 14 + i < 7 := by omega
  have b : ¬ 14 + i < 14 := by omega
  have c : 14 + i < 28 := by omega
  have d : ¬ 14 + i = 7 ∧ ¬ 14 + i = 8 ∧ ¬ 14 + i = 9 := by omega
  simp [a, b, c, d]

@[simp] theorem flag_pack : W0.flag (W0.pack op flag en ack duty addr) = flag := by
  apply BitVec.eq_of_getLsbD_eq
  intro i hi
  unfold W0.flag
  rw [BitVec.getLsbD_extractLsb', getLsbD_pack]
  have a : ¬ 10 + i < 7 := by omega
  have b : 10 + i < 14 := by omega
  have d : ¬ 10 + i = 7 ∧ ¬ 10 + i = 8 ∧ ¬ 10 + i = 9 := by omega
  simp [a, b, d, hi]

@[simp] theorem en_pack : W0.en (W0.pack op flag en ack duty addr) = en := by
  unfold W0.en; rw [getLsbD_pack]; simp

@[simp] theorem ack_pack : W0.ack (W0.pack op flag en ack duty addr) = ack := by
  unfold W0.ack; rw [getLsbD_pack]; simp

@[simp] theorem duty_pack : W0.duty (W0.pack op flag en ack duty addr) = duty := by
  unfold W0.duty; rw [getLsbD_pack]; simp

@[simp] theorem addr_pack : W0.addr (W0.pack op flag en ack duty addr) = addr := by
  apply BitVec.eq_of_getLsbD_eq
  intro i hi
  unfold W0.addr
  rw [BitVec.getLsbD_extractLsb', getLsbD_pack]
  simp [hi]
end Pack

/-- A word with reserved bits 0 is the packing of its fields. -/
theorem pack_fields {w : Word} (h : W0.reserved w = 0) :
    W0.pack (W0.op w) (W0.flag w) (W0.en w) (W0.ack w) (W0.duty w) (W0.addr w) = w := by
  apply BitVec.eq_of_getLsbD_eq
  intro i hi
  rw [getLsbD_pack]
  by_cases h1 : i < 7
  · simp [h1, W0.addr]
  by_cases h2 : i = 7
  · subst h2; rfl
  by_cases h3 : i = 8
  · subst h3; rfl
  by_cases h4 : i = 9
  · subst h4; rfl
  rw [if_neg h1, if_neg h2, if_neg h3, if_neg h4]
  by_cases h5 : i < 14
  · have q : 10 + (i - 10) = i := by omega
    have l : i - 10 < 4 := by omega
    simp [h5, W0.flag, q, l]
  rw [if_neg h5]
  by_cases h6 : i < 28
  · have q : 14 + (i - 14) = i := by omega
    have l : i - 14 < 14 := by omega
    have z := congrArg (fun v => v.getLsbD (i - 14)) h
    simp [W0.reserved, q, l] at z
    rw [if_pos h6, z]
  · have q : 28 + (i - 28) = i := by omega
    have l : i - 28 < 4 := by omega
    rw [if_neg h6]
    simp [W0.op, q, l]

@[simp] theorem dutyBit_ofBit (d : Duty) : Duty.ofBit d.bit = d := by cases d <;> rfl
@[simp] theorem ofBit_dutyBit (b : Bool) : (Duty.ofBit b).bit = b := by cases b <;> rfl

/-- A selector is named exactly when it selects a flag (R71). -/
theorem selectorNamed_iff (sel : BitVec 4) : selectorNamed sel = (Flag.ofSelector sel).isSome := by
  revert sel; decide

/-- The flag a selector names has that selector as its bit index (R71). -/
theorem pos_of_ofSelector {sel : BitVec 4} {f : Flag} (h : Flag.ofSelector sel = some f) : f.pos = sel.toNat := by
  revert f; revert sel; decide

@[simp] theorem ofSelector_selector (f : Flag) : Flag.ofSelector f.selector = some f := by cases f <;> rfl

@[simp] theorem ofCode_code (u : Upc) : Upc.ofCode u.code = some u := by cases u <;> rfl

/-- The micro-step a code names has that code (R74). -/
theorem code_of_ofCode {c : BitVec 4} {u : Upc} (h : Upc.ofCode c = some u) : u.code = c := by
  revert u; revert c; decide

@[simp] theorem decodeMicro_code (u : Upc) : decodeMicro u.code = .ok u.instr := by
  unfold decodeMicro; rw [ofCode_code]

/-- An accepted instruction has passed every check. -/
theorem acceptIf_ok {checks : List (Bool × DecodeError)} {i j : Instr} (h : acceptIf checks i = .ok j) :
    j = i ∧ ∀ c ∈ checks, c.1 = true := by
  induction checks with
  | nil => injection h with h; exact ⟨h.symm, fun c hc => absurd hc List.not_mem_nil⟩
  | cons c rest ih =>
    obtain ⟨b, e⟩ := c
    unfold acceptIf at h
    cases b
    · simp at h
    · obtain ⟨a, b⟩ := ih (by simpa using h)
      refine ⟨a, ?_⟩
      intro c hc
      rcases List.mem_cons.mp hc with rfl | hc
      · rfl
      · exact b c hc

/-- An instruction is accepted exactly when every check holds. -/
theorem acceptIf_iff (checks : List (Bool × DecodeError)) (i : Instr) :
    (∃ j, acceptIf checks i = .ok j) ↔ ∀ c ∈ checks, c.1 = true := by
  constructor
  · rintro ⟨j, h⟩; exact (acceptIf_ok h).2
  · intro h
    induction checks with
    | nil => exact ⟨i, rfl⟩
    | cons c r ih =>
      obtain ⟨b, e⟩ := c
      have hb : b = true := h (b, e) (by simp)
      subst hb
      simpa [acceptIf] using ih (fun c hc => h c (by simp [hc]))

end Sys2Proof.Laws
end

