-- ==== Sys2Proof/Laws/Env.lean ====
section
/-! SUPPORT. What ENV can do (43_peripheral_environment.md R140 to R158): one inversion lemma for the reference ENV's step, and
the frame of every move, step and turn. -/

namespace Sys2Proof.Safety

open Sys2Proof.Machine Sys2Proof.Laws

theorem EnvOnly.refl (p : Periph) : EnvOnly p p where
  cr1Bits := fun _ _ _ => rfl
  start := id
  stop := id
  cr2 := rfl
  oar1 := rfl
  oar2 := rfl
  dr := rfl
  sr2 := rfl
  ccr := rfl
  trise := rfl
  fltr := rfl
  clken := rfl
  armed := rfl
  addr := id
  wire := ⟨[], (List.append_nil _).symm⟩

theorem EnvOnly.trans {p q r : Periph} (h : EnvOnly p q) (k : EnvOnly q r) : EnvOnly p r where
  cr1Bits := fun n a b => (k.cr1Bits n a b).trans (h.cr1Bits n a b)
  start := fun x => h.start (k.start x)
  stop := fun x => h.stop (k.stop x)
  cr2 := k.cr2.trans h.cr2
  oar1 := k.oar1.trans h.oar1
  oar2 := k.oar2.trans h.oar2
  dr := k.dr.trans h.dr
  sr2 := k.sr2.trans h.sr2
  ccr := k.ccr.trans h.ccr
  trise := k.trise.trans h.trise
  fltr := k.fltr.trans h.fltr
  clken := k.clken.trans h.clken
  armed := k.armed.trans h.armed
  addr := fun x => k.addr (h.addr x)
  wire := by
    obtain ⟨a, ha⟩ := h.wire
    obtain ⟨b, hb⟩ := k.wire
    exact ⟨a ++ b, by rw [hb, ha, List.append_assoc]⟩

/-- `PE` is outside ENV's reach (R141). -/
theorem EnvOnly.pe {p q : Periph} (h : EnvOnly p q) : RegValues.pe q.rb = RegValues.pe p.rb :=
  h.cr1Bits posPe (by decide) (by decide)

/-- `CLKGATE` is outside ENV's reach (R141). -/
theorem EnvOnly.clkgate {p q : Periph} (h : EnvOnly p q) (c : Config) :
    RegValues.clkgate c q.rb = RegValues.clkgate c p.rb :=
  congrArg (fun w => bitAt w c.posClkgate.val) h.clken

/-- A step that leaves `CR1` and every storage register alone, keeps `ADDR` if set and only appends to `WIRE`. -/
theorem EnvOnly.of_sr1 {p q : Periph} (sr1 : Word) (rb : q.rb = { p.rb with sr1 := sr1 })
    (armed : q.clrArmed = p.clrArmed)
    (addr : RegValues.flag p.rb .addr = true → bitAt sr1 Flag.addr.pos = true)
    (wire : ∃ es, q.env.wire = p.env.wire ++ es) : EnvOnly p q := by
  refine ⟨?_, ?_, ?_, ?_, ?_, ?_, ?_, ?_, ?_, ?_, ?_, ?_, armed, ?_, wire⟩ <;>
    simp [rb, RegValues.start, RegValues.stop, RegValues.flag]
  simpa [RegValues.flag] using addr

/-- The same with one of `START`, `STOP` cleared. -/
theorem EnvOnly.of_cr1 {p q : Periph} (sr1 : Word) (n : Nat) (hn : n = posStart ∨ n = posStop)
    (rb : q.rb = { RegValues.setCr1 p.rb n false with sr1 := sr1 })
    (armed : q.clrArmed = p.clrArmed)
    (addr : RegValues.flag p.rb .addr = true → bitAt sr1 Flag.addr.pos = true)
    (wire : ∃ es, q.env.wire = p.env.wire ++ es) : EnvOnly p q := by
  have n32 : n < 32 := by rcases hn with rfl | rfl <;> decide
  have bit : ∀ m, bitAt q.rb.cr1 m = if m = n then false else bitAt p.rb.cr1 m := by
    intro m; rw [rb]; exact cr1_setCr1 p.rb n m false n32
  refine ⟨?_, ?_, ?_, ?_, ?_, ?_, ?_, ?_, ?_, ?_, ?_, ?_, armed, ?_, wire⟩
  · intro m a b
    have : m ≠ n := by rcases hn with rfl | rfl <;> assumption
    rw [bit m, if_neg this]
  · intro h
    have := (bit posStart).symm.trans h
    by_cases e : posStart = n
    · simp [e] at this
    · rw [if_neg e] at this; exact this
  · intro h
    have := (bit posStop).symm.trans h
    by_cases e : posStop = n
    · simp [e] at this
    · rw [if_neg e] at this; exact this
  all_goals first
    | (rw [rb]; rfl)
    | (intro h; simpa [rb, RegValues.flag] using addr h)

end Sys2Proof.Safety

namespace Sys2Proof.Laws

open Sys2Proof.Machine Sys2Proof.Safety

variable {c : Config}

/-- The step that R158 picks: it is enabled, its draw is the next one, and it is `E_STOP` whenever `STOP = 1`. -/
theorem refStep_cases {p q : Periph} (h : Periph.refStep c p = some q) :
    ∃ m, m ∈ Periph.stepOrder (Periph.ackDraw p) ∧ Periph.stepEnabled c p m = true
      ∧ q = Periph.takeStep m (Periph.drawFor m p) ∧ (RegValues.stop p.rb = true → m = .stop) := by
  unfold Periph.refStep at h
  obtain ⟨m, hm, rfl⟩ := Option.map_eq_some_iff.1 h
  have he := List.find?_some hm
  refine ⟨m, List.mem_of_find?_eq_some hm, he, rfl, fun hs => ?_⟩
  unfold Periph.stepEnabled at he
  simp only [Bool.and_eq_true] at he
  have hstop : Periph.stepEnabled c p .stop = true := by simp [Periph.stepEnabled, he.1, hs]
  simp only [Periph.stepOrder, List.find?_cons, hstop] at hm
  exact (Option.some.inj hm).symm

/-- R158: no step is picked exactly when none is enabled. -/
theorem refStep_eq_none {p : Periph} : Periph.refStep c p = none ↔ ∀ m, Periph.stepEnabled c p m = false := by
  unfold Periph.refStep
  rw [Option.map_eq_none_iff, List.find?_eq_none]
  constructor
  · intro h m
    cases m with
    | addr a => simpa [Periph.stepEnabled] using h (.addr (Periph.ackDraw p)) (by simp [Periph.stepOrder])
    | shiftDone a => simpa [Periph.stepEnabled] using h (.shiftDone (Periph.ackDraw p)) (by simp [Periph.stepOrder])
    | start => simpa using h .start (by simp [Periph.stepOrder])
    | drained => simpa using h .drained (by simp [Periph.stepOrder])
    | load => simpa using h .load (by simp [Periph.stepOrder])
    | stop => simpa using h .stop (by simp [Periph.stepOrder])
  · intro h m _
    simp [h m]

/-- Taking the draw of a step changes nothing but the draws left, so the step is as enabled as before. -/
theorem drawFor_eq (m : EnvStep) (p : Periph) : ∃ acks, Periph.drawFor m p = { p with env := { p.env with acks := acks } } := by
  cases m
  case addr => exact ⟨p.env.acks.tail, rfl⟩
  case shiftDone => exact ⟨p.env.acks.tail, rfl⟩
  all_goals exact ⟨p.env.acks, rfl⟩

/-- Setting a flag never loses a latched `ADDR`, unless it clears that very flag. -/
theorem addr_kept_putBit (rb : RegValues) (f : Flag) (b : Bool) (h : f = .addr → b = true)
    (ha : RegValues.flag rb .addr = true) : bitAt (putBit rb.sr1 f.pos b) Flag.addr.pos = true := by
  have := flag_setFlag rb f .addr b
  unfold RegValues.flag RegValues.setFlag at this
  rw [this]
  by_cases e : Flag.addr = f
  · simp [e, h e.symm]
  · rw [if_neg e]; exact ha

theorem eStop_envOnly (p : Periph) : EnvOnly p (Periph.eStop p) := by
  refine EnvOnly.of_cr1 _ posStop (.inr rfl) rfl rfl (fun h => ?_) ⟨_, rfl⟩
  exact addr_kept_putBit (RegValues.setFlag p.rb .txe false) .btf false (by simp) (by simpa using h)

theorem eStart_envOnly (p : Periph) : EnvOnly p (Periph.eStart p) :=
  EnvOnly.of_cr1 _ posStart (.inl rfl) rfl rfl (addr_kept_putBit p.rb .sb true (by simp)) ⟨_, rfl⟩

/-! What becomes of an address byte when slots are kept or lost. -/

@[simp] theorem kept_true_true (a : AddrStage) : a.kept true true = a := by cases a <;> rfl
@[simp] theorem kept_eq_held (a : AddrStage) (h s : Bool) : a.kept h s = .held ↔ a = .held ∧ h = true := by
  cases a <;> cases h <;> cases s <;> simp [AddrStage.kept]
@[simp] theorem kept_eq_shifting (a : AddrStage) (h s : Bool) : a.kept h s = .shifting ↔ a = .shifting ∧ s = true := by
  cases a <;> cases h <;> cases s <;> simp [AddrStage.kept]
@[simp] theorem kept_eq_acked (a : AddrStage) (h s : Bool) : a.kept h s = .acked ↔ a = .acked := by
  cases a <;> cases h <;> cases s <;> simp [AddrStage.kept]

theorem keepSlots_envOnly (h s : Bool) (p : Periph) : EnvOnly p (Periph.keepSlots h s p) :=
  EnvOnly.of_sr1 p.rb.sr1 rfl rfl id ⟨[], (List.append_nil _).symm⟩

theorem unrequestedStart_envOnly (p : Periph) : EnvOnly p (Periph.unrequestedStart p) :=
  EnvOnly.of_sr1 p.rb.sr1 rfl rfl id ⟨_, rfl⟩

theorem eAddr_envOnly (a : Bool) (p : Periph) : EnvOnly p (Periph.eAddr a p) := by
  refine EnvOnly.of_sr1 _ rfl rfl (fun h => ?_) ⟨_, rfl⟩
  cases a
  · exact addr_kept_putBit p.rb .af true (by simp) h
  · exact addr_kept_putBit p.rb .addr true (by simp) h

theorem eShiftDone_envOnly (a : Bool) (p : Periph) : EnvOnly p (Periph.eShiftDone a p) := by
  cases a
  · exact EnvOnly.of_sr1 _ rfl rfl (addr_kept_putBit p.rb .af true (by simp)) ⟨_, rfl⟩
  · exact EnvOnly.of_sr1 p.rb.sr1 rfl rfl id ⟨_, rfl⟩

theorem eLoad_envOnly (p : Periph) : EnvOnly p (Periph.eLoad p) :=
  EnvOnly.of_sr1 _ rfl rfl (addr_kept_putBit p.rb .txe true (by simp)) ⟨[], (List.append_nil _).symm⟩

theorem eDrained_envOnly (p : Periph) : EnvOnly p (Periph.eDrained p) :=
  EnvOnly.of_sr1 _ rfl rfl (addr_kept_putBit p.rb .btf true (by simp)) ⟨[], (List.append_nil _).symm⟩

/-- R141, R142, R143 for the reference ENV. -/
theorem takeStep_envOnly (m : EnvStep) (p : Periph) : EnvOnly p (Periph.takeStep m p) := by
  cases m with
  | start => exact eStart_envOnly p
  | addr a => exact eAddr_envOnly a p
  | drained => exact eDrained_envOnly p
  | load => exact eLoad_envOnly p
  | stop => exact eStop_envOnly p
  | shiftDone a => exact eShiftDone_envOnly a p

theorem envStep_envOnly (m : EnvStep) (p : Periph) : EnvOnly p (Periph.envStep c m p) := by
  unfold Periph.envStep
  split
  · exact takeStep_envOnly m p
  · exact EnvOnly.refl p

theorem envSteps_envOnly (ms : List EnvStep) (p : Periph) : EnvOnly p (Periph.envSteps c ms p) := by
  induction ms generalizing p with
  | nil => exact EnvOnly.refl p
  | cons m rest ih => exact (envStep_envOnly m p).trans (ih _)

/-- A change of ENV's schedule or of its draws to come, and of nothing else. -/
theorem own_envOnly (sc : Scheduler) (acks : List Bool) (p : Periph) :
    EnvOnly p { p with env := { p.env with sched := sc, acks := acks } } :=
  EnvOnly.of_sr1 p.rb.sr1 rfl rfl id ⟨[], (List.append_nil _).symm⟩

theorem refStep_envOnly {p q : Periph} (h : Periph.refStep c p = some q) : EnvOnly p q := by
  obtain ⟨m, -, -, rfl, -⟩ := refStep_cases h
  obtain ⟨acks, e⟩ := drawFor_eq m p
  rw [e]
  exact (own_envOnly p.env.sched acks p).trans (takeStep_envOnly m _)

theorem runRef_envOnly (n : Nat) (p : Periph) : EnvOnly p (Periph.runRef c n p) := by
  induction n generalizing p with
  | zero => exact EnvOnly.refl p
  | succ n ih =>
    unfold Periph.runRef
    cases h : Periph.refStep c p with
    | none => exact EnvOnly.refl p
    | some q => exact (refStep_envOnly h).trans (ih q)

theorem runOnce_envOnly (p : Periph) : EnvOnly p (Periph.runOnce c p) := by
  unfold Periph.runOnce
  cases h : Periph.refStep c p with
  | none => exact EnvOnly.refl p
  | some q => exact refStep_envOnly h

/-- R141, R142, R143 for any ENV of part 1. -/
theorem applyMove_envOnly (m : EnvMove) (p : Periph) : EnvOnly p (Periph.applyMove c m p) := by
  unfold Periph.applyMove
  split
  · exact EnvOnly.refl p
  cases m with
  | genStart h s =>
    dsimp only; split
    · exact (keepSlots_envOnly h s p).trans (eStart_envOnly _)
    · exact (keepSlots_envOnly h s p).trans (unrequestedStart_envOnly _)
  | genStop h s clear =>
    cases clear
    · exact EnvOnly.of_sr1 p.rb.sr1 rfl rfl id ⟨_, rfl⟩
    · exact EnvOnly.of_cr1 p.rb.sr1 posStop (.inr rfl) rfl rfl id ⟨_, rfl⟩
  | sendAddr a keep =>
    dsimp only; split
    · exact EnvOnly.of_sr1 p.rb.sr1 rfl rfl id ⟨_, rfl⟩
    · exact EnvOnly.refl p
  | raiseAddr enter =>
    dsimp only; split
    · exact EnvOnly.of_sr1 _ rfl rfl (addr_kept_putBit p.rb .addr true (by simp)) ⟨[], (List.append_nil _).symm⟩
    · exact EnvOnly.refl p
  | load =>
    dsimp only; split
    · exact EnvOnly.of_sr1 _ rfl rfl (addr_kept_putBit p.rb .btf false (by simp)) ⟨[], (List.append_nil _).symm⟩
    · exact EnvOnly.refl p
  | shiftDone a keep =>
    dsimp only; split
    · exact EnvOnly.of_sr1 p.rb.sr1 rfl rfl id ⟨_, rfl⟩
    · exact EnvOnly.refl p
  | drop h s => exact keepSlots_envOnly h s p
  | status v =>
    dsimp only; split
    · rename_i h
      refine EnvOnly.of_sr1 v rfl rfl (fun ha => ?_) ⟨[], (List.append_nil _).symm⟩
      unfold Periph.statusAllowed at h
      simp only [Bool.and_eq_true, beq_iff_eq] at h
      rw [h.1.1.1, ha]
    · exact EnvOnly.refl p
  | abandon => exact EnvOnly.of_sr1 p.rb.sr1 rfl rfl id ⟨[], (List.append_nil _).symm⟩

theorem applyMoves_envOnly (ms : List EnvMove) (p : Periph) : EnvOnly p (Periph.applyMoves c ms p) := by
  induction ms generalizing p with
  | nil => exact EnvOnly.refl p
  | cons m rest ih => exact (applyMove_envOnly m p).trans (ih _)

/-- A turn that begins by putting another schedule in place. -/
theorem reschedule_envOnly (sc : Scheduler) (p : Periph) : EnvOnly p (Periph.reschedule sc p) :=
  own_envOnly sc p.env.acks p

theorem playTurn_envOnly (ts : List (List EnvMove)) (p : Periph) : EnvOnly p (Periph.playTurn c ts p) := by
  cases ts with
  | nil => exact EnvOnly.refl p
  | cons t rest =>
    exact (reschedule_envOnly (.agenda rest) p).trans (applyMoves_envOnly t _)

/-- Whatever ENV is behind the registers, its turn changes only what ENV may change (R140 to R143). -/
theorem turn_envOnly (w : Periph.TurnPoint) (p : Periph) : EnvOnly p (Periph.turn c w p) := by
  unfold Periph.turn
  split
  · cases w
    · exact runRef_envOnly _ p
    · exact runRef_envOnly _ p
    · exact EnvOnly.refl p
  · cases w
    · dsimp only; split
      · exact runOnce_envOnly p
      · exact EnvOnly.refl p
    · exact EnvOnly.refl p
    · exact EnvOnly.refl p
  · exact (reschedule_envOnly _ p).trans (envSteps_envOnly _ _)
  · exact (reschedule_envOnly _ p).trans (envSteps_envOnly _ _)
  · exact playTurn_envOnly _ p
  · exact (reschedule_envOnly _ p).trans (applyMoves_envOnly _ _)

/-! ## The kind of ENV never changes -/

theorem takeStep_sched (m : EnvStep) (p : Periph) : (Periph.takeStep m p).env.sched = p.env.sched := by
  cases m <;> rfl

theorem envStep_sched (m : EnvStep) (p : Periph) : (Periph.envStep c m p).env.sched = p.env.sched := by
  unfold Periph.envStep
  split
  · exact takeStep_sched m p
  · rfl

theorem envSteps_sched (ms : List EnvStep) (p : Periph) : (Periph.envSteps c ms p).env.sched = p.env.sched := by
  induction ms generalizing p with
  | nil => rfl
  | cons m rest ih => exact (ih _).trans (envStep_sched m p)

@[simp] theorem refStep_sched {p q : Periph} (h : Periph.refStep c p = some q) : q.env.sched = p.env.sched := by
  obtain ⟨m, -, -, rfl, -⟩ := refStep_cases h
  obtain ⟨acks, e⟩ := drawFor_eq m p
  rw [e]
  exact takeStep_sched m _

theorem runRef_sched (n : Nat) (p : Periph) : (Periph.runRef c n p).env.sched = p.env.sched := by
  induction n generalizing p with
  | zero => rfl
  | succ n ih =>
    unfold Periph.runRef
    cases h : Periph.refStep c p with
    | none => rfl
    | some q => exact (ih q).trans (refStep_sched h)

theorem applyMove_sched (m : EnvMove) (p : Periph) : (Periph.applyMove c m p).env.sched = p.env.sched := by
  unfold Periph.applyMove
  split
  · rfl
  · cases m <;> dsimp only <;> (try split) <;> rfl

theorem applyMoves_sched (ms : List EnvMove) (p : Periph) : (Periph.applyMoves c ms p).env.sched = p.env.sched := by
  induction ms generalizing p with
  | nil => rfl
  | cons m rest ih => exact (ih _).trans (applyMove_sched m p)

/-- A turn leaves the schedule as it is, or advances one of another kind than the two of R158. -/
theorem turn_sched (w : Periph.TurnPoint) (p : Periph) :
    (Periph.turn c w p).env.sched = p.env.sched
    ∨ (Periph.isScheduled p = false ∧ Periph.isScheduled (Periph.turn c w p) = false
      ∧ Periph.isRef (Periph.turn c w p) = Periph.isRef p) := by
  unfold Periph.turn
  split
  · cases w
    · exact .inl (runRef_sched _ p)
    · exact .inl (runRef_sched _ p)
    · exact .inl rfl
  · cases w
    · dsimp only; split
      · unfold Periph.runOnce
        cases h : Periph.refStep c p with
        | none => exact .inl rfl
        | some q => exact .inl (refStep_sched h)
      · exact .inl rfl
    · exact .inl rfl
    · exact .inl rfl
  · rename_i turns again hs
    simp [Periph.isScheduled, Periph.isRef, envSteps_sched, Periph.reschedule, hs]
  · rename_i n hs
    simp [Periph.isScheduled, Periph.isRef, envSteps_sched, Periph.reschedule, hs]
  · rename_i turns hs
    cases turns with
    | nil => exact .inl rfl
    | cons t rest => simp [Periph.isScheduled, Periph.isRef, Periph.playTurn, applyMoves_sched, Periph.reschedule, hs]
  · rename_i n hs
    simp [Periph.isScheduled, Periph.isRef, applyMoves_sched, Periph.reschedule, hs]

theorem turn_isRef (w : Periph.TurnPoint) (p : Periph) : Periph.isRef (Periph.turn c w p) = Periph.isRef p := by
  rcases turn_sched (c := c) w p with h | ⟨-, -, h⟩
  · unfold Periph.isRef; rw [h]
  · exact h

theorem turn_isScheduled (w : Periph.TurnPoint) (p : Periph) :
    Periph.isScheduled (Periph.turn c w p) = Periph.isScheduled p := by
  rcases turn_sched (c := c) w p with h | ⟨h, k, -⟩
  · unfold Periph.isScheduled; rw [h]
  · rw [h, k]

/-- A property that every move of another ENV keeps is kept by a list of them. -/
theorem applyMoves_keeps {P : Periph → Prop}
    (move : ∀ m p, P p → Periph.isRef p = false → P (Periph.applyMove c m p))
    (ms : List EnvMove) (p : Periph) (h : P p) (k : Periph.isRef p = false) : P (Periph.applyMoves c ms p) := by
  induction ms generalizing p with
  | nil => exact h
  | cons m rest ih =>
    refine ih _ (move m p h k) ?_
    unfold Periph.isRef at k ⊢
    rw [applyMove_sched]; exact k

/-- A property that every step of the reference ENV keeps is kept by a list of them. -/
theorem envSteps_keeps {P : Periph → Prop}
    (step : ∀ m p, P p → Periph.isRef p = true → Periph.stepEnabled c p m = true → P (Periph.takeStep m p))
    (ms : List EnvStep) (p : Periph) (h : P p) (k : Periph.isRef p = true) : P (Periph.envSteps c ms p) := by
  induction ms generalizing p with
  | nil => exact h
  | cons m rest ih =>
    refine ih _ ?_ ?_
    · unfold Periph.envStep
      split
      · exact step m p h k (by assumption)
      · exact h
    · unfold Periph.isRef at k ⊢
      rw [envStep_sched]; exact k

/-- A property that every step of the reference ENV, every move of another ENV, and every change of the schedule and the draws to
come keeps is kept by every turn. -/
theorem turn_keeps {P : Periph → Prop}
    (step : ∀ m p, P p → Periph.isRef p = true → Periph.stepEnabled c p m = true → P (Periph.takeStep m p))
    (move : ∀ m p, P p → Periph.isRef p = false → P (Periph.applyMove c m p))
    (own : ∀ p sc acks, P p →
      Periph.isRef { p with env := { p.env with sched := sc, acks := acks } } = Periph.isRef p →
      P { p with env := { p.env with sched := sc, acks := acks } })
    (w : Periph.TurnPoint) (p : Periph) (h : P p) : P (Periph.turn c w p) := by
  have ref : ∀ p q, P p → Periph.isRef p = true → Periph.refStep c p = some q → P q := by
    intro p q h k e
    obtain ⟨m, -, he, rfl, -⟩ := refStep_cases e
    obtain ⟨acks, ea⟩ := drawFor_eq m p
    rw [ea]
    exact step m _ (own p p.env.sched acks h rfl) k he
  have hr : ∀ n q, P q → Periph.isRef q = true → P (Periph.runRef c n q) := by
    intro n
    induction n with
    | zero => intro q h _; exact h
    | succ n ih =>
      intro q h k
      unfold Periph.runRef
      cases e : Periph.refStep c q with
      | none => exact h
      | some r =>
        refine ih r (ref q r h k e) ?_
        unfold Periph.isRef at k ⊢
        rw [refStep_sched e]; exact k
  have re : ∀ sc, Periph.isRef (Periph.reschedule sc p) = Periph.isRef p → P (Periph.reschedule sc p) :=
    fun sc k => own p sc p.env.acks h k
  unfold Periph.turn
  split
  · rename_i hs
    have k : Periph.isRef p = true := by simp [Periph.isRef, hs]
    cases w
    · exact hr _ _ h k
    · exact hr _ _ h k
    · exact h
  · rename_i hs
    have k : Periph.isRef p = true := by simp [Periph.isRef, hs]
    cases w
    · dsimp only; split
      · unfold Periph.runOnce
        cases e : Periph.refStep c p with
        | none => exact h
        | some r => exact ref p r h k e
      · exact h
    · exact h
    · exact h
  · rename_i turns again hs
    exact envSteps_keeps step _ _ (re _ (by simp [Periph.isRef, hs, Periph.reschedule])) rfl
  · rename_i n hs
    exact envSteps_keeps step _ _ (re _ (by simp [Periph.isRef, hs, Periph.reschedule])) rfl
  · rename_i ts hs
    unfold Periph.playTurn
    cases ts with
    | nil => exact h
    | cons t rest => exact applyMoves_keeps move t _ (re (.agenda rest) (by simp [Periph.isRef, hs, Periph.reschedule])) rfl
  · rename_i n hs
    exact applyMoves_keeps move _ _ (re (.free (n + 1)) (by simp [Periph.isRef, hs, Periph.reschedule])) rfl

/-- Where no step of the reference ENV is enabled, its turn changes nothing but what is left of its schedule. -/
theorem turn_quiet (w : Periph.TurnPoint) (p : Periph) (h : Periph.isRef p = true)
    (k : ∀ m, Periph.stepEnabled c p m = false) :
    ∃ sc, Periph.turn c w p = Periph.reschedule sc p ∧ (Periph.isScheduled p = true → sc = p.env.sched) := by
  have none : Periph.refStep c p = none := refStep_eq_none.2 k
  have steps : ∀ (sc : Scheduler) (ms : List EnvStep),
      Periph.envSteps c ms (Periph.reschedule sc p) = Periph.reschedule sc p := by
    intro sc ms
    induction ms with
    | nil => rfl
    | cons m rest ih =>
      have e : Periph.envStep c m (Periph.reschedule sc p) = Periph.reschedule sc p :=
        if_neg (by rw [show Periph.stepEnabled c (Periph.reschedule sc p) m = false from k m]; decide)
      unfold Periph.envSteps
      rw [e]; exact ih
  unfold Periph.turn
  split
  · refine ⟨p.env.sched, ?_, fun _ => rfl⟩
    cases w <;> simp [Periph.runEager, Periph.eagerFuel, Periph.runRef, none, Periph.reschedule]
  · refine ⟨p.env.sched, ?_, fun _ => rfl⟩
    cases w <;> simp [Periph.runOnce, none, Periph.reschedule]
  · rename_i turns again hs
    exact ⟨_, steps _ _, fun x => by simp [Periph.isScheduled, hs] at x⟩
  · rename_i n hs
    exact ⟨_, steps _ _, fun x => by simp [Periph.isScheduled, hs] at x⟩
  · rename_i hs
    simp [Periph.isRef, hs] at h
  · rename_i hs
    simp [Periph.isRef, hs] at h

/-- R143: with no address byte under way a move of any other ENV starts none and leaves `ADDR` as it is. -/
theorem applyMove_stageNone (m : EnvMove) (p : Periph) (h : p.env.addrStage = .none) :
    (Periph.applyMove c m p).env.addrStage = .none
    ∧ RegValues.flag (Periph.applyMove c m p).rb .addr = RegValues.flag p.rb .addr := by
  unfold Periph.applyMove
  split
  · exact ⟨h, rfl⟩
  cases m with
  | genStart a b => dsimp only; split <;> simp [Periph.eStart, Periph.unrequestedStart, Periph.keepSlots, AddrStage.kept, h]
  | genStop a b clear => cases clear <;> simp [Periph.keepSlots, AddrStage.kept, h]
  | sendAddr a keep => simp [h]
  | raiseAddr enter => simp [h]
  | load => dsimp only; split <;> simp [h]
  | shiftDone a keep => dsimp only; split <;> simp [h]
  | drop a b => simp [Periph.keepSlots, AddrStage.kept, h]
  | status v =>
    dsimp only; split
    · rename_i e
      unfold Periph.statusAllowed at e
      simp only [Bool.and_eq_true, beq_iff_eq] at e
      exact ⟨h, e.1.1.1⟩
    · exact ⟨h, rfl⟩
  | abandon => exact ⟨h, rfl⟩

/-- A silent ENV's turn does nothing. -/
theorem turn_silent (w : Periph.TurnPoint) (p : Periph) (h : silent p = true) : Periph.turn c w p = p := by
  unfold silent at h
  simp only [beq_iff_eq] at h
  unfold Periph.turn
  rw [h]; rfl

/-- R143: with no address byte under way ENV's turn starts none and does not set `ADDR`. -/
theorem turn_addrQuiet (w : Periph.TurnPoint) (p : Periph) (h : addrUnderway p = false) :
    addrUnderway (Periph.turn c w p) = false
    ∧ (RegValues.flag p.rb .addr = false → RegValues.flag (Periph.turn c w p).rb .addr = false) := by
  cases hs : silent p with
  | true => rw [turn_silent w p hs]; exact ⟨h, id⟩
  | false =>
    have start : (if Periph.isRef p then p.env.holdValid = false else p.env.addrStage = .none) := by
      unfold addrUnderway at h
      rw [hs] at h
      cases r : Periph.isRef p <;> simpa [r] using h
    have key := turn_keeps (c := c) (P := fun q => (if Periph.isRef q then q.env.holdValid = false else q.env.addrStage = .none)
      ∧ (RegValues.flag p.rb .addr = false → RegValues.flag q.rb .addr = false)) ?_ ?_ ?_ w p ⟨start, id⟩
    · refine ⟨?_, key.2⟩
      have k := key.1
      unfold addrUnderway
      cases r : Periph.isRef (Periph.turn c w p) <;> simp [r] at k <;> simp [k]
    · rintro m a ⟨h1, h2⟩ r e
      have rb : Periph.isRef (Periph.takeStep m a) = true := by unfold Periph.isRef at r ⊢; rw [takeStep_sched]; exact r
      simp only [r, rb, if_true] at h1 ⊢
      cases m with
      | start => exact ⟨h1, by simpa [Periph.takeStep, Periph.eStart] using h2⟩
      | addr ack => simp [Periph.stepEnabled, h1] at e
      | drained => exact ⟨h1, by simpa [Periph.takeStep, Periph.eDrained] using h2⟩
      | load => simp [Periph.stepEnabled, h1] at e
      | stop => exact ⟨rfl, by simpa [Periph.takeStep, Periph.eStop] using h2⟩
      | shiftDone ack =>
        refine ⟨h1, ?_⟩
        simp only [Periph.takeStep, Periph.eShiftDone]
        split
        · exact h2
        · simpa using h2
    · rintro m a ⟨h1, h2⟩ r
      have rb : Periph.isRef (Periph.applyMove c m a) = false := by
        unfold Periph.isRef at r ⊢; rw [applyMove_sched]; exact r
      simp only [r, rb, Bool.false_eq_true, if_false] at h1 ⊢
      obtain ⟨k1, k2⟩ := applyMove_stageNone (c := c) m a h1
      exact ⟨k1, fun x => k2.trans (h2 x)⟩
    · rintro a l acks ⟨h1, h2⟩ r
      rw [← r] at h1
      exact ⟨h1, h2⟩

end Sys2Proof.Laws
end

