-- ==== Sys2Proof/Laws/State.lean ====
section
/-! SUPPORT. What each update of State leaves alone and what it sets, one lemma per field, all by `rfl`. -/

namespace Sys2Proof.Laws

open Sys2Proof.Machine

section Reads
variable (r : ReadReg) (s : State)
@[simp] theorem regRead_cfg : (regRead r s).2.cfg = s.cfg := rfl
@[simp] theorem regRead_mtc : (regRead r s).2.mtc = s.mtc := rfl
@[simp] theorem regRead_ports : (regRead r s).2.ports = s.ports := rfl
@[simp] theorem regRead_buf : (regRead r s).2.buf = s.buf := rfl
@[simp] theorem regRead_acc : (regRead r s).2.acc =
    s.acc ++ [.regRead (regAddr s.cfg r.name) (readValue r s.per)] := rfl
theorem regRead_per : (regRead r s).2.per = Periph.turn s.cfg
    (.bus (busCount (s.acc ++ [.regRead (regAddr s.cfg r.name) (readValue r s.per)]))) (readEffect r s.per) := rfl
@[simp] theorem regRead_value : (regRead r s).1 = readValue r s.per := rfl
end Reads

section Writes
variable (r : WriteReg) (v : Word) (s : State)
@[simp] theorem regWrite_cfg : (regWrite r v s).cfg = s.cfg := rfl
@[simp] theorem regWrite_mtc : (regWrite r v s).mtc = s.mtc := rfl
@[simp] theorem regWrite_ports : (regWrite r v s).ports = s.ports := rfl
@[simp] theorem regWrite_buf : (regWrite r v s).buf = s.buf := rfl
theorem regWrite_per : (regWrite r v s).per = Periph.turn s.cfg
    (.bus (busCount (s.acc ++ [.regWrite (regAddr s.cfg r.name) v]))) (writeEffect r v s.per) := rfl
@[simp] theorem regWrite_acc : (regWrite r v s).acc =
    s.acc ++ [.regWrite (regAddr s.cfg r.name) v] := rfl
end Writes

section Rmw
variable (r : RmwReg) (clr set : Word) (s : State)
@[simp] theorem regRmw_cfg : (regRmw r clr set s).cfg = s.cfg := rfl
@[simp] theorem regRmw_ports : (regRmw r clr set s).ports = s.ports := rfl
@[simp] theorem regRmw_buf : (regRmw r clr set s).buf = s.buf := rfl
@[simp] theorem regRmw_mtc :
    (regRmw r clr set s).mtc = { s.mtc with tmp := readValue r.toRead s.per } := rfl
/-- R44: the write half and ENV's turn after it, over what the read half left. -/
theorem regRmw_per : (regRmw r clr set s).per = Periph.turn s.cfg
    (.bus (busCount ((regRead r.toRead s).2.acc
      ++ [.regWrite (regAddr s.cfg r.toWrite.name) (rmwValue (readValue r.toRead s.per) clr set)])))
    (writeEffect r.toWrite (rmwValue (readValue r.toRead s.per) clr set) (regRead r.toRead s).2.per) := rfl
/-- R44: the two entries of a read-modify-write in `ACC`; the value written is made from the value read. -/
theorem regRmw_acc : (regRmw r clr set s).acc = s.acc ++
    [.regRead (regAddr s.cfg r.toRead.name) (readValue r.toRead s.per),
     .regWrite (regAddr s.cfg r.toWrite.name) (rmwValue (readValue r.toRead s.per) clr set)] := by
  show (s.acc ++ [_]) ++ [_] = _
  rw [List.append_assoc]; rfl
end Rmw

section Buffer
variable (a : Word) (s : State)
@[simp] theorem bufRead_cfg : (bufRead a s).2.cfg = s.cfg := rfl
@[simp] theorem bufRead_mtc : (bufRead a s).2.mtc = s.mtc := rfl
@[simp] theorem bufRead_ports : (bufRead a s).2.ports = s.ports := rfl
@[simp] theorem bufRead_buf : (bufRead a s).2.buf = s.buf := rfl
@[simp] theorem bufRead_acc : (bufRead a s).2.acc = s.acc ++ [.bufRead a (Memory.read s.buf a.toNat)] := rfl
theorem bufRead_per : (bufRead a s).2.per = Periph.turn s.cfg .buffer s.per := rfl
@[simp] theorem bufRead_value : (bufRead a s).1 = Memory.read s.buf a.toNat := rfl
end Buffer

section Internal
variable (s : State)
@[simp] theorem internalTurn_cfg : (internalTurn s).cfg = s.cfg := rfl
@[simp] theorem internalTurn_mtc : (internalTurn s).mtc = s.mtc := rfl
@[simp] theorem internalTurn_ports : (internalTurn s).ports = s.ports := rfl
@[simp] theorem internalTurn_buf : (internalTurn s).buf = s.buf := rfl
theorem internalTurn_per : (internalTurn s).per = Periph.turn s.cfg .internal s.per := rfl
@[simp] theorem internalTurn_acc : (internalTurn s).acc = s.acc := rfl
end Internal

section Working
variable (s : State)
@[simp] theorem setUpc_cfg (u : Upc) : (setUpc u s).cfg = s.cfg := rfl
@[simp] theorem setUpc_mtc (u : Upc) : (setUpc u s).mtc = { s.mtc with upc := u } := rfl
@[simp] theorem setUpc_per (u : Upc) : (setUpc u s).per = s.per := rfl
@[simp] theorem setUpc_ports (u : Upc) : (setUpc u s).ports = s.ports := rfl
@[simp] theorem setUpc_buf (u : Upc) : (setUpc u s).buf = s.buf := rfl
@[simp] theorem setUpc_acc (u : Upc) : (setUpc u s).acc = s.acc := rfl
@[simp] theorem bumpIdx_cfg : (bumpIdx s).cfg = s.cfg := rfl
@[simp] theorem bumpIdx_mtc : (bumpIdx s).mtc = { s.mtc with idx := s.mtc.idx + 1 } := rfl
@[simp] theorem bumpIdx_per : (bumpIdx s).per = s.per := rfl
@[simp] theorem bumpIdx_ports : (bumpIdx s).ports = s.ports := rfl
@[simp] theorem bumpIdx_buf : (bumpIdx s).buf = s.buf := rfl
@[simp] theorem bumpIdx_acc : (bumpIdx s).acc = s.acc := rfl
@[simp] theorem setResult_cfg (b : Bool) : (setResult b s).cfg = s.cfg := rfl
@[simp] theorem setResult_mtc (b : Bool) : (setResult b s).mtc = { s.mtc with result := b } := rfl
@[simp] theorem setResult_per (b : Bool) : (setResult b s).per = s.per := rfl
@[simp] theorem setResult_ports (b : Bool) : (setResult b s).ports = s.ports := rfl
@[simp] theorem setResult_buf (b : Bool) : (setResult b s).buf = s.buf := rfl
@[simp] theorem setResult_acc (b : Bool) : (setResult b s).acc = s.acc := rfl
@[simp] theorem setValid_cfg : (setValid s).cfg = s.cfg := rfl
@[simp] theorem setValid_mtc : (setValid s).mtc = { s.mtc with hValid := true } := rfl
@[simp] theorem setValid_per : (setValid s).per = s.per := rfl
@[simp] theorem setValid_ports : (setValid s).ports = s.ports := rfl
@[simp] theorem setValid_buf : (setValid s).buf = s.buf := rfl
@[simp] theorem setValid_acc : (setValid s).acc = s.acc := rfl
@[simp] theorem respond_cfg (a b : Bool) : (respond a b s).cfg = s.cfg := rfl
@[simp] theorem respond_mtc (a b : Bool) : (respond a b s).mtc = { s.mtc with busy := false } := rfl
@[simp] theorem respond_per (a b : Bool) : (respond a b s).per = s.per := rfl
@[simp] theorem respond_ports (a b : Bool) :
    (respond a b s).ports = { s.ports with rsp := some ⟨a, b⟩ } := rfl
@[simp] theorem respond_buf (a b : Bool) : (respond a b s).buf = s.buf := rfl
@[simp] theorem respond_acc (a b : Bool) : (respond a b s).acc = s.acc := rfl
@[simp] theorem accept_cfg (w : CmdWords) (l : List CmdWords) : (accept w l s).cfg = s.cfg := rfl
@[simp] theorem accept_mtc (w : CmdWords) (l : List CmdWords) :
    (accept w l s).mtc = { s.mtc with cmd := w, busy := true } := rfl
@[simp] theorem accept_per (w : CmdWords) (l : List CmdWords) : (accept w l s).per = s.per := rfl
@[simp] theorem accept_ports (w : CmdWords) (l : List CmdWords) :
    (accept w l s).ports = { s.ports with offered := l, rsp := none } := rfl
@[simp] theorem accept_buf (w : CmdWords) (l : List CmdWords) : (accept w l s).buf = s.buf := rfl
@[simp] theorem accept_acc (w : CmdWords) (l : List CmdWords) : (accept w l s).acc = s.acc := rfl
end Working

section Latches
variable (pclk scl : Word) (duty : Duty) (addr : Addr7) (ack : Bool) (s : State)
@[simp] theorem latchConfig_cfg : (latchConfig pclk scl duty addr ack s).cfg = s.cfg := rfl
@[simp] theorem latchConfig_mtc : (latchConfig pclk scl duty addr ack s).mtc =
    { s.mtc with pclk := pclk, hScl := scl, hDuty := duty, hAddr := addr, hAck := ack } := rfl
@[simp] theorem latchConfig_per : (latchConfig pclk scl duty addr ack s).per = s.per := rfl
@[simp] theorem latchConfig_ports : (latchConfig pclk scl duty addr ack s).ports = s.ports := rfl
@[simp] theorem latchConfig_buf : (latchConfig pclk scl duty addr ack s).buf = s.buf := rfl
@[simp] theorem latchConfig_acc : (latchConfig pclk scl duty addr ack s).acc = s.acc := rfl
@[simp] theorem latchTransfer_cfg (ptr len : Word) : (latchTransfer addr ptr len s).cfg = s.cfg := rfl
@[simp] theorem latchTransfer_mtc (ptr len : Word) : (latchTransfer addr ptr len s).mtc =
    { s.mtc with tAddr := addr, tPtr := ptr, tLen := len, idx := 0 } := rfl
@[simp] theorem latchTransfer_per (ptr len : Word) : (latchTransfer addr ptr len s).per = s.per := rfl
@[simp] theorem latchTransfer_ports (ptr len : Word) : (latchTransfer addr ptr len s).ports = s.ports := rfl
@[simp] theorem latchTransfer_buf (ptr len : Word) : (latchTransfer addr ptr len s).buf = s.buf := rfl
@[simp] theorem latchTransfer_acc (ptr len : Word) : (latchTransfer addr ptr len s).acc = s.acc := rfl
end Latches

section Bodies
variable (pclk scl : Word) (duty : Duty) (addr : Addr7) (ack : Bool) (s : State)

@[simp] theorem configAck_cfg : (configAck s).cfg = s.cfg := rfl
@[simp] theorem configAck_ports : (configAck s).ports = s.ports := rfl
@[simp] theorem configAck_buf : (configAck s).buf = s.buf := rfl
@[simp] theorem configAck_mtc : (configAck s).mtc = { s.mtc with tmp := s.per.rb.cr1 } := rfl
@[simp] theorem configFreq_cfg : (configFreq s).cfg = s.cfg := rfl
@[simp] theorem configFreq_ports : (configFreq s).ports = s.ports := rfl
@[simp] theorem configFreq_buf : (configFreq s).buf = s.buf := rfl
@[simp] theorem configFreq_mtc : (configFreq s).mtc = { s.mtc with tmp := s.per.rb.cr2 } := rfl
@[simp] theorem configAddr_cfg : (configAddr s).cfg = s.cfg := rfl
@[simp] theorem configAddr_ports : (configAddr s).ports = s.ports := rfl
@[simp] theorem configAddr_buf : (configAddr s).buf = s.buf := rfl
@[simp] theorem configAddr_mtc : (configAddr s).mtc = s.mtc := rfl
@[simp] theorem configDiv_cfg : (configDiv s).cfg = s.cfg := rfl
@[simp] theorem configDiv_ports : (configDiv s).ports = s.ports := rfl
@[simp] theorem configDiv_buf : (configDiv s).buf = s.buf := rfl
@[simp] theorem configDiv_mtc : (configDiv s).mtc = { s.mtc with tmp := s.per.rb.ccr } := rfl
@[simp] theorem configRise_cfg : (configRise s).cfg = s.cfg := rfl
@[simp] theorem configRise_ports : (configRise s).ports = s.ports := rfl
@[simp] theorem configRise_buf : (configRise s).buf = s.buf := rfl
@[simp] theorem configRise_mtc : (configRise s).mtc = s.mtc := rfl

@[simp] theorem configBody_cfg : (configBody pclk scl duty addr ack s).cfg = s.cfg := by simp [configBody]
@[simp] theorem configBody_ports : (configBody pclk scl duty addr ack s).ports = s.ports := by simp [configBody]
@[simp] theorem configBody_buf : (configBody pclk scl duty addr ack s).buf = s.buf := by simp [configBody]
@[simp] theorem enableBody_cfg (en : Bool) : (enableBody en s).cfg = s.cfg := rfl
@[simp] theorem enableBody_ports (en : Bool) : (enableBody en s).ports = s.ports := rfl
@[simp] theorem enableBody_buf (en : Bool) : (enableBody en s).buf = s.buf := rfl
@[simp] theorem enableBody_mtc (en : Bool) : (enableBody en s).mtc = { s.mtc with tmp := s.per.rb.cr1 } := rfl
@[simp] theorem clockGateBody_cfg : (clockGateBody s).cfg = s.cfg := rfl
@[simp] theorem clockGateBody_ports : (clockGateBody s).ports = s.ports := rfl
@[simp] theorem clockGateBody_buf : (clockGateBody s).buf = s.buf := rfl
@[simp] theorem clockGateBody_mtc : (clockGateBody s).mtc = { s.mtc with tmp := s.per.rb.clken } := rfl
@[simp] theorem clearBody_cfg : (clearBody s).cfg = s.cfg := rfl
@[simp] theorem clearBody_ports : (clearBody s).ports = s.ports := rfl
@[simp] theorem clearBody_buf : (clearBody s).buf = s.buf := rfl
@[simp] theorem clearBody_mtc : (clearBody s).mtc = s.mtc := rfl
@[simp] theorem initBody_cfg : (initBody addr ack scl duty s).cfg = s.cfg := by simp [initBody]
@[simp] theorem initBody_ports : (initBody addr ack scl duty s).ports = s.ports := by simp [initBody]
@[simp] theorem initBody_buf : (initBody addr ack scl duty s).buf = s.buf := by simp [initBody]
@[simp] theorem respondIllegal_cfg : (respondIllegal s).cfg = s.cfg := rfl
@[simp] theorem respondIllegal_mtc : (respondIllegal s).mtc = { s.mtc with busy := false } := rfl
@[simp] theorem respondIllegal_per : (respondIllegal s).per = s.per := rfl
@[simp] theorem respondIllegal_ports :
    (respondIllegal s).ports = { s.ports with rsp := some ⟨true, false⟩ } := rfl
@[simp] theorem respondIllegal_buf : (respondIllegal s).buf = s.buf := rfl
@[simp] theorem respondIllegal_acc : (respondIllegal s).acc = s.acc := rfl
@[simp] theorem respondResult_cfg : (respondResult s).cfg = s.cfg := rfl
@[simp] theorem respondResult_mtc : (respondResult s).mtc = { s.mtc with busy := false } := rfl
@[simp] theorem respondResult_per : (respondResult s).per = s.per := rfl
@[simp] theorem respondResult_ports :
    (respondResult s).ports = { s.ports with rsp := some ⟨false, s.mtc.result⟩ } := rfl
@[simp] theorem respondResult_buf : (respondResult s).buf = s.buf := rfl
@[simp] theorem respondResult_acc : (respondResult s).acc = s.acc := rfl
@[simp] theorem pollFlag_cfg (f : Flag) (a b : Upc) : (pollFlag f a b s).cfg = s.cfg := rfl
@[simp] theorem pollFlag_ports (f : Flag) (a b : Upc) : (pollFlag f a b s).ports = s.ports := rfl
@[simp] theorem pollFlag_buf (f : Flag) (a b : Upc) : (pollFlag f a b s).buf = s.buf := rfl
@[simp] theorem pollFlag_mtc (f : Flag) (a b : Upc) :
    (pollFlag f a b s).mtc = { s.mtc with upc := if bitAt s.per.rb.sr1 f.pos then b else a } := rfl
theorem enableBody_acc (en : Bool) : (enableBody en s).acc = s.acc ++
    [.regRead (regAddr s.cfg .cr1) s.per.rb.cr1,
     .regWrite (regAddr s.cfg .cr1) (rmwValue s.per.rb.cr1 peMask (maskIf en peMask))] :=
  regRmw_acc .cr1 peMask (maskIf en peMask) s
theorem clockGateBody_acc : (clockGateBody s).acc = s.acc ++
    [.regRead s.cfg.clkenAddr s.per.rb.clken,
     .regWrite s.cfg.clkenAddr (rmwValue s.per.rb.clken (clkgateMask s.cfg) (clkgateMask s.cfg))] :=
  regRmw_acc .clken (clkgateMask s.cfg) (clkgateMask s.cfg) s
theorem clearBody_acc : (clearBody s).acc = s.acc ++
    [.regRead (regAddr s.cfg .sr1) s.per.rb.sr1,
     .regRead (regAddr s.cfg .sr2) (sr2Draw (regRead .sr1 s).2.per)] := by
  unfold clearBody
  rw [regRead_acc, regRead_acc, List.append_assoc]
  rfl
@[simp] theorem pollFlag_acc (f : Flag) (a b : Upc) :
    (pollFlag f a b s).acc = s.acc ++ [.regRead (regAddr s.cfg .sr1) s.per.rb.sr1] := rfl
end Bodies

end Sys2Proof.Laws
end

