-- ==== Sys2Proof/Laws/Ops.lean ====
section
/-! SUPPORT. What the access primitives do to the peripheral (20_memory.md R44 to R46): the effect of the access, then at most
what ENV may change. -/

namespace Sys2Proof.Laws

open Sys2Proof.Machine Sys2Proof.Safety

/-- Two peripherals with the same scheduler have the same kind of ENV. -/
theorem isRef_of_sched {p q : Periph} (h : q.env.sched = p.env.sched) : Periph.isRef q = Periph.isRef p := by
  unfold Periph.isRef; rw [h]

/-! ## Reads -/

/-- R45, R152: of ENV's own state the hook changes the phase alone. -/
theorem addrClearHook_env (p : Periph) : (Periph.addrClearHook p).env =
    { p.env with phase := if Periph.addrPhaseEnds p then .data else p.env.phase } := by
  unfold Periph.addrClearHook; split <;> rfl

theorem addrClearHook_sched (p : Periph) : (Periph.addrClearHook p).env.sched = p.env.sched := by
  unfold Periph.addrClearHook; split <;> rfl

theorem drHook_sched (b : Byte) (p : Periph) : (Periph.drHook b p).env.sched = p.env.sched := by
  unfold Periph.drHook; split
  · rfl
  · split <;> rfl

theorem disableHook_sched (p : Periph) : (Periph.disableHook p).env.sched = p.env.sched := by
  unfold Periph.disableHook; split <;> rfl

theorem readEffect_sched (r : ReadReg) (p : Periph) : (readEffect r p).env.sched = p.env.sched := by
  cases r <;> try rfl
  show (sr2ReadEffect p).env.sched = _
  unfold sr2ReadEffect
  dsimp only
  split
  · rw [addrClearHook_sched]
  · rfl

theorem writeEffect_sched (r : WriteReg) (v : Word) (p : Periph) : (writeEffect r v p).env.sched = p.env.sched := by
  cases r <;> try rfl
  · show (cr1WriteEffect v p).env.sched = _
    unfold cr1WriteEffect
    dsimp only
    split
    · rw [disableHook_sched]
    · rfl
  · exact drHook_sched _ _

@[simp] theorem readEffect_isRef (r : ReadReg) (p : Periph) : Periph.isRef (readEffect r p) = Periph.isRef p :=
  isRef_of_sched (readEffect_sched r p)

@[simp] theorem writeEffect_isRef (r : WriteReg) (v : Word) (p : Periph) :
    Periph.isRef (writeEffect r v p) = Periph.isRef p :=
  isRef_of_sched (writeEffect_sched r v p)

/-- An access leaves the schedule alone; only the turn after it may advance one. -/
@[simp] theorem regRead_isScheduled (r : ReadReg) (s : State) :
    Periph.isScheduled (regRead r s).2.per = Periph.isScheduled s.per := by
  rw [regRead_per, turn_isScheduled]
  unfold Periph.isScheduled
  rw [readEffect_sched]

/-- R158: under its two schedulers `SR2` reads as 0. -/
theorem sr2Draw_of_isScheduled {p : Periph} (h : Periph.isScheduled p = true) : sr2Draw p = 0 := by
  unfold sr2Draw; rw [if_pos h]

/-- R45: a read does its side effect, then ENV moves. -/
theorem regRead_envOnly (r : ReadReg) (s : State) : EnvOnly (readEffect r s.per) (regRead r s).2.per := by
  rw [regRead_per]; exact turn_envOnly _ _

@[simp] theorem regRead_isRef (r : ReadReg) (s : State) :
    Periph.isRef (regRead r s).2.per = Periph.isRef s.per :=
  (turn_isRef _ _).trans (readEffect_isRef r s.per)

/-- The read half of a read-modify-write disarms the two-step clear, or for `CLKEN` does nothing (R45). -/
theorem readEffect_rmw (r : RmwReg) (p : Periph) :
    readEffect r.toRead p = if r = .clken then p else { p with clrArmed := false } := by
  cases r <;> rfl

/-- R152: the hook changes `TXE` and the phase only. -/
theorem addrClearHook_envOnly (p : Periph) : EnvOnly p (Periph.addrClearHook p) := by
  unfold Periph.addrClearHook
  split
  · cases Periph.isRef p
    · exact EnvOnly.of_sr1 p.rb.sr1 rfl rfl id ⟨[], (List.append_nil _).symm⟩
    · exact EnvOnly.of_sr1 _ rfl rfl (addr_kept_putBit p.rb .txe true (by simp)) ⟨[], (List.append_nil _).symm⟩
  · exact EnvOnly.refl p

/-- R45 for `SR2`: the content drawn, `ADDR` cleared when armed, disarmed; otherwise at most what ENV may change. -/
theorem sr2ReadEffect_envOnly (p : Periph) :
    EnvOnly { p with
      rb := { (if p.clrArmed then RegValues.setFlag p.rb .addr false else p.rb) with sr2 := sr2Draw p }
      clrArmed := false } (sr2ReadEffect p) := by
  unfold sr2ReadEffect
  dsimp only
  have wire : ∃ es, p.env.wire = p.env.wire ++ es := ⟨[], (List.append_nil _).symm⟩
  cases h : p.clrArmed
  · exact EnvOnly.of_sr1 p.rb.sr1 rfl rfl id wire
  · rw [if_pos rfl, if_pos rfl]
    refine EnvOnly.trans ?_ (addrClearHook_envOnly _)
    exact EnvOnly.of_sr1 (putBit p.rb.sr1 Flag.addr.pos false) rfl rfl (fun x => x) wire

/-- A read of `SR2` leaves an address byte under way as far as it has come. -/
theorem sr2ReadEffect_addrUnderway (p : Periph) : addrUnderway (sr2ReadEffect p) = addrUnderway p := by
  have r : Periph.isRef (sr2ReadEffect p) = Periph.isRef p := readEffect_isRef .sr2 p
  have e : (sr2ReadEffect p).env.holdValid = p.env.holdValid ∧ (sr2ReadEffect p).env.addrStage = p.env.addrStage := by
    unfold sr2ReadEffect
    dsimp only
    split
    · rw [addrClearHook_env]; exact ⟨rfl, rfl⟩
    · exact ⟨rfl, rfl⟩
  have q : silent (sr2ReadEffect p) = silent p := by
    unfold silent
    rw [show (sr2ReadEffect p).env.sched = p.env.sched from readEffect_sched .sr2 p]
  unfold addrUnderway
  rw [r, e.1, e.2, q]

/-- R35, R45: an armed read of `SR2` clears `ADDR`. -/
theorem sr2ReadEffect_addr {p : Periph} (h : p.clrArmed = true) :
    RegValues.flag (sr2ReadEffect p).rb .addr = false := by
  have hook : ∀ q : Periph, RegValues.flag q.rb .addr = false →
      RegValues.flag (Periph.addrClearHook q).rb .addr = false := by
    intro q hq
    unfold Periph.addrClearHook
    split
    · cases Periph.isRef q
      · exact hq
      · simpa using hq
    · exact hq
  unfold sr2ReadEffect
  dsimp only
  rw [if_pos h]
  exact hook _ (by simp)

/-! ## Writes -/

/-- R46: a write does its side effect, then ENV moves. -/
theorem regWrite_envOnly (r : WriteReg) (v : Word) (s : State) :
    EnvOnly (writeEffect r v s.per) (regWrite r v s).per := by
  rw [regWrite_per]; exact turn_envOnly _ _

@[simp] theorem regWrite_isRef (r : WriteReg) (v : Word) (s : State) :
    Periph.isRef (regWrite r v s).per = Periph.isRef s.per :=
  (turn_isRef _ _).trans (writeEffect_isRef r v s.per)

/-- Disarming on both sides. -/
theorem disarm_envOnly {p q : Periph} (h : EnvOnly p q) :
    EnvOnly { p with clrArmed := false } { q with clrArmed := false } :=
  ⟨h.cr1Bits, h.start, h.stop, h.cr2, h.oar1, h.oar2, h.dr, h.sr2, h.ccr, h.trise, h.fltr, h.clken, rfl, h.addr,
    h.wire⟩

/-- R157: what disabling does to each register and to ENV. -/
theorem disableHook_envOnly {p q : Periph} (h : EnvOnly p q) (k : Periph.isRef q = Periph.isRef p) :
    EnvOnly (Periph.disableHook p) (Periph.disableHook q) := by
  unfold Periph.disableHook
  rw [k]
  cases Periph.isRef p
  · exact h
  · exact ⟨h.cr1Bits, h.start, h.stop, h.cr2, h.oar1, h.oar2, h.dr, h.sr2, h.ccr, h.trise, h.fltr, h.clken, h.armed,
      fun x => by simp at x, h.wire⟩

/-- A write other than to `DR` does the same to two peripherals that differ at most by what ENV may change. -/
theorem writeEffect_mono {p q : Periph} (r : WriteReg) (hr : r ≠ .dr) (v : Word) (h : EnvOnly p q)
    (k : Periph.isRef q = Periph.isRef p) : EnvOnly (writeEffect r v p) (writeEffect r v q) := by
  have same : ∀ x : Bool, x = true → x = true := fun _ h => h
  cases r with
  | cr1 =>
    show EnvOnly (cr1WriteEffect v p) (cr1WriteEffect v q)
    have base : EnvOnly { p with rb := { p.rb with cr1 := v }, clrArmed := false }
        { q with rb := { q.rb with cr1 := v }, clrArmed := false } :=
      ⟨fun _ _ _ => rfl, same _, same _, h.cr2, h.oar1, h.oar2, h.dr, h.sr2, h.ccr, h.trise, h.fltr, h.clken, rfl, h.addr,
        h.wire⟩
    have pe : (RegValues.pe q.rb && !RegValues.pe { q.rb with cr1 := v }) =
        (RegValues.pe p.rb && !RegValues.pe { p.rb with cr1 := v }) := by rw [h.pe]; rfl
    unfold cr1WriteEffect
    dsimp only at pe ⊢
    rw [pe]
    split
    · exact disableHook_envOnly base k
    · exact base
  | cr2 =>
    exact ⟨h.cr1Bits, h.start, h.stop, rfl, h.oar1, h.oar2, h.dr, h.sr2, h.ccr, h.trise, h.fltr, h.clken, rfl, h.addr,
      h.wire⟩
  | oar1 =>
    exact ⟨h.cr1Bits, h.start, h.stop, h.cr2, rfl, h.oar2, h.dr, h.sr2, h.ccr, h.trise, h.fltr, h.clken, rfl, h.addr,
      h.wire⟩
  | dr => exact absurd rfl hr
  | ccr =>
    exact ⟨h.cr1Bits, h.start, h.stop, h.cr2, h.oar1, h.oar2, h.dr, h.sr2, rfl, h.trise, h.fltr, h.clken, rfl, h.addr,
      h.wire⟩
  | trise =>
    exact ⟨h.cr1Bits, h.start, h.stop, h.cr2, h.oar1, h.oar2, h.dr, h.sr2, h.ccr, rfl, h.fltr, h.clken, rfl, h.addr,
      h.wire⟩
  | clken =>
    exact ⟨h.cr1Bits, h.start, h.stop, h.cr2, h.oar1, h.oar2, h.dr, h.sr2, h.ccr, h.trise, h.fltr, rfl, h.armed, h.addr,
      h.wire⟩

/-- R44, R192: a read-modify-write writes what it makes of the value read, whatever ENV did between its halves; then ENV moves
again. -/
theorem regRmw_envOnly (r : RmwReg) (clr set : Word) (s : State) :
    EnvOnly (writeEffect r.toWrite (rmwValue (readValue r.toRead s.per) clr set) (readEffect r.toRead s.per))
      (regRmw r clr set s).per := by
  have h1 := regRead_envOnly r.toRead s
  have h2 := writeEffect_mono r.toWrite (by cases r <;> decide) (rmwValue (readValue r.toRead s.per) clr set) h1
    (turn_isRef _ _)
  exact h2.trans (regWrite_envOnly r.toWrite _ (setTmp _ (regRead r.toRead s).2))

@[simp] theorem regRmw_isRef (r : RmwReg) (clr set : Word) (s : State) :
    Periph.isRef (regRmw r clr set s).per = Periph.isRef s.per :=
  (regWrite_isRef _ _ _).trans (regRead_isRef r.toRead s)

/-- A `CR1` write that leaves `PE` as it is does nothing but store (R46). -/
theorem cr1WriteEffect_of_pe {v : Word} {p : Periph} (h : bitAt v posPe = RegValues.pe p.rb) :
    cr1WriteEffect v p = { p with rb := { p.rb with cr1 := v }, clrArmed := false } := by
  unfold cr1WriteEffect
  dsimp only
  have : RegValues.pe { p.rb with cr1 := v } = RegValues.pe p.rb := h
  rw [this]
  cases RegValues.pe p.rb <;> rfl

/-- A read-modify-write of `CR1` that does not own `PE` (R84, R118, R129). -/
theorem rmwCr1_envOnly (clr set : Word) (s : State) (h1 : bitAt clr posPe = false) (h2 : bitAt set posPe = false) :
    EnvOnly { s.per with rb := { s.per.rb with cr1 := rmwValue s.per.rb.cr1 clr set }, clrArmed := false }
      (regRmw .cr1 clr set s).per := by
  have h := regRmw_envOnly .cr1 clr set s
  have e : bitAt (rmwValue s.per.rb.cr1 clr set) posPe = RegValues.pe s.per.rb := by
    rw [bitAt_rmwValue, h1, h2]; simp; rfl
  have e2 := cr1WriteEffect_of_pe (p := { s.per with clrArmed := false }) e
  show EnvOnly _ _
  have : writeEffect RmwReg.cr1.toWrite (rmwValue (readValue RmwReg.cr1.toRead s.per) clr set)
      (readEffect RmwReg.cr1.toRead s.per) =
      { s.per with rb := { s.per.rb with cr1 := rmwValue s.per.rb.cr1 clr set }, clrArmed := false } := e2
  rw [this] at h
  exact h

/-! ## `DR` and the buffer -/

/-- R144, R150: a `DR` write changes no storage register, neither request, and does not clear a latched `ADDR`; the wire is as
before. -/
theorem drHook_envOnly (b : Byte) (p : Periph) : EnvOnly p (Periph.drHook b p) := by
  have noWire : ∃ es, p.env.wire = p.env.wire ++ es := ⟨[], (List.append_nil _).symm⟩
  unfold Periph.drHook
  split
  · exact EnvOnly.of_sr1 _ rfl rfl
      (addr_kept_putBit p.rb (if Periph.isRef p then .sb else .txe) false (by cases Periph.isRef p <;> simp)) noWire
  · split
    · cases Periph.isRef p
      · exact EnvOnly.of_sr1 _ rfl rfl (addr_kept_putBit p.rb .txe false (by simp)) noWire
      · exact EnvOnly.of_sr1 _ rfl rfl (fun h => addr_kept_putBit (RegValues.setFlag p.rb .txe false) .btf false (by simp)
          (by simpa using h)) noWire
    · exact EnvOnly.refl p

/-- A `DR` write: disarmed, and otherwise at most what ENV may change. -/
theorem regWriteDr_envOnly (v : Word) (s : State) :
    EnvOnly { s.per with clrArmed := false } (regWrite .dr v s).per :=
  (drHook_envOnly _ _).trans (regWrite_envOnly .dr v s)

theorem bufRead_envOnly (a : Word) (s : State) : EnvOnly s.per (bufRead a s).2.per := by
  rw [bufRead_per]; exact turn_envOnly _ _

@[simp] theorem bufRead_isRef (a : Word) (s : State) : Periph.isRef (bufRead a s).2.per = Periph.isRef s.per :=
  turn_isRef _ _

theorem internalTurn_envOnly (s : State) : EnvOnly s.per (internalTurn s).per := by
  rw [internalTurn_per]; exact turn_envOnly _ _

@[simp] theorem internalTurn_isRef (s : State) : Periph.isRef (internalTurn s).per = Periph.isRef s.per :=
  turn_isRef _ _

/-- Under the reference ENV every `DR` write has a described effect (R150). -/
theorem drWriteDescribed_of_isRef {p : Periph} (h : Periph.isRef p = true) : Periph.drWriteDescribed p = true := by
  unfold Periph.drWriteDescribed; simp [h]

/-! ## The clock gate -/

theorem whenClocked_next {s t : State} {r : Result} (h : whenClocked s r = .next t) :
    RegValues.clkgate s.cfg s.per.rb = true ∧ r = .next t := by
  unfold whenClocked at h
  split at h
  · exact ⟨by assumption, h⟩
  · cases h

theorem whenClocked_of_gate {s : State} (r : Result) (h : RegValues.clkgate s.cfg s.per.rb = true) :
    whenClocked s r = r := by
  unfold whenClocked; rw [if_pos h]

theorem drWriteThen_of_described {b : Byte} {s : State} (k : State → State)
    (h : Periph.drWriteDescribed s.per = true) :
    drWriteThen b s k = .next (k (regWrite .dr (b.setWidth 32) s)) := by
  unfold drWriteThen; rw [if_pos h]

theorem drWriteThen_next {b : Byte} {s t : State} {k : State → State} (h : drWriteThen b s k = .next t) :
    Periph.drWriteDescribed s.per = true ∧ k (regWrite .dr (b.setWidth 32) s) = t := by
  unfold drWriteThen at h
  split at h
  · exact ⟨by assumption, by injection h⟩
  · cases h

end Sys2Proof.Laws
end

