-- ==== Sys2Proof/Laws/Exec.lean ====
section
/-! SUPPORT. Everything an instruction can do to the peripheral: turns of ENV, effects of reads, effects of writes, in some
order. A property that each of the three keeps is kept by every instruction. -/

namespace Sys2Proof.Laws

open Sys2Proof.Machine

/-- The one state an instruction can go on to. -/
def nextState (i : Instr) (s : State) : State :=
  match i with
  | .configure pclk scl duty addr ack => respond false false (configBody pclk scl duty addr ack s)
  | .setEnabled en => respond false false (enableBody en s)
  | .clockGateEnable => respond false false (clockGateBody s)
  | .hasFlag sel =>
    match Flag.ofSelector sel with
    | some f => respondResult (setResult (bitAt (regRead .sr1 s).1 f.pos) (regRead .sr1 s).2)
    | none => respondIllegal s
  | .clearAddr => respond false false (clearBody s)
  | .masterSend addr ptr len => setUpc .u1 (latchTransfer addr ptr len s)
  | .initPeripheral addr ack scl duty => respond false false (initBody addr ack scl duty s)
  | .seqIdle => internalTurn s
  | .seqStartSet => setUpc .u2 (regRmw .cr1 startMask startMask s)
  | .seqWaitSb => pollFlag .sb .u2 .u3 s
  | .seqAddrWrite => setUpc .u4 (regWrite .dr ((addrByte s.mtc.tAddr).setWidth 32) s)
  | .seqWaitAddr => pollFlag .addr .u4 .u5 s
  | .seqClrSr1 => setUpc .u6 (regRead .sr1 s).2
  | .seqClrSr2 => setUpc .u7 (regRead .sr2 s).2
  | .seqLoopTest => setUpc (if s.mtc.idx.toNat < s.mtc.tLen.toNat then .u8 else .u10) (internalTurn s)
  | .seqWaitTxe => pollFlag .txe .u8 .u9 s
  | .seqDataWrite =>
    setUpc .u7 (bumpIdx (regWrite .dr ((bufRead (bufferAddr s.mtc) s).1.setWidth 32) (bufRead (bufferAddr s.mtc) s).2))
  | .seqDrainTxe => pollFlag .txe .u10 .u11 s
  | .seqWaitBtf => pollFlag .btf .u11 .u12 s
  | .seqStopSet => setUpc .u0 (respond false false (regRmw .cr1 stopMask stopMask s))

/-- Inversion: an instruction that goes on goes on to `nextState`. -/
theorem exec_next {i : Instr} {s t : State} (e : exec i s = .next t) : t = nextState i s := by
  have clocked : ∀ {u : State}, whenClocked s (.next u) = .next t → t = u := fun h =>
    (Host.Outcome.next.inj (whenClocked_next h).2).symm
  have dr : ∀ {b : Byte} {u : State} {k : State → State}, whenClocked s (drWriteThen b u k) = .next t →
      t = k (regWrite .dr (b.setWidth 32) u) := fun h => (drWriteThen_next (whenClocked_next h).2).2.symm
  cases i with
  | configure => exact clocked e
  | setEnabled => exact clocked e
  | clockGateEnable => exact (Host.Outcome.next.inj e).symm
  | hasFlag sel =>
    simp only [exec, execHasFlag] at e
    simp only [nextState]
    cases h : Flag.ofSelector sel with
    | none => rw [h] at e; exact (Host.Outcome.next.inj e).symm
    | some f => rw [h] at e; exact clocked e
  | clearAddr => exact clocked e
  | masterSend =>
    simp only [exec, execMasterSend] at e
    split at e
    · cases e
    · exact (Host.Outcome.next.inj e).symm
  | initPeripheral => exact (Host.Outcome.next.inj e).symm
  | seqIdle => exact (Host.Outcome.next.inj e).symm
  | seqStartSet => exact clocked e
  | seqWaitSb => exact clocked e
  | seqAddrWrite => exact dr e
  | seqWaitAddr => exact clocked e
  | seqClrSr1 => exact clocked e
  | seqClrSr2 => exact clocked e
  | seqLoopTest => exact (Host.Outcome.next.inj e).symm
  | seqWaitTxe => exact clocked e
  | seqDataWrite => exact dr e
  | seqDrainTxe => exact clocked e
  | seqWaitBtf => exact clocked e
  | seqStopSet => exact clocked e

section Kept
variable {P : Periph → Prop}
  (turn : ∀ c w p, P p → P (Periph.turn c w p))
  (read : ∀ r p, P p → P (readEffect r p))
  (write : ∀ r v p, P p → P (writeEffect r v p))
include turn read

theorem regRead_keeps (r : ReadReg) (s : State) (h : P s.per) : P (regRead r s).2.per := by
  rw [regRead_per]; exact turn _ _ _ (read r _ h)

theorem pollFlag_keeps (f : Flag) (a b : Upc) (s : State) (h : P s.per) : P (pollFlag f a b s).per :=
  regRead_keeps turn read .sr1 s h

theorem clearBody_keeps (s : State) (h : P s.per) : P (clearBody s).per :=
  regRead_keeps turn read .sr2 _ (regRead_keeps turn read .sr1 s h)

include write

omit read in
theorem regWrite_keeps (r : WriteReg) (v : Word) (s : State) (h : P s.per) : P (regWrite r v s).per := by
  rw [regWrite_per]; exact turn _ _ _ (write r v _ h)

theorem regRmw_keeps (r : RmwReg) (clr set : Word) (s : State) (h : P s.per) : P (regRmw r clr set s).per :=
  regWrite_keeps turn write _ _ _ (regRead_keeps turn read r.toRead s h)

theorem configBody_keeps (pclk scl : Word) (duty : Duty) (addr : Addr7) (ack : Bool) (s : State) (h : P s.per) :
    P (configBody pclk scl duty addr ack s).per := by
  refine regWrite_keeps turn write .trise _ _ ?_
  refine regRmw_keeps turn read write .ccr _ _ _ ?_
  refine regWrite_keeps turn write .oar1 _ _ ?_
  refine regRmw_keeps turn read write .cr2 _ _ _ ?_
  exact regRmw_keeps turn read write .cr1 _ _ _ h

theorem initBody_keeps (addr : Addr7) (ack : Bool) (scl : Word) (duty : Duty) (s : State) (h : P s.per) :
    P (initBody addr ack scl duty s).per := by
  have h1 : P (clockGateBody s).per := regRmw_keeps turn read write .clken _ _ s h
  have h2 : P (enableBody true (clockGateBody s)).per := regRmw_keeps turn read write .cr1 _ _ _ h1
  unfold initBody
  exact configBody_keeps turn read write _ scl duty addr ack _ h2

/-- The induction principle over what an instruction does to the peripheral. -/
theorem exec_keeps {i : Instr} {s t : State} (e : exec i s = .next t) (h : P s.per) : P t.per := by
  rw [exec_next e]
  cases i with
  | configure pclk scl duty addr ack => exact configBody_keeps turn read write pclk scl duty addr ack s h
  | setEnabled en => exact regRmw_keeps turn read write .cr1 _ _ s h
  | clockGateEnable => exact regRmw_keeps turn read write .clken _ _ s h
  | hasFlag sel =>
    simp only [nextState]
    split
    · exact regRead_keeps turn read .sr1 s h
    · exact h
  | clearAddr => exact clearBody_keeps turn read s h
  | masterSend => exact h
  | initPeripheral addr ack scl duty =>
    unfold nextState
    rw [respond_per]
    exact initBody_keeps turn read write addr ack scl duty s h
  | seqIdle =>
    unfold nextState
    rw [internalTurn_per]; exact turn _ _ _ h
  | seqStartSet => exact regRmw_keeps turn read write .cr1 _ _ s h
  | seqWaitSb => exact pollFlag_keeps turn read _ _ _ s h
  | seqAddrWrite => exact regWrite_keeps turn write .dr _ s h
  | seqWaitAddr => exact pollFlag_keeps turn read _ _ _ s h
  | seqClrSr1 => exact regRead_keeps turn read .sr1 s h
  | seqClrSr2 => exact regRead_keeps turn read .sr2 s h
  | seqLoopTest =>
    unfold nextState
    rw [setUpc_per, internalTurn_per]; exact turn _ _ _ h
  | seqWaitTxe => exact pollFlag_keeps turn read _ _ _ s h
  | seqDataWrite =>
    refine regWrite_keeps turn write .dr _ _ ?_
    rw [bufRead_per]; exact turn _ _ _ h
  | seqDrainTxe => exact pollFlag_keeps turn read _ _ _ s h
  | seqWaitBtf => exact pollFlag_keeps turn read _ _ _ s h
  | seqStopSet => exact regRmw_keeps turn read write .cr1 _ _ s h

end Kept

/-- No instruction changes what kind of ENV is behind the registers. -/
theorem exec_isRef {i : Instr} {s t : State} (e : exec i s = .next t) : Periph.isRef t.per = Periph.isRef s.per :=
  exec_keeps (P := fun p => Periph.isRef p = Periph.isRef s.per)
    (fun _ w p h => (turn_isRef w p).trans h)
    (fun r p h => (readEffect_isRef r p).trans h)
    (fun r v p h => (writeEffect_isRef r v p).trans h) e rfl

end Sys2Proof.Laws
end

