-- ==== Sys2Proof/Laws/Memory.lean ====
section
/-! SUPPORT. The buffer memory's canonical form (10_state.md R32, R34): every memory operation keeps it, and the memory after
reset has it. -/

namespace Sys2Proof.Laws

open Sys2Proof.Machine

/-- A canonical form from a higher address on is one from a lower address on. -/
theorem wfFrom_mono {m : Memory} {lo hi : Nat} (h : lo ≤ hi) (w : Memory.wfFrom hi m = true) :
    Memory.wfFrom lo m = true := by
  cases m with
  | nil => rfl
  | cons c rest =>
    simp only [Memory.wfFrom, Bool.and_eq_true, decide_eq_true_eq] at w ⊢
    exact ⟨⟨⟨h.trans w.1.1.1, w.1.1.2⟩, w.1.2⟩, w.2⟩

/-- Below its first address a canonical memory reads as unlisted. -/
theorem read_below {m : Memory} {lo a : Nat} (w : Memory.wfFrom lo m = true) (h : a < lo) :
    Memory.read m a = Memory.unlisted := by
  induction m generalizing lo with
  | nil => rfl
  | cons c rest ih =>
    simp only [Memory.wfFrom, Bool.and_eq_true, decide_eq_true_eq] at w
    unfold Memory.read
    rw [if_neg (by omega)]
    exact ih w.2 (by omega)

/-- A write keeps the canonical form from an address on. -/
theorem write_wfFrom {m : Memory} {lo a : Nat} (v : Byte) (w : Memory.wfFrom lo m = true) (h : lo ≤ a)
    (b : a < 2 ^ 32) : Memory.wfFrom lo (Memory.write m a v) = true := by
  induction m generalizing lo with
  | nil =>
    unfold Memory.write
    by_cases e : v = Memory.unlisted
    · simp [e, Memory.wfFrom]
    · simpa [e, Memory.wfFrom, h] using b
  | cons c rest ih =>
    obtain ⟨d, x⟩ := c
    have w' := w
    simp only [Memory.wfFrom, Bool.and_eq_true, decide_eq_true_eq] at w
    obtain ⟨⟨⟨w1, w2⟩, w3⟩, w4⟩ := w
    unfold Memory.write
    by_cases c1 : a < d
    · rw [if_pos c1]
      by_cases e : v = Memory.unlisted
      · rw [if_pos e]; exact w'
      · rw [if_neg e]
        simp only [Memory.wfFrom, Bool.and_eq_true, decide_eq_true_eq]
        exact ⟨⟨⟨h, b⟩, by simpa using e⟩, ⟨⟨⟨c1, w2⟩, w3⟩, w4⟩⟩
    · rw [if_neg c1]
      by_cases c2 : a = d
      · rw [if_pos c2]
        by_cases e : v = Memory.unlisted
        · rw [if_pos e]; exact wfFrom_mono (by omega) w4
        · rw [if_neg e]
          simp only [Memory.wfFrom, Bool.and_eq_true, decide_eq_true_eq]
          exact ⟨⟨⟨h, b⟩, by simpa using e⟩, by rw [c2]; exact w4⟩
      · rw [if_neg c2]
        simp only [Memory.wfFrom, Bool.and_eq_true, decide_eq_true_eq]
        exact ⟨⟨⟨w1, w2⟩, w3⟩, ih w4 (by omega)⟩

/-- A write keeps the canonical form. -/
theorem write_wf {m : Memory} {a : Nat} (v : Byte) (w : Memory.wf m = true) (b : a < 2 ^ 32) :
    Memory.wf (Memory.write m a v) = true :=
  write_wfFrom v w (Nat.zero_le a) b

/-- Memory after reset is canonical. -/
theorem reset_memory_wf (c : Config) : Memory.wf (State.resetWith c).buf = true := rfl

/-- The host's move keeps the canonical form. -/
theorem hostTurn_wf (s : State) (w : Memory.wf s.buf = true) : Memory.wf (hostTurn s).buf = true := by
  unfold hostTurn
  cases h : s.ports.host with
  | nil => exact w
  | cons m rest =>
    cases m with
    | poke a b => exact write_wf b w a.isLt
    | idle => exact w
    | offer c => exact w
    | clock hz => exact w
    | rst => exact w

end Sys2Proof.Laws
end

