-- ==== Sys2Proof/Laws/Operands.lean ====
section
/-! SUPPORT. The values CONFIGURE writes (40_timing_configurator.md R83 to R90), as numbers. -/

namespace Sys2Proof.Laws

open Sys2Proof.Machine

/-- R84: what the write half of the `CR1` access makes of the value read. -/
theorem rmwValue_ack (w : Word) (ack : Bool) : rmwValue w ackMask (maskIf ack ackMask) =
    (w &&& ~~~0x0400#32) ||| (if ack then 0x0400#32 else 0#32) := by
  cases ack <;> rfl

/-- R100: what the write half of the `CR1` access makes of the value read. -/
theorem rmwValue_pe (w : Word) (en : Bool) : rmwValue w peMask (maskIf en peMask) =
    (w &&& ~~~0x0001#32) ||| (if en then 0x0001#32 else 0#32) := by
  cases en <;> rfl

/-- R83. -/
theorem rmwValue_freq (w pclk : Word) : rmwValue w freqMask ((freqField pclk).setWidth 32) =
    (w &&& ~~~0x003F#32) ||| BitVec.ofNat 32 ((pclk.toNat / 1000000) % 64) := by
  unfold freqField
  rw [setWidth_ofNat, udiv_eq]
  rfl

/-- R63, R85. -/
theorem oar1Value_eq (a : Addr7) : oar1Value a = BitVec.ofNat 32 (a.toNat * 2 + 0x4000) := by
  revert a; decide

/-- R64. -/
theorem addrByte_eq (a : Addr7) : (addrByte a).setWidth 32 = BitVec.ofNat 32 (a.toNat * 2) := by
  revert a; decide

/-- R86. -/
theorem fastMode_of_le {scl : Word} (h : scl.toNat ≤ 100000) : fastMode scl = false := by
  unfold fastMode
  simpa using h

/-- R86. -/
theorem fastMode_of_gt {scl : Word} (h : ¬ scl.toNat ≤ 100000) : fastMode scl = true := by
  unfold fastMode
  simpa using h

/-- R87: standard mode. -/
theorem rmwValue_ccr_standard (w pclk scl : Word) (duty : Duty) (n : Nat) (h : scl.toNat ≤ 100000) :
    rmwValue w (ccrMask scl) (ccrBits n pclk scl duty) =
      (w &&& ~~~0x8FFF#32) ||| BitVec.ofNat 32 ((pclk.toNat / ((2 * scl.toNat) % 2 ^ n)) % 4096) := by
  unfold ccrMask ccrBits divSm mulW
  rw [fastMode_of_le h, if_neg (by simp), if_neg (by simp), setWidth_ofNat, udiv_eq]
  rfl

/-- R88: fast mode. -/
theorem rmwValue_ccr_fast (w pclk scl : Word) (duty : Duty) (n : Nat) (h : ¬ scl.toNat ≤ 100000) :
    rmwValue w (ccrMask scl) (ccrBits n pclk scl duty) =
      (w &&& ~~~0xCFFF#32) ||| (0x8000#32 ||| (if duty = .high then 0x4000#32 else 0#32)
        ||| BitVec.ofNat 32 ((pclk.toNat / (((if duty = .high then 25 else 3) * scl.toNat) % 2 ^ n)) % 4096)) := by
  unfold ccrMask ccrBits divFm mulW
  rw [fastMode_of_gt h, if_pos rfl, if_pos rfl, setWidth_ofNat, udiv_eq]
  cases duty <;> rfl

/-- R89: standard mode. -/
theorem triseField_standard (pclk scl : Word) (n : Nat) (h : scl.toNat ≤ 100000) :
    (triseField n pclk scl).setWidth 32 = BitVec.ofNat 32 ((pclk.toNat / 1000000 + 1) % 64) := by
  unfold triseField triseSm
  rw [fastMode_of_le h, if_neg (by simp), setWidth_ofNat, udiv_eq]
  rfl

/-- R90: fast mode. -/
theorem triseField_fast (pclk scl : Word) (n : Nat) (h : ¬ scl.toNat ≤ 100000) :
    (triseField n pclk scl).setWidth 32 =
      BitVec.ofNat 32 ((((pclk.toNat * 300) % 2 ^ n) / 1000000000 + 1) % 64) := by
  unfold triseField triseFm mulW
  rw [fastMode_of_gt h, if_pos rfl, setWidth_ofNat, udiv_eq]
  rfl

end Sys2Proof.Laws
end

