-- ==== Sys2Proof/Laws/PerInstr.lean ====
section
/-! SUPPORT. The laws made per instruction. Family `Opcode`: an instruction is encoded either as a command with one of the seven
opcodes and the reserved bits 0 (30_encoding.md R68, R69), or as a micro-step with one of the thirteen codes (R74). -/

namespace Sys2Proof.Laws

/-- The encoding of an instruction is a command with a used opcode and reserved bits 0, or a used micro-step code. -/
def Opcode.Statement (i : Instr) : Prop :=
  match encode i with
  | .cmd w => 1 ≤ (W0.op w.w0).toNat ∧ (W0.op w.w0).toNat ≤ 7 ∧ W0.reserved w.w0 = 0
  | .micro code => code.toNat ≤ 12

/-- Family `Opcode` for a command whose first word is a packing with a used opcode. -/
theorem opcode_of_pack {op flag : BitVec 4} {en ack duty : Bool} {addr : Addr7} (lo : 1 ≤ op.toNat) (hi : op.toNat ≤ 7) :
    1 ≤ (W0.op (W0.pack op flag en ack duty addr)).toNat ∧ (W0.op (W0.pack op flag en ack duty addr)).toNat ≤ 7
      ∧ W0.reserved (W0.pack op flag en ack duty addr) = 0 := by
  rw [op_pack, reserved_pack]
  exact ⟨lo, hi, rfl⟩

theorem Opcode.configure (pclk scl : Word) (duty : Duty) (addr : Addr7) (ack : Bool) : Opcode.Statement (.configure pclk scl duty addr ack) :=
  opcode_of_pack (by decide) (by decide)

theorem Opcode.setEnabled (en : Bool) : Opcode.Statement (.setEnabled en) :=
  opcode_of_pack (by decide) (by decide)

theorem Opcode.clockGateEnable : Opcode.Statement .clockGateEnable :=
  opcode_of_pack (by decide) (by decide)

theorem Opcode.hasFlag (sel : BitVec 4) : Opcode.Statement (.hasFlag sel) :=
  opcode_of_pack (by decide) (by decide)

theorem Opcode.clearAddr : Opcode.Statement .clearAddr :=
  opcode_of_pack (by decide) (by decide)

theorem Opcode.masterSend (addr : Addr7) (ptr len : Word) : Opcode.Statement (.masterSend addr ptr len) :=
  opcode_of_pack (by decide) (by decide)

theorem Opcode.initPeripheral (addr : Addr7) (ack : Bool) (scl : Word) (duty : Duty) : Opcode.Statement (.initPeripheral addr ack scl duty) :=
  opcode_of_pack (by decide) (by decide)

theorem Opcode.seqIdle : Opcode.Statement .seqIdle := by unfold Opcode.Statement encode; decide

theorem Opcode.seqStartSet : Opcode.Statement .seqStartSet := by unfold Opcode.Statement encode; decide

theorem Opcode.seqWaitSb : Opcode.Statement .seqWaitSb := by unfold Opcode.Statement encode; decide

theorem Opcode.seqAddrWrite : Opcode.Statement .seqAddrWrite := by unfold Opcode.Statement encode; decide

theorem Opcode.seqWaitAddr : Opcode.Statement .seqWaitAddr := by unfold Opcode.Statement encode; decide

theorem Opcode.seqClrSr1 : Opcode.Statement .seqClrSr1 := by unfold Opcode.Statement encode; decide

theorem Opcode.seqClrSr2 : Opcode.Statement .seqClrSr2 := by unfold Opcode.Statement encode; decide

theorem Opcode.seqLoopTest : Opcode.Statement .seqLoopTest := by unfold Opcode.Statement encode; decide

theorem Opcode.seqWaitTxe : Opcode.Statement .seqWaitTxe := by unfold Opcode.Statement encode; decide

theorem Opcode.seqDataWrite : Opcode.Statement .seqDataWrite := by unfold Opcode.Statement encode; decide

theorem Opcode.seqDrainTxe : Opcode.Statement .seqDrainTxe := by unfold Opcode.Statement encode; decide

theorem Opcode.seqWaitBtf : Opcode.Statement .seqWaitBtf := by unfold Opcode.Statement encode; decide

theorem Opcode.seqStopSet : Opcode.Statement .seqStopSet := by unfold Opcode.Statement encode; decide

end Sys2Proof.Laws
end

