-- ==== Sys2Proof/Tests/Slice0.lean ====
section
/-! SUPPORT. Tests. Expected values are the spec's own: the worked examples of its rules, the vectors of 95_test_vectors.md (named
in each docstring), and command words written out from the field table of 30_encoding.md R69. The witnesses at the end show that
the hypotheses of each statement can be met. -/

namespace Sys2Proof.Tests

open Sys2Proof.Machine Sys2Proof.Safety

/-! ## Small states -/

/-- After reset with the clock gate on and the peripheral enabled, under the given scheduler. -/
def onWith (sched : Scheduler) (sr1 : Word) (phase : Phase) : State :=
  { State.reset with
    per := { State.reset.per with
      rb := { State.reset.per.rb with clken := 0x00200000, cr1 := 0x1, sr1 := sr1 }
      env := { State.reset.per.env with sched := sched, phase := phase } } }

/-- Eager reference ENV, quiet. -/
def on : State := onWith .eager 0 .idle

/-- An ENV that never moves. -/
def still (sr1 : Word) (phase : Phase) : State := onWith (.agenda []) sr1 phase

/-- The reference ENV held still, as in 95_test_vectors.md section 2.4. -/
def held (sr1 : Word) (phase : Phase) : State := onWith (.lazy 1000) sr1 phase

/-- The reference ENV with a plan of steps. -/
def planned (turns again : List (List EnvStep)) (sr1 : Word) (phase : Phase) : State := onWith (.plan turns again) sr1 phase

/-- The state with a command in execution at a micro-step. -/
def at_ (u : Upc) (s : State) : State := { s with mtc := { s.mtc with busy := true, upc := u } }

/-- The state with another `CR1`. -/
def withCr1 (v : Word) (s : State) : State := { s with per := { s.per with rb := { s.per.rb with cr1 := v } } }

/-- The state with another `CLKEN`. -/
def withClken (v : Word) (s : State) : State := { s with per := { s.per with rb := { s.per.rb with clken := v } } }

/-- The state with transfer registers as MASTER_SEND leaves them. -/
def sending (ptr len idx : Word) (s : State) : State :=
  { s with mtc := { s.mtc with tAddr := 0x68, tPtr := ptr, tLen := len, idx := idx } }

/-- The state with commands offered on the port. -/
def offering (ws : List CmdWords) (s : State) : State := { s with ports := { s.ports with offered := ws } }

/-- The state with host moves to come. -/
def hosting (ms : List HostMove) (s : State) : State := { s with ports := { s.ports with host := ms } }

/-- The state with a byte in ENV's holding slot. -/
def holding (b : Byte) (s : State) : State :=
  { s with per := { s.per with env := { s.per.env with hold := b, holdValid := true } } }

/-- The state with `CLR_ARMED = 1`. -/
def armed (s : State) : State := { s with per := { s.per with clrArmed := true } }

/-- The state a result goes on to; a stop gives the reset state, so a test of it fails. -/
def after (r : Result) : State :=
  match r with
  | .next t => t
  | .fault _ => State.reset
  | .refused _ => State.reset

/-- The registers CONFIGURE writes, in the order of R91. -/
def configRegs (s : State) : List Word :=
  [s.per.rb.cr1, s.per.rb.cr2, s.per.rb.oar1, s.per.rb.ccr, s.per.rb.trise]

/-! ## Well-formed terms -/

/-- The reserved selectors of R71 are refused by the check; a named one is not. -/
theorem test_wf_refuses_reserved_selectors :
    [3#4, 4#4, 5#4, 6#4, 12#4, 13#4, 15#4].all (fun sel => !(Instr.hasFlag sel).wf) = true
      ∧ (Instr.hasFlag 14).wf = true := by decide

/-! ## Decoding: words written out bit by bit (R69: OP, reserved, FLAG, EN, ACK, DUTY, ADDR7) -/

theorem test_decode_configure :
    decode (.cmd ⟨0b0001_00000000000000_0000_0_1_0_1100001, 0x00F42400, 0x000186A0⟩)
      = .ok (.configure 16000000 100000 .low 0x61 true)
    ∧ decode (.cmd ⟨0b0001_00000000000000_0000_0_1_1_1111111, 0xFFFFFFFF, 0xFFFFFFFF⟩)
      = .ok (.configure 0xFFFFFFFF 0xFFFFFFFF .high 0x7F true) := by decide

theorem test_decode_setEnabled :
    decode (.cmd ⟨0b0010_00000000000000_0000_1_0_0_0000000, 0, 0⟩) = .ok (.setEnabled true)
    ∧ decode (.cmd ⟨0b0010_00000000000000_0000_0_0_0_0000000, 0, 0⟩) = .ok (.setEnabled false) := by decide

theorem test_decode_clockGateEnable :
    decode (.cmd ⟨0b0011_00000000000000_0000_0_0_0_0000000, 0, 0⟩) = .ok .clockGateEnable := by decide

theorem test_decode_hasFlag :
    decode (.cmd ⟨0b0100_00000000000000_0111_0_0_0_0000000, 0, 0⟩) = .ok (.hasFlag 7)
    ∧ decode (.cmd ⟨0b0100_00000000000000_1110_0_0_0_0000000, 0, 0⟩) = .ok (.hasFlag 14) := by decide

theorem test_decode_clearAddr :
    decode (.cmd ⟨0b0101_00000000000000_0000_0_0_0_0000000, 0, 0⟩) = .ok .clearAddr := by decide

theorem test_decode_masterSend :
    decode (.cmd ⟨0b0110_00000000000000_0000_0_0_0_1101000, 0x20000000, 2⟩)
      = .ok (.masterSend 0x68 0x20000000 2) := by decide

theorem test_decode_initPeripheral :
    decode (.cmd ⟨0b0111_00000000000000_0000_0_1_1_1100001, 0, 0x00061A80⟩)
      = .ok (.initPeripheral 0x61 true 400000 .high) := by decide

/-- R74: the thirteen micro-step codes in order. -/
theorem test_decode_micro :
    decode (.micro 0b0000) = .ok .seqIdle ∧ decode (.micro 0b0001) = .ok .seqStartSet
    ∧ decode (.micro 0b0010) = .ok .seqWaitSb ∧ decode (.micro 0b0011) = .ok .seqAddrWrite
    ∧ decode (.micro 0b0100) = .ok .seqWaitAddr ∧ decode (.micro 0b0101) = .ok .seqClrSr1
    ∧ decode (.micro 0b0110) = .ok .seqClrSr2 ∧ decode (.micro 0b0111) = .ok .seqLoopTest
    ∧ decode (.micro 0b1000) = .ok .seqWaitTxe ∧ decode (.micro 0b1001) = .ok .seqDataWrite
    ∧ decode (.micro 0b1010) = .ok .seqDrainTxe ∧ decode (.micro 0b1011) = .ok .seqWaitBtf
    ∧ decode (.micro 0b1100) = .ok .seqStopSet := by decide

theorem test_decode_micro_unused :
    decode (.micro 0b1101) = .error (.unusedUpc 13) ∧ decode (.micro 0b1110) = .error (.unusedUpc 14)
    ∧ decode (.micro 0b1111) = .error (.unusedUpc 15) := by decide

/-- 95_test_vectors.md section 2.7: the illegal words, each with its reason. -/
theorem test_decode_illegal_words :
    decode (.cmd ⟨0x00000000, 1, 2⟩) = .error (.reservedOpcode 0)
    ∧ decode (.cmd ⟨0x80000000, 0, 0⟩) = .error (.reservedOpcode 8)
    ∧ decode (.cmd ⟨0xF0000000, 0, 0⟩) = .error (.reservedOpcode 15)
    ∧ decode (.cmd ⟨0x10040000, 0, 0⟩) = .error .reservedBits
    ∧ decode (.cmd ⟨0x10000561, 0, 0⟩) = .error .unusedField
    ∧ decode (.cmd ⟨0x20000201, 0, 0⟩) = .error .unusedField
    ∧ decode (.cmd ⟨0x20000200, 1, 0⟩) = .error .unusedW1
    ∧ decode (.cmd ⟨0x30000001, 0, 0⟩) = .error .unusedField := by decide

theorem test_decode_illegal_words_more :
    decode (.cmd ⟨0x40000C00, 0, 0⟩) = .error (.reservedFlag 3)
    ∧ decode (.cmd ⟨0x40003C00, 0, 0⟩) = .error (.reservedFlag 15)
    ∧ decode (.cmd ⟨0x40000001, 0, 0⟩) = .error .unusedField
    ∧ decode (.cmd ⟨0x50000000, 0, 4⟩) = .error .unusedW2
    ∧ decode (.cmd ⟨0x60000168, 0, 0⟩) = .error .unusedField
    ∧ decode (.cmd ⟨0x70000161, 0x00F42400, 0x000186A0⟩) = .error .unusedW1 := by decide

/-- The table's numbering (log 17): `W1` above `W0`, `W2` above `W1`; a short row's missing bits are 0. -/
theorem test_table_words :
    decodeTableWord 96 (0x60000068 + 0x20000000 * 2 ^ 32 + 2 * 2 ^ 64) = some (.masterSend 0x68 0x20000000 2)
    ∧ decodeTableWord 32 0x30000000 = some .clockGateEnable
    ∧ decodeTableWord 8 9 = some .seqDataWrite ∧ decodeTableWord 8 13 = none
    ∧ decodeTableWord 32 0x40000C00 = none := by decide

/-! ## The configurator's numbers (95_test_vectors.md section 2.1) -/

theorem test_fields_standard :
    divField 64 84000000 100000 .low = 420 ∧ freqField 84000000 = 20 ∧ triseField 64 84000000 100000 = 21
    ∧ divField 64 42000000 5000 .low = 104 ∧ triseField 64 63000000 100000 = 0
    ∧ divField 64 16000000 0 .low = 0 ∧ divField 64 8000000 100000 .high = 40 := by decide

theorem test_fields_fast :
    divField 64 8000000 100001 .low = 26 ∧ divField 64 42000000 400000 .high = 4
    ∧ triseField 64 3333333 400000 = 1 ∧ triseField 64 3333334 400000 = 2
    ∧ divField 64 48000000 171798692 .high = 0 ∧ divField 32 48000000 171798692 .high = 2816
    ∧ triseField 32 42000000 400000 = 5 ∧ triseField 64 42000000 400000 = 13 := by decide

/-! ## Commands -/

/-- Vector C-1. -/
theorem test_configure_standard :
    configRegs (after (exec (.configure 16000000 100000 .low 0x61 true) on)) = [0x401, 0x10, 0x40C2, 0x50, 0x11] := by
  decide

/-- Vector C-3: opaque bits survive, straight writes clear, `DUTY` is kept in standard mode. -/
theorem test_configure_over_ones :
    configRegs (after (exec (.configure 8000000 100000 .high 0x55 true)
      { on with per := { on.per with rb := { on.per.rb with
          cr1 := 0xFFFFA4A4, cr2 := 0xFFFFFFFF, oar1 := 0xFFFFFFFF, ccr := 0xFFFFFFFF, trise := 0xFFFFFFFF } } }))
      = [0xFFFFA4A4, 0xFFFFFFC8, 0x40AA, 0xFFFF7028, 0x9] := by decide

/-- Vectors E-3 and E-5. -/
theorem test_setEnabled :
    (after (exec (.setEnabled false) (withCr1 0x401 on))).per.rb.cr1 = 0x400
    ∧ (after (exec (.setEnabled true) (withCr1 0xFFFFA4A4 on))).per.rb.cr1 = 0xFFFFA4A5 := by decide

/-- E-5's note: enabling with `START` pending makes the eager ENV generate a start. -/
theorem test_setEnabled_pending_start :
    (after (exec (.setEnabled true) (withCr1 0xFFFFA5A4 on))).per.rb.cr1 = 0xFFFFA4A5
    ∧ (after (exec (.setEnabled true) (withCr1 0xFFFFA5A4 on))).per.env.wire = [.start] := by decide

/-- Vectors G-2 and G-4. -/
theorem test_clockGateEnable :
    (after (exec .clockGateEnable (withClken 0x1 on))).acc = [.regRead 0x40023840 0x1, .regWrite 0x40023840 0x200001]
    ∧ (after (exec .clockGateEnable (withClken 0xFFDFFFFF on))).per.rb.clken = 0xFFFFFFFF := by decide

/-- R174: an instance whose gate bit is 31 sets and tests its own bit; bit 21 does not clock it. -/
theorem test_other_gate_bit :
    (after (exec .clockGateEnable { on with cfg := { on.cfg with posClkgate := 31 } })).per.rb.clken = 0x80200000
    ∧ RegValues.clkgate { on.cfg with posClkgate := 31 } on.per.rb = false := by decide

/-- 95_test_vectors.md section 2.4, over `SR1 = 0x82`: TXE 1, SB 0, and the two-step clear is armed. -/
theorem test_hasFlag :
    (after (exec (.hasFlag 7) (held 0x82 .idle))).ports.rsp = some ⟨false, true⟩
    ∧ (after (exec (.hasFlag 0) (held 0x82 .idle))).ports.rsp = some ⟨false, false⟩
    ∧ (after (exec (.hasFlag 0) (held 0x82 .idle))).per.clrArmed = true := by decide

/-- Vectors A-2, A-4 and A-5. -/
theorem test_clearAddr :
    (after (exec (.setEnabled true) (armed (held 0x2 .addrSent)))).per.clrArmed = false
    ∧ (after (exec .clearAddr (held 0x2 .addrSent))).per.rb.sr1 = 0x80
    ∧ (after (exec .clearAddr (held 0x2 .addrSent))).per.env.phase = .data
    ∧ (after (exec .clearAddr (held 0x80 .data))).per.rb.sr1 = 0x80 := by decide

/-- Vector I-3, from the default reset. -/
theorem test_initPeripheral :
    configRegs (after (exec (.initPeripheral 0x10 false 400000 .high)
      { State.reset with ports := { State.reset.ports with pclkHz := 42000000 } }))
      = [0x1, 0x2A, 0x4020, 0xC004, 0xD]
    ∧ (after (exec (.initPeripheral 0x10 false 400000 .high) State.reset)).per.rb.clken = 0x200000 := by decide

theorem test_masterSend :
    (after (exec (.masterSend 0x68 0x20000000 2) on)).mtc.upc = .u1
    ∧ (after (exec (.masterSend 0x68 0x20000000 2) on)).acc = []
    ∧ (after (exec (.masterSend 0x68 0x400053FF 1) on)).mtc.tLen = 1 := by decide

/-- X11: one byte more than `test_masterSend` meets the first register. -/
theorem test_masterSend_aliasing : exec (.masterSend 0x68 0x400053FF 2) on = .refused .bufferAliasesRegisters := by
  rfl

/-! ## Micro-steps (vector V-S1 under the eager ENV; M-8 where a poll fails) -/

theorem test_seqIdle : after (exec .seqIdle on) = on := by decide

/-- V-S1 entries 1 and 2, and ENV's start. -/
theorem test_seqStartSet :
    (after (exec .seqStartSet (withCr1 0x401 on))).acc = [.regRead 0x40005400 0x401, .regWrite 0x40005400 0x501]
    ∧ (after (exec .seqStartSet (withCr1 0x401 on))).per.rb.cr1 = 0x401
    ∧ (after (exec .seqStartSet (withCr1 0x401 on))).per.rb.sr1 = 0x1 := by decide

theorem test_seqWaitSb :
    (after (exec .seqWaitSb (at_ .u2 (held 0x1 .started)))).mtc.upc = .u3
    ∧ (after (exec .seqWaitSb (at_ .u2 (held 0xFFFE .idle)))).mtc.upc = .u2 := by decide

/-- V-S1 entry 4: `DR` is written 0xD0; `SB` is cleared, the byte goes out and `ADDR` rises. -/
theorem test_seqAddrWrite :
    (after (exec .seqAddrWrite (at_ .u3 (sending 0 0 0 (onWith .eager 0x1 .started))))).acc
      = [.regWrite 0x40005410 0xD0]
    ∧ (after (exec .seqAddrWrite (at_ .u3 (sending 0 0 0 (onWith .eager 0x1 .started))))).per.rb.sr1 = 0x2
    ∧ (after (exec .seqAddrWrite (at_ .u3 (sending 0 0 0 (onWith .eager 0x1 .started))))).per.env.wire
      = [.byte 0xD0 true] := by decide

theorem test_seqWaitAddr :
    (after (exec .seqWaitAddr (at_ .u4 (held 0x2 .addrSent)))).mtc.upc = .u5
    ∧ (after (exec .seqWaitAddr (at_ .u4 (held 0x400 .nacked)))).mtc.upc = .u4 := by decide

theorem test_seqClrSr1 :
    (after (exec .seqClrSr1 (at_ .u5 (held 0x2 .addrSent)))).per.clrArmed = true
    ∧ (after (exec .seqClrSr1 (at_ .u5 (held 0x2 .addrSent)))).mtc.upc = .u6 := by decide

/-- M-8, count 21, without and (eager) with ENV's `E_DRAINED`. -/
theorem test_seqClrSr2 :
    (after (exec .seqClrSr2 (at_ .u6 (armed (held 0x2 .addrSent))))).per.rb.sr1 = 0x80
    ∧ (after (exec .seqClrSr2 (at_ .u6 (armed (onWith .eager 0x2 .addrSent))))).per.rb.sr1 = 0x84
    ∧ (after (exec .seqClrSr2 (at_ .u6 (held 0x2 .addrSent)))).per.rb.sr1 = 0x2 := by decide

/-- R124: the comparison is unsigned. -/
theorem test_seqLoopTest :
    (after (exec .seqLoopTest (at_ .u7 (sending 0 0xFFFFFFFF 1 on)))).mtc.upc = .u8
    ∧ (after (exec .seqLoopTest (at_ .u7 (sending 0 2 2 on)))).mtc.upc = .u10 := by decide

theorem test_seqWaitTxe :
    (after (exec .seqWaitTxe (at_ .u8 (held 0x84 .data)))).mtc.upc = .u9
    ∧ (after (exec .seqWaitTxe (at_ .u8 (held 0x4 .data)))).mtc.upc = .u8 := by decide

/-- M-3: the second byte, at the wrapped address. -/
theorem test_seqDataWrite_wraps :
    (after (exec .seqDataWrite (at_ .u9 (sending 0xFFFFFFFF 2 1
      { onWith .eager 0x84 .data with buf := Memory.write [] 0 0x22 })))).acc
      = [.bufRead 0 0x22, .regWrite 0x40005410 0x22] := by decide

/-- M-8, count 23: `TXE` and `BTF` are cleared by the write. -/
theorem test_seqDataWrite_flags :
    (after (exec .seqDataWrite (at_ .u9 (sending 0x1000 1 0 (held 0x84 .data))))).per.rb.sr1 = 0
    ∧ (after (exec .seqDataWrite (at_ .u9 (sending 0x1000 1 0 (held 0x84 .data))))).mtc.idx = 1 := by decide

/-- An ENV that is not the reference one, with an address byte just written. -/
def onAddr (b : Byte) : Periph := writeEffect .dr (b.setWidth 32) (still 0x1 .started).per

/-- R144: a byte that enters the shift register clears `BTF`, and `BTF` does not rise before it has left. -/
theorem test_load_clears_btf :
    (Periph.applyMove Config.default .load (holding 0x41 (still 0x4 .data)).per).rb.sr1 = 0
    ∧ (Periph.applyMoves Config.default [.load, .status 0x84] (holding 0x41 (still 0x4 .data)).per).rb.sr1 = 0
    ∧ (Periph.applyMoves Config.default [.load, .shiftDone true false, .status 0x84] (holding 0x41 (still 0x4 .data)).per).rb.sr1
      = 0x84 := by decide

/-- R143, R146: after the acknowledge `ADDR` may rise at once, later, never, or again after a clearing read; without one it never
does. -/
theorem test_addr_later :
    (Periph.applyMoves Config.default [.sendAddr true false, .status 0x3] (onAddr 0xD0)).rb.sr1 = 0x1
    ∧ (Periph.applyMoves Config.default [.sendAddr true false, .status 0x0, .raiseAddr true] (onAddr 0xD0)).rb.sr1 = 0x2
    ∧ (Periph.applyMoves Config.default [.sendAddr false false, .raiseAddr true] (onAddr 0xD0)).rb.sr1 = 0x1
    ∧ RegValues.flag (Periph.applyMove Config.default (.raiseAddr false) (readEffect .sr2 (readEffect .sr1
      (Periph.applyMoves Config.default [.sendAddr true false, .raiseAddr false] (onAddr 0xD0))))).rb .addr = true := by decide

/-- R140, R142: an ENV may lose a byte, and may generate a stop condition that was not requested or leave `STOP` set. -/
theorem test_env_loses_and_stops :
    (Periph.applyMove Config.default (.drop false true) (onAddr 0xD0)).env.holdValid = false
    ∧ (Periph.applyMoves Config.default [.drop false true, .sendAddr true false, .raiseAddr true] (onAddr 0xD0)).rb.sr1 = 0x1
    ∧ (Periph.applyMove Config.default (.genStop true true true) (still 0 .idle).per).env.wire = [.stop]
    ∧ RegValues.stop (Periph.applyMove Config.default (.genStop true true false) (withCr1 0x201 (still 0 .idle)).per).rb = true := by
  decide

/-- R142, R144: a stop condition truncates the byte it drops and leaves the one it keeps. -/
theorem test_stop_keeps_or_drops :
    (Periph.applyMove Config.default (.genStop true true true) (withCr1 0x201 (holding 0x41 (still 0 .data))).per).env.wire = [.stop]
    ∧ (Periph.applyMove Config.default (.genStop true true true) (withCr1 0x201 (holding 0x41 (still 0 .data))).per).env.holdValid
      = true
    ∧ (Periph.applyMove Config.default (.genStop false true true) (withCr1 0x201 (holding 0x41 (still 0 .data))).per).env.wire
      = [.stopTrunc] := by decide

/-- R24, R144: under an ENV that is not the reference one the address byte fills the holding slot and clears `TXE`; then ENV may not
show `TXE = 1`, but may show `BTF = 1`, since the shift register is empty. -/
theorem test_seqAddrWrite_any_env :
    (after (exec .seqAddrWrite (at_ .u3 (still 0x81 .started)))).per.rb.sr1 = 0x1
    ∧ (Periph.applyMove Config.default (.status 0x81) (holding 0 (still 0x1 .started)).per).rb.sr1 = 0x1
    ∧ (Periph.applyMove Config.default (.status 0x5) (holding 0 (still 0x1 .started)).per).rb.sr1 = 0x5 := by decide

/-- R150, X6: a stale `SB` lets SEQ write the address byte in `P_IDLE`; the reference ENV drops it under any schedule, and the send
goes on to U4. -/
theorem test_stale_address_write_is_dropped :
    (after (exec .seqAddrWrite (at_ .u3 (planned [] [[.addr true]] 0x1 .idle)))).mtc.upc = .u4
    ∧ (after (exec .seqAddrWrite (at_ .u3 (planned [] [[.addr true]] 0x1 .idle)))).per.env.holdValid = false
    ∧ (after (exec .seqAddrWrite (at_ .u3 (planned [] [[.addr true]] 0x1 .idle)))).per.rb.sr1 = 0x1
    ∧ (writeEffect .dr 0xD0 (onWith (.anyRef 7) 0x1 .idle).per).env.holdValid = false := by decide

/-- R52, R140: the reference ENV may step while MTC is idle, may let turns pass, and may take an enabled step other than the one R158
picks. A step that is not enabled does nothing, and a plan starts over. -/
theorem test_planned_turns :
    (after (exec .seqIdle (withCr1 0x101 (planned [] [[.start]] 0 .idle)))).per.env.wire = [.start]
    ∧ (after (exec .seqIdle (withCr1 0x101 (planned [[]] [[.start]] 0 .idle)))).per.env.wire = []
    ∧ (after (exec .seqIdle (after (exec .seqIdle (withCr1 0x201 (planned [] [[.load], [.stop]] 0 .idle)))))).per.env.wire = [.stop]
    ∧ (after (exec .seqIdle (withCr1 0x201 (holding 0x41 (planned [] [[.load, .shiftDone true, .stop]] 0 .data))))).per.env.wire
      = [.byte 0x41 true, .stop]
    ∧ (after (exec .seqIdle (withCr1 0x201 (holding 0x41 (planned [] [[.stop, .load]] 0 .data))))).per.env.wire = [.stopTrunc] := by
  decide

/-- X22: with `START` and `STOP` both 1 the scheduler of R158 takes the stop first; a plan may take either first (log 35). -/
theorem test_start_and_stop_requested :
    (Periph.runEager Config.default (withCr1 0x301 on).per).env.wire = [.stop, .start]
    ∧ (after (exec .seqIdle (withCr1 0x301 (planned [] [[.stop, .start]] 0 .idle)))).per.env.wire = [.stop, .start]
    ∧ (after (exec .seqIdle (withCr1 0x301 (planned [] [[.start, .stop]] 0 .idle)))).per.env.wire = [.start, .stop] := by decide

theorem test_seqDrainTxe :
    (after (exec .seqDrainTxe (at_ .u10 (held 0x80 .data)))).mtc.upc = .u11
    ∧ (after (exec .seqDrainTxe (at_ .u10 (held 0x4 .data)))).mtc.upc = .u10 := by decide

theorem test_seqWaitBtf :
    (after (exec .seqWaitBtf (at_ .u11 (held 0x84 .data)))).mtc.upc = .u12
    ∧ (after (exec .seqWaitBtf (at_ .u11 (held 0x80 .data)))).mtc.upc = .u11 := by decide

/-- V-S1 entries 16 and 17 and its end state. -/
theorem test_seqStopSet :
    (after (exec .seqStopSet (at_ .u12 (withCr1 0x401 (onWith .eager 0x84 .data))))).acc
      = [.regRead 0x40005400 0x401, .regWrite 0x40005400 0x601]
    ∧ (after (exec .seqStopSet (at_ .u12 (withCr1 0x401 (onWith .eager 0x84 .data))))).per.rb.sr1 = 0
    ∧ (after (exec .seqStopSet (at_ .u12 (withCr1 0x401 (onWith .eager 0x84 .data))))).per.env.wire = [.stop] := by
  decide

/-! ## Steps -/

/-- The very next step runs the instruction placed: a command, a micro-step, an unaccepted illegal word. -/
theorem test_withFetchWord :
    (after (step (State.reset.withFetchWord 32 0x30000000))).per.rb.clken = 0x200000
    ∧ (after (step (State.reset.withFetchWord 8 7))).mtc.upc = .u10
    ∧ (after (step (State.reset.withFetchWord 32 0x00000000))).ports.rsp = some ⟨true, false⟩ := by decide

/-- R186: a RegisterBlock command before `clock_gate_enable` is a refused run. -/
theorem test_unclocked_first_command :
    step (State.reset.withFetchWord 32 0x20000200) = .refused .registerBlockUnclocked := by rfl

/-- R180: `rst` leaves a hang (M-5). -/
theorem test_rst_leaves_a_hang :
    (after (step (hosting [.rst] (at_ .u4 (held 0x400 .nacked))))).mtc.upc = .u0
    ∧ (after (step (hosting [.rst] (at_ .u4 (held 0x400 .nacked))))).per.rb.sr1 = 0 := by decide

/-- The buffer memory drops a byte that reads as an unlisted one (log 6). -/
theorem test_memory_canonical :
    Memory.write (Memory.write (Memory.write [] 9 1) 4 2) 9 0 = [(4, 2)]
    ∧ Memory.read (Memory.write (Memory.write [] 9 1) 4 2) 9 = 1 := by decide

/-! ## Witnesses: states and operands that meet the hypotheses of each statement -/

/-- A command that is answered, for the statements about a step: CLEAR_ADDR stands on the port. -/
def clearing : State := offering [⟨0x50000000, 0, 0⟩] (held 0x2 .addrSent)

theorem witness_DecodeOfEncode :
    [Instr.configure 0xFFFFFFFF 0xFFFFFFFF .high 0x7F true, .setEnabled true, .clockGateEnable, .hasFlag 0, .hasFlag 14,
      .clearAddr, .masterSend 0x7F 0xFFFFFFFF 0xFFFFFFFF, .initPeripheral 0x7F true 0xFFFFFFFF .high, .seqIdle,
      .seqStopSet].all Instr.wf = true := by decide

theorem witness_EncodeOfDecode : decode (.cmd ⟨0x40003800, 0, 0⟩) = .ok (.hasFlag 14) := by decide

theorem witness_StepRunsDecodedInstruction :
    (clearing.cfg.wf = true ∧ rstAsserted clearing = false ∧ (hostTurn clearing).mtc.busy = false
      ∧ (hostTurn clearing).ports.offered = ⟨0x50000000, 0, 0⟩ :: []
      ∧ decode (.cmd ⟨0x50000000, 0, 0⟩) = .ok .clearAddr)
    ∧ ((hostTurn (at_ .u12 on)).mtc.busy = true
      ∧ decode (.micro (hostTurn (at_ .u12 on)).mtc.upc.code) = .ok .seqStopSet)
    ∧ (hostTurn on).mtc.busy = false ∧ (hostTurn on).ports.offered = [] := by decide

theorem witness_HostMovesLandBeforeTheStep :
    on.ports.host = [] ∧ (hosting [.idle] on).ports.host = .idle :: []
    ∧ (hosting [.offer ⟨1, 2, 3⟩] on).ports.host = .offer ⟨1, 2, 3⟩ :: []
    ∧ (hosting [.clock 16000000] on).ports.host = .clock 16000000 :: []
    ∧ (hosting [.poke 0xFFFFFFFF 1] on).ports.host = .poke 0xFFFFFFFF 1 :: [] := by decide

theorem witness_IllegalCommandIsAnsweredOnly :
    (offering [⟨0, 1, 2⟩] on).cfg.wf = true ∧ rstAsserted (offering [⟨0, 1, 2⟩] on) = false
    ∧ (hostTurn (offering [⟨0, 1, 2⟩] on)).mtc.busy = false
    ∧ (hostTurn (offering [⟨0, 1, 2⟩] on)).ports.offered = ⟨0, 1, 2⟩ :: []
    ∧ decode (.cmd ⟨0, 1, 2⟩) = .error (.reservedOpcode 0) := by decide

theorem witness_RstResetsTheSystem :
    (hosting [.rst] (at_ .u4 on)).cfg.wf = true ∧ (hosting [.rst] (at_ .u4 on)).ports.host = .rst :: [] := by decide

theorem test_reset_meets_invariant : inv State.reset = true := by decide

/-- A step from a state that meets the invariant in the middle of a transfer. -/
theorem witness_StepKeepsInvariant :
    inv (at_ .u9 (sending 0x1000 1 0 (held 0x84 .data))) = true
    ∧ step (at_ .u9 (sending 0x1000 1 0 (held 0x84 .data)))
      = .next (after (step (at_ .u9 (sending 0x1000 1 0 (held 0x84 .data))))) := ⟨by decide, rfl⟩

theorem witness_StepKeepsControlInvariant :
    controlInv (at_ .u7 (sending 0 2 2 on)) = true
    ∧ step (at_ .u7 (sending 0 2 2 on)) = .next (after (step (at_ .u7 (sending 0 2 2 on)))) := ⟨by decide, rfl⟩

theorem witness_StepKeepsLatchInvariant :
    latchInv clearing.per = true ∧ step clearing = .next (after (step clearing)) := ⟨by decide, rfl⟩

/-- The same for an ENV nothing is known of and for a reference ENV whose schedule nothing is known of, between two accesses of a
transfer. -/
theorem witness_StepKeepsInvariant_free :
    inv (at_ .u7 (sending 0x1000 1 1 (onWith (.free 5) 0x4 .data))) = true
    ∧ step (at_ .u7 (sending 0x1000 1 1 (onWith (.free 5) 0x4 .data)))
      = .next (after (step (at_ .u7 (sending 0x1000 1 1 (onWith (.free 5) 0x4 .data)))))
    ∧ inv (at_ .u7 (sending 0x1000 1 1 (onWith (.anyRef 5) 0x4 .data))) = true
    ∧ step (at_ .u7 (sending 0x1000 1 1 (onWith (.anyRef 5) 0x4 .data)))
      = .next (after (step (at_ .u7 (sending 0x1000 1 1 (onWith (.anyRef 5) 0x4 .data))))) :=
  ⟨by decide, rfl, by decide, rfl⟩

theorem witness_DrainedStopTruncatesNothing :
    slotInv (withCr1 0x201 (held 0x84 .data)).per = true ∧ Periph.isRef (withCr1 0x201 (held 0x84 .data)).per = true
    ∧ (withCr1 0x201 (held 0x84 .data)).per.env.phase = .data
    ∧ RegValues.flag (withCr1 0x201 (held 0x84 .data)).per.rb .btf = true
    ∧ RegValues.stop (withCr1 0x201 (held 0x84 .data)).per.rb = true
    ∧ Periph.refStep Config.default (withCr1 0x201 (held 0x84 .data)).per
      = some (Periph.eStop (withCr1 0x201 (held 0x84 .data)).per)
    ∧ Periph.envEnabled Config.default (withCr1 0x201 (planned [] [] 0x84 .data)).per = true
    ∧ slotInv (withCr1 0x201 (planned [] [] 0x84 .data)).per = true
    ∧ (slotInv (withCr1 0x201 (still 0x84 .data)).per = true ∧ Periph.isRef (withCr1 0x201 (still 0x84 .data)).per = false
      ∧ RegValues.clkgate Config.default (withCr1 0x201 (still 0x84 .data)).per.rb = true
      ∧ RegValues.flag (withCr1 0x201 (still 0x84 .data)).per.rb .txe = true) := by decide

theorem witness_ParametersAndBufferAreImmutable :
    step clearing = .next (after (step clearing))
    ∧ exec .seqStopSet (at_ .u12 on) = .next (after (exec .seqStopSet (at_ .u12 on))) := ⟨rfl, rfl⟩

theorem witness_ClockGateIsNeverCleared :
    rstAsserted clearing = false ∧ RegValues.clkgate clearing.cfg clearing.per.rb = true
    ∧ step clearing = .next (after (step clearing)) := ⟨by decide, by decide, rfl⟩

theorem witness_OpaqueRegistersNeverChange :
    rstAsserted clearing = false ∧ step clearing = .next (after (step clearing)) := ⟨by decide, rfl⟩

theorem witness_HandleWrittenOnlyByConfigure :
    exec .clearAddr on = .next (after (exec .clearAddr on))
    ∧ exec (.configure 0 0 .high 0x7F true) on = .next (after (exec (.configure 0 0 .high 0x7F true) on))
    ∧ exec (.initPeripheral 0x7F true 0 .high) on = .next (after (exec (.initPeripheral 0x7F true 0 .high) on)) :=
  ⟨rfl, rfl, rfl⟩

theorem witness_RequestsRiseOnlyInTheirMicroSteps :
    (exec .seqStartSet (still 0 .idle) = .next (after (exec .seqStartSet (still 0 .idle)))
      ∧ RegValues.start (still 0 .idle).per.rb = false
      ∧ RegValues.start (after (exec .seqStartSet (still 0 .idle))).per.rb = true)
    ∧ exec .seqStopSet (still 0 .idle) = .next (after (exec .seqStopSet (still 0 .idle)))
      ∧ RegValues.stop (still 0 .idle).per.rb = false
      ∧ RegValues.stop (after (exec .seqStopSet (still 0 .idle))).per.rb = true :=
  ⟨⟨rfl, by decide, by decide⟩, rfl, by decide, by decide⟩

/-- A clearing read, and a reference ENV disabled with `ADDR` latched (its phase as in vector M-8). -/
theorem witness_AddrLatchedUntilClearingRead :
    (exec (.setEnabled false) (held 0x2 .addrSent) = .next (after (exec (.setEnabled false) (held 0x2 .addrSent)))
      ∧ RegValues.flag (after (exec (.setEnabled false) (held 0x2 .addrSent))).per.rb .addr = false)
    ∧ exec .clearAddr (held 0x2 .addrSent) = .next (after (exec .clearAddr (held 0x2 .addrSent)))
    ∧ RegValues.flag (held 0x2 .addrSent).per.rb .addr = true
    ∧ RegValues.flag (after (exec .clearAddr (held 0x2 .addrSent))).per.rb .addr = false :=
  ⟨⟨rfl, by decide⟩, rfl, by decide, by decide⟩

theorem witness_TracesOnlyGrow : exec .seqStopSet on = .next (after (exec .seqStopSet on)) := rfl

theorem witness_FlagsChangeOnlyByAccesses :
    (silent (armed (still 0x2 .addrSent)).per = true
      ∧ exec .seqClrSr2 (armed (still 0x2 .addrSent)) = .next (after (exec .seqClrSr2 (armed (still 0x2 .addrSent))))
      ∧ RegValues.flag (after (exec .seqClrSr2 (armed (still 0x2 .addrSent)))).per.rb .addr
        ≠ RegValues.flag (armed (still 0x2 .addrSent)).per.rb .addr)
    ∧ silent (still 0x84 .data).per = true
      ∧ exec .seqDataWrite (still 0x84 .data) = .next (after (exec .seqDataWrite (still 0x84 .data)))
      ∧ RegValues.flag (after (exec .seqDataWrite (still 0x84 .data))).per.rb .txe
        ≠ RegValues.flag (still 0x84 .data).per.rb .txe :=
  ⟨⟨by decide, rfl, by decide⟩, by decide, rfl, by decide⟩

theorem witness_UnclockedAccessIsRefused :
    RegValues.clkgate State.reset.cfg State.reset.per.rb = false ∧ (Instr.hasFlag 14).wf = true
    ∧ Instr.hasFlag 14 ≠ .clockGateEnable ∧ Instr.hasFlag 14 ≠ .seqIdle ∧ Instr.hasFlag 14 ≠ .seqLoopTest := by decide

theorem witness_MisalignedConfigIsRefused :
    (State.resetWith { Config.default with i2cBase := 0x40005401 }).cfg.i2cBase.toNat % 4 ≠ 0
    ∧ (State.resetWith { Config.default with clkenAddr := 0x40023843 }).cfg.clkenAddr.toNat % 4 ≠ 0 := by decide

theorem witness_ProtocolStateCodes :
    Upc.u0 ∈ [Upc.u0, .u1, .u2] ∧ Upc.u6 ∈ [Upc.u3, .u4, .u5, .u6] ∧ Upc.u9 ∈ [Upc.u7, .u8, .u9]
    ∧ Upc.u11 ∈ [Upc.u10, .u11] := by decide

theorem witness_BufferMemoryReadsWhatWasPut :
    Memory.wf [(0, 1), (0xFFFFFFFF, 2)] = true ∧ Memory.wf (Memory.write [(0xFFFFFFFF, 2)] 0 1) = true
    ∧ (0 : Nat) ≠ 0xFFFFFFFF := by decide

/-- The clock gate is on and the two-step clear is armed: the hypothesis of most statements about one instruction. -/
theorem witness_clocked : RegValues.clkgate on.cfg on.per.rb = true := by decide

theorem witness_SetEnabledWritesPeOnly :
    RegValues.clkgate on.cfg on.per.rb = true ∧ RegValues.pe (withCr1 0 on).per.rb = false
    ∧ Periph.isRef (still 0 .idle).per = false := by decide

theorem witness_DisableResetsReferenceEnv :
    (RegValues.flag (held 0x4F02 .addrSent).per.rb .berr = true ∧ RegValues.flag (held 0x4F02 .addrSent).per.rb .arlo = true
      ∧ RegValues.flag (held 0x4F02 .addrSent).per.rb .af = true ∧ RegValues.flag (held 0x4F02 .addrSent).per.rb .ovr = true
      ∧ RegValues.flag (held 0x4F02 .addrSent).per.rb .timeout = true)
    ∧ RegValues.clkgate on.cfg on.per.rb = true ∧ Periph.isRef on.per = true ∧ RegValues.pe on.per.rb = true := by decide

theorem witness_HasFlagAnswersTheBit :
    (selectorNamed 0 = true ∧ selectorNamed 14 = true ∧ RegValues.clkgate on.cfg on.per.rb = true)
    ∧ selectorNamed 3 = false ∧ selectorNamed 15 = false := by decide

theorem witness_ClearAddrClearsTheLatch :
    RegValues.clkgate (held 0x2 .addrSent).cfg (held 0x2 .addrSent).per.rb = true
    ∧ Periph.isScheduled (held 0x2 .addrSent).per = true ∧ addrUnderway (held 0x2 .addrSent).per = false ∧ RegValues.flag (held 0x2 .addrSent).per.rb .addr = true
    ∧ addrUnderway (holding 0x41 (onWith (.free 0) 0x2 .addrSent)).per = false
    ∧ RegValues.flag on.per.rb .addr = false := by decide

theorem witness_ConfigureWritesItsFields : RegValues.clkgate on.cfg on.per.rb = true := by decide

theorem witness_ConfigureAccessTrace :
    exec (.configure 0 0 .low 0 false) on = .next (after (exec (.configure 0 0 .low 0 false) on)) := rfl

/-- Both sides of the mode threshold of R86, and both duties. -/
theorem witness_ConfiguratorProperties :
    on.cfg.arithW = 64
    ∧ exec (.configure 8000000 100000 .low 0 false) on = .next (after (exec (.configure 8000000 100000 .low 0 false) on))
    ∧ exec (.configure 8000000 100001 .low 0 false) on = .next (after (exec (.configure 8000000 100001 .low 0 false) on))
    ∧ exec (.configure 8000000 100001 .high 0 false) on
      = .next (after (exec (.configure 8000000 100001 .high 0 false) on)) := ⟨by decide, rfl, rfl, rfl⟩

theorem witness_ConfigureIsIdempotent :
    exec (.configure 42000000 400000 .high 0x10 true) on
      = .next (after (exec (.configure 42000000 400000 .high 0x10 true) on)) := rfl

/-- An empty buffer anywhere, and a buffer that ends just below the registers. -/
theorem witness_MasterSendStartsTheSequencer :
    ((∀ k, k < 40 → (0#32).toNat ≤ (on.cfg.i2cBase + BitVec.ofNat 32 k - 0x40005400#32).toNat)
      ∧ ∀ k, k < 4 → (0#32).toNat ≤ (on.cfg.clkenAddr + BitVec.ofNat 32 k - 0x40005400#32).toNat)
    ∧ (∀ k, k < 40 → (1#32).toNat ≤ (on.cfg.i2cBase + BitVec.ofNat 32 k - 0x400053FF#32).toNat)
      ∧ ∀ k, k < 4 → (1#32).toNat ≤ (on.cfg.clkenAddr + BitVec.ofNat 32 k - 0x400053FF#32).toNat := by decide

theorem witness_AliasingBufferIsRefused :
    (∃ k, k < 40 ∧ (on.cfg.i2cBase + BitVec.ofNat 32 k - 0x400053FF#32).toNat < (2#32).toNat)
    ∧ ∃ k, k < 4 ∧ (on.cfg.clkenAddr + BitVec.ofNat 32 k - 0x40023843#32).toNat < (1#32).toNat :=
  ⟨⟨0, by decide⟩, ⟨3, by decide⟩⟩

theorem witness_StepsWithoutAccess : Periph.isScheduled on.per = true := by decide

theorem witness_StartSetRequestsAStart : RegValues.clkgate on.cfg on.per.rb = true := by decide

theorem witness_StopSetRequestsAStopAndResponds : RegValues.clkgate on.cfg on.per.rb = true := by decide

theorem witness_PollsTestOneBit :
    RegValues.clkgate on.cfg on.per.rb = true
    ∧ (Instr.seqWaitSb, 0, Upc.u2, Upc.u3) ∈ [(Instr.seqWaitSb, 0, Upc.u2, Upc.u3), (.seqWaitAddr, 1, .u4, .u5),
      (.seqWaitTxe, 7, .u8, .u9), (.seqDrainTxe, 7, .u10, .u11), (.seqWaitBtf, 2, .u11, .u12)] := by decide

theorem witness_AddrWriteSendsTheAddressByte :
    RegValues.clkgate on.cfg on.per.rb = true ∧ Periph.isRef on.per = true 
    ∧ ((still 0x1 .started).per.env.phase = .started ∧ (still 0x1 .started).per.env.holdValid = false)
    ∧ (still 0x80 .data).per.env.phase = .data ∧ RegValues.flag (still 0x80 .data).per.rb .txe = true
    ∧ (still 0x80 .addrSent).per.env.phase = .addrSent := by decide

theorem witness_DataWriteSendsTheNextByte :
    RegValues.clkgate on.cfg on.per.rb = true ∧ Periph.isRef on.per = true
    ∧ Periph.drWriteDescribed (Periph.turn Config.default .buffer (still 0x80 .data).per) = true := by decide

theorem witness_UndescribedDrWriteIsRefused :
    RegValues.clkgate (still 0 .data).cfg (still 0 .data).per.rb = true ∧ Periph.isRef (still 0 .data).per = false
    ∧ (holding 0 (still 0 .started)).per.env.holdValid = true
    ∧ (still 0 .data).per.env.phase ≠ .started ∧ RegValues.flag (still 0 .data).per.rb .txe = false
    ∧ (still 0x80 .idle).per.env.phase ≠ .data ∧ (still 0x80 .idle).per.env.phase ≠ .addrSent
    ∧ Periph.drWriteDescribed (Periph.turn Config.default .buffer (still 0 .data).per) = false := by decide

theorem witness_ClearingReadsOfTheSequencer :
    RegValues.clkgate (armed (held 0x2 .addrSent)).cfg (armed (held 0x2 .addrSent)).per.rb = true
    ∧ Periph.isScheduled (armed (held 0x2 .addrSent)).per = true ∧ (armed (held 0x2 .addrSent)).per.clrArmed = true
    ∧ addrUnderway (armed (held 0x2 .addrSent)).per = false := by decide

theorem witness_RegistersChangeOnlyByTheirOwners : exec .clearAddr on = .next (after (exec .clearAddr on)) := rfl

/-- A start and a stop of the reference ENV, picked by R158 and by a plan, and a start of any other. -/
theorem witness_RequestsFallOnlyWhenServed :
    (Periph.refStep Config.default (withCr1 0x101 on).per = some (Periph.eStart (withCr1 0x101 on).per)
      ∧ RegValues.start (withCr1 0x101 on).per.rb = true
      ∧ RegValues.start (Periph.eStart (withCr1 0x101 on).per).rb = false)
    ∧ (Periph.refStep Config.default (withCr1 0x201 on).per = some (Periph.eStop (withCr1 0x201 on).per)
      ∧ RegValues.stop (withCr1 0x201 on).per.rb = true
      ∧ RegValues.stop (Periph.eStop (withCr1 0x201 on).per).rb = false)
    ∧ RegValues.start (Periph.envStep Config.default .start (withCr1 0x101 on).per).rb = false
    ∧ RegValues.stop (Periph.envStep Config.default .stop (withCr1 0x201 on).per).rb = false
    ∧ RegValues.start (Periph.applyMove Config.default (.genStart true false) (withCr1 0x101 (still 0 .idle)).per).rb = false := by
  decide

theorem witness_AddrRisesOnlyByAcknowledge :
    (Periph.refStep Config.default (holding 0xD0 (held 0x1 .started)).per = some (Periph.eAddr true (holding 0xD0 (held 0x1 .started)).per)
      ∧ RegValues.flag (holding 0xD0 (held 0x1 .started)).per.rb .addr = false
      ∧ RegValues.flag (Periph.eAddr true (holding 0xD0 (held 0x1 .started)).per).rb .addr = true)
    ∧ RegValues.flag (Periph.envStep Config.default (.addr true) (holding 0xD0 (held 0x1 .started)).per).rb .addr = true
    ∧ ((onAddr 0xD0).env.addrStage = .held
      ∧ (Periph.applyMove Config.default (.sendAddr true false) (onAddr 0xD0)).env.addrStage = .acked
      ∧ RegValues.flag (Periph.applyMove Config.default (.sendAddr true false) (onAddr 0xD0)).rb .addr = false
      ∧ RegValues.flag (Periph.applyMoves Config.default [.sendAddr true false, .raiseAddr true] (onAddr 0xD0)).rb .addr = true)
    ∧ ((Periph.applyMove Config.default .load (onAddr 0xD0)).env.addrStage = .shifting
      ∧ (Periph.applyMoves Config.default [.load, .shiftDone true false] (onAddr 0xD0)).env.addrStage = .acked)
    ∧ ((still 0x1 .started).per.env.addrStage ≠ .held
      ∧ (writeEffect .dr 0xD0 (still 0x1 .started).per).env.addrStage = .held)
    ∧ (withCr1 0x101 (still 0 .idle)).per.env.phase ≠ .started
      ∧ (Periph.applyMove Config.default (.genStart false false) (withCr1 0x101 (still 0 .idle)).per).env.phase = .started := by
  decide

/-- The reference ENV with given acknowledge draws. -/
def drawing (acks : List Bool) (p : Periph) : Periph := { p with env := { p.env with acks := acks } }

/-- One state for each of the six steps, those that draw with a draw listed and with none, and one in which none is enabled. -/
theorem witness_ReferenceEnvSteps :
    Periph.envEnabled Config.default on.per = true
    ∧ RegValues.stop (withCr1 0x201 on).per.rb = true
    ∧ (RegValues.stop (withCr1 0x101 on).per.rb = false ∧ RegValues.start (withCr1 0x101 on).per.rb = true
      ∧ (withCr1 0x101 on).per.env.phase = .idle)
    ∧ ((drawing [false, true] (holding 0xD0 (held 0x1 .started)).per).env.acks.headD true = false
      ∧ (holding 0xD0 (held 0x1 .started)).per.env.acks = []
      ∧ (drawing [false, true] (holding 0xD0 (held 0x1 .started)).per).env.holdValid = true
      ∧ (holding 0xD0 (held 0x1 .started)).per.env.phase = .started)
    ∧ ((Periph.eLoad (drawing [false] (holding 0x41 (held 0 .data)).per)).env.shiftValid = true
      ∧ (Periph.eLoad (drawing [false] (holding 0x41 (held 0 .data)).per)).env.acks.headD true = false
      ∧ Periph.envEnabled Config.default (Periph.eLoad (drawing [false] (holding 0x41 (held 0 .data)).per)) = true)
    ∧ ((holding 0x41 (held 0 .data)).per.env.holdValid = true
      ∧ (holding 0x41 (held 0 .data)).per.env.shiftValid = false)
    ∧ (RegValues.flag (held 0x80 .data).per.rb .btf = false ∧ (held 0x80 .data).per.env.holdValid = false)
    ∧ (RegValues.flag (held 0x84 .data).per.rb .btf = true ∧ (held 0x84 .data).per.env.holdValid = false
      ∧ (held 0x84 .data).per.env.shiftValid = false ∧ RegValues.stop (held 0x84 .data).per.rb = false
      ∧ (held 0x84 .data).per.env.phase ≠ .idle ∧ (held 0x84 .data).per.env.phase ≠ .started) := by decide

theorem witness_ReferenceEnvHooks :
    Periph.isRef (held 0x1 .started).per = true ∧ (held 0x1 .started).per.env.phase = .started
    ∧ (held 0x84 .data).per.env.phase = .data
    ∧ (on.per.env.phase ≠ .started ∧ on.per.env.phase ≠ .data)
    ∧ ((armed (held 0x2 .addrSent)).per.clrArmed = true ∧ (armed (held 0x2 .addrSent)).per.env.phase = .addrSent)
    ∧ ((armed (held 0x2 .idle)).per.clrArmed = true ∧ (armed (held 0x2 .idle)).per.env.phase ≠ .addrSent)
    ∧ (held 0x2 .addrSent).per.clrArmed = false ∧ Periph.isScheduled (held 0x2 .addrSent).per = true
    ∧ Periph.isRef (onWith (.anyRef 0) 0x1 .started).per = true := by decide

/-- Both schedulers, and lazy-1000 where its turn falls (after the 1000th access) as well as where it does not. -/
theorem witness_EagerRunsToQuiescence :
    on.per.env.sched = .eager ∧ (held 0 .idle).per.env.sched = .lazy 1000
    ∧ (busCount (held 0 .idle).acc + 1) % 1000 ≠ 0 ∧ (busCount (onWith (.lazy 1) 0 .idle).acc + 1) % 1 = 0 := by decide

theorem witness_AnyEnvTakesTheDrByte :
    Periph.isRef (still 0x1 .started).per = false ∧ Periph.isRef (onWith (.free 0) 0x1 .started).per = false
    ∧ (still 0x1 .started).per.env.phase = .started ∧ (still 0x80 .data).per.env.phase = .data
    ∧ (armed (still 0x2 .addrSent)).per.clrArmed = true ∧ (armed (still 0x2 .idle)).per.env.phase ≠ .addrSent
    ∧ (still 0x2 .idle).per.clrArmed = false := by decide

theorem witness_DisabledReferenceEnvIsInert :
    Periph.isRef State.reset.per = true ∧ RegValues.clkgate State.reset.cfg State.reset.per.rb = false
    ∧ Periph.isRef (withCr1 0x100 on).per = true ∧ RegValues.pe (withCr1 0x100 on).per.rb = false
    ∧ Periph.isScheduled on.per = true ∧ Periph.isRef (withCr1 0x100 (onWith (.anyRef 0) 0 .idle)).per = true := by decide

theorem witness_ReferenceEnvIsAPartOneEnv :
    Periph.isRef (withCr1 0x101 on).per = true ∧ latchInv (withCr1 0x101 on).per = true
    ∧ slotInv (withCr1 0x101 on).per = true
    ∧ Periph.refStep Config.default (withCr1 0x101 on).per = some (Periph.eStart (withCr1 0x101 on).per)
    ∧ Periph.envStep Config.default .start (withCr1 0x101 on).per = Periph.eStart (withCr1 0x101 on).per := by decide

/-- A zero-length send under the eager ENV runs to completion in ten steps (V-S2). -/
theorem witness_CompletedSendHasTheSpecTrace :
    (at_ .u0 on).cfg.wf = true ∧ (at_ .u0 on).ports.host = [] ∧ (at_ .u0 on).ports.offered = []
    ∧ (at_ .u0 on).mtc.busy = true
    ∧ exec (.masterSend 0x68 0 0) (at_ .u0 on) = .next (after (exec (.masterSend 0x68 0 0) (at_ .u0 on)))
    ∧ Host.Core.run core 10 (after (exec (.masterSend 0x68 0 0) (at_ .u0 on)))
      = .next (after (Host.Core.run core 10 (after (exec (.masterSend 0x68 0 0) (at_ .u0 on)))))
    ∧ (after (Host.Core.run core 10 (after (exec (.masterSend 0x68 0 0) (at_ .u0 on))))).mtc.busy = false :=
  ⟨by decide, by decide, by decide, by decide, rfl, rfl, by decide⟩

/-- A plan that does nothing at first and then offers the six steps in the reverse of a helpful order, one a turn. -/
def slowPlan : Scheduler :=
  .plan [[], [.stop]] [[.stop], [.drained], [.shiftDone true], [.load], [], [.addr true], [.start]]

theorem witness_WeaklyFairSendTerminates :
    fair [[], [.stop]] [[.stop], [.drained], [.shiftDone true], [.load], [], [.addr true], [.start]] = true
    ∧ (at_ .u0 (onWith slowPlan 0 .idle)).per.env.sched = slowPlan
    ∧ (at_ .u0 (onWith slowPlan 0 .idle)).cfg.wf = true ∧ (at_ .u0 (onWith slowPlan 0 .idle)).ports.host = []
    ∧ (at_ .u0 (onWith slowPlan 0 .idle)).ports.offered = [] ∧ (at_ .u0 (onWith slowPlan 0 .idle)).mtc.busy = true
    ∧ Periph.envEnabled Config.default (at_ .u0 (onWith slowPlan 0 .idle)).per = true
    ∧ (at_ .u0 (onWith slowPlan 0 .idle)).per.env.phase = .idle
    ∧ (at_ .u0 (onWith slowPlan 0 .idle)).per.env.holdValid = false
    ∧ (at_ .u0 (onWith slowPlan 0 .idle)).per.env.shiftValid = false
    ∧ (at_ .u0 (onWith slowPlan 0 .idle)).per.rb.sr1 = 0 ∧ (at_ .u0 (onWith slowPlan 0 .idle)).per.rb.cr1 = 1
    ∧ exec (.masterSend 0x7F 0xFFFFFFFF 2) (at_ .u0 (onWith slowPlan 0 .idle))
      = .next (after (exec (.masterSend 0x7F 0xFFFFFFFF 2) (at_ .u0 (onWith slowPlan 0 .idle)))) :=
  ⟨by decide, rfl, by decide, by decide, by decide, by decide, by decide, by decide, by decide, by decide, by decide, by decide,
    rfl⟩

theorem witness_EagerSendTerminates :
    (at_ .u0 on).cfg.wf = true ∧ (at_ .u0 on).ports.host = [] ∧ (at_ .u0 on).mtc.busy = true
    ∧ (at_ .u0 on).per.env.sched = .eager ∧ (at_ .u0 on).per.env.acks = []
    ∧ Periph.envEnabled Config.default (at_ .u0 on).per = true ∧ (at_ .u0 on).per.env.phase = .idle
    ∧ (at_ .u0 on).per.env.holdValid = false ∧ (at_ .u0 on).per.env.shiftValid = false
    ∧ (at_ .u0 on).per.rb.sr1 = 0 ∧ (at_ .u0 on).per.rb.cr1 = 1
    ∧ exec (.masterSend 0x7F 0xFFFFFFFF 2) (at_ .u0 on)
      = .next (after (exec (.masterSend 0x7F 0xFFFFFFFF 2) (at_ .u0 on))) :=
  ⟨by decide, by decide, by decide, by decide, by decide, by decide, by decide, by decide, by decide, by decide,
    by decide, rfl⟩

/-- One state for each of the five polls, and the hangs M-5 (not acknowledged) and M-7 (`PE = 0`) of 95_test_vectors.md. -/
theorem witness_HangIsAnInfiniteExecution :
    [(Upc.u2, Flag.sb), (.u4, .addr), (.u8, .txe), (.u10, .txe), (.u11, .btf)].all (fun uf =>
      (at_ uf.1 (still 0x400 .nacked)).cfg.wf && (at_ uf.1 (still 0x400 .nacked)).ports.host.isEmpty
        && (at_ uf.1 (still 0x400 .nacked)).mtc.busy
        && RegValues.clkgate (at_ uf.1 (still 0x400 .nacked)).cfg (at_ uf.1 (still 0x400 .nacked)).per.rb
        && silent (at_ uf.1 (still 0x400 .nacked)).per
        && !RegValues.flag (at_ uf.1 (still 0x400 .nacked)).per.rb uf.2) = true
    ∧ (Periph.isRef (at_ .u4 (onWith .eager 0x400 .nacked)).per = true
      ∧ (at_ .u4 (onWith .eager 0x400 .nacked)).per.env.phase = .nacked
      ∧ RegValues.stop (at_ .u4 (onWith .eager 0x400 .nacked)).per.rb = false
      ∧ RegValues.flag (at_ .u4 (onWith .eager 0x400 .nacked)).per.rb .addr = false)
    ∧ Periph.isRef (at_ .u2 (withCr1 0x500 on)).per = true ∧ RegValues.pe (at_ .u2 (withCr1 0x500 on)).per.rb = false
      ∧ RegValues.flag (at_ .u2 (withCr1 0x500 on)).per.rb .sb = false
    ∧ Periph.isRef (at_ .u4 (onWith (.anyRef 0) 0x400 .nacked)).per = true
      ∧ RegValues.flag (at_ .u4 (onWith (.anyRef 0) 0x400 .nacked)).per.rb .addr = false := by decide

/-- Its other premise, for a run of one step: the flag is 0 in every state before the first step's end. -/
theorem witness_HangIsAnInfiniteExecution_run :
    ∀ k u, k < 1 → Host.Core.run core k (at_ .u4 (onWith (.free 0) 0x400 .nacked)) = .next u →
      RegValues.flag u.per.rb .addr = false := by
  intro k u hk h
  obtain rfl : k = 0 := by omega
  injection h with h
  rw [← h]; decide

end Sys2Proof.Tests
end

/-! Proofs of the statements about the state (10_state.md). The rules come first: what one step runs, what each access does to
the registers, the flags and `WIRE`, and which accesses belong to which instruction. The obligations follow. -/

namespace Sys2Proof.StateProofs

open Sys2Proof.Machine Sys2Proof.Safety Sys2Proof.Laws

/-! ## What a step runs -/

/-- R66, R74, R117: where a step takes its work from. -/
theorem fetch_cases (s : State) :
    (s.mtc.busy = true ∧ fetch s = .run s.mtc.upc.instr s)
    ∨ (s.mtc.busy = false ∧ s.ports.offered = [] ∧ fetch s = .run .seqIdle s)
    ∨ ∃ w rest, s.mtc.busy = false ∧ s.ports.offered = w :: rest
      ∧ ((∃ i, decodeCommand w = .ok i ∧ fetch s = .run i (accept w rest s))
        ∨ ∃ err, decodeCommand w = .error err ∧ fetch s = .illegal (accept w rest s)) := by
  unfold fetch
  cases busy : s.mtc.busy with
  | true => exact .inl ⟨rfl, by simp [fetchMicro]⟩
  | false =>
    cases offered : s.ports.offered with
    | nil => exact .inr (.inl ⟨rfl, rfl, rfl⟩)
    | cons w rest =>
      refine .inr (.inr ⟨w, rest, rfl, rfl, ?_⟩)
      cases decoded : decodeCommand w with
      | ok i => exact .inl ⟨i, rfl, by simp [decodeAccepted, decoded]⟩
      | error err => exact .inr ⟨err, rfl, by simp [decodeAccepted, decoded]⟩

/-- A step that goes on is a pulse of `rst`, or it runs what `fetch` finds after the host's move. -/
theorem step_cases {s t : State} (e : step s = .next t) :
    (rstAsserted s = true ∧ t = hostTurn s)
    ∨ (rstAsserted s = false ∧ runWork (fetch (hostTurn s)) = .next t) := by
  unfold step at e
  split at e
  · split at e
    · next rst => exact .inl ⟨rst, (Host.Outcome.next.inj e).symm⟩
    · next rst => exact .inr ⟨by simpa using rst, e⟩
  · cases e

/-- Outside `rst` a step runs an instruction or answers an illegal command, in a state with the parameters and the peripheral that
the host's move left. -/
theorem step_runs {s t : State} (e : step s = .next t) (rst : rstAsserted s = false) :
    ∃ u, u.cfg = (hostTurn s).cfg ∧ u.per = (hostTurn s).per ∧ ((∃ i, exec i u = .next t) ∨ t = respondIllegal u) := by
  obtain ⟨h, -⟩ | ⟨-, h⟩ := step_cases e
  · simp [rst] at h
  obtain ⟨-, f⟩ | ⟨-, -, f⟩ | ⟨w, rest, -, -, ⟨i, -, f⟩ | ⟨_, -, f⟩⟩ := fetch_cases (hostTurn s) <;> rw [f] at h
  · exact ⟨hostTurn s, rfl, rfl, .inl ⟨(hostTurn s).mtc.upc.instr, h⟩⟩
  · exact ⟨hostTurn s, rfl, rfl, .inl ⟨.seqIdle, h⟩⟩
  · exact ⟨accept w rest (hostTurn s), rfl, rfl, .inl ⟨i, h⟩⟩
  · exact ⟨accept w rest (hostTurn s), rfl, rfl, .inr (Host.Outcome.next.inj h).symm⟩

theorem hostTurn_cfg (s : State) : (hostTurn s).cfg = s.cfg := by
  unfold hostTurn
  split
  · rfl
  · next m _ _ => cases m <;> rfl

/-- The host reaches the peripheral through `rst` alone. -/
theorem hostTurn_per {s : State} (rst : rstAsserted s = false) : (hostTurn s).per = s.per := by
  unfold hostTurn
  split
  · rfl
  · next m rest h =>
    cases m with
    | rst => simp [rstAsserted, h] at rst
    | _ => rfl

/-- R180: what `rst` makes of the peripheral. -/
theorem hostTurn_per_of_rst {s : State} (rst : rstAsserted s = true) :
    (hostTurn s).per = ⟨s.cfg.rbReset, false, Env.reset s.per.env.sched s.per.env.acks s.per.env.draws⟩ := by
  unfold rstAsserted at rst
  split at rst
  · next h => simp [hostTurn, h, applyHost, rstState]
  · cases rst

/-- A property that ENV's turn and the accesses keep, and that holds after the host's move, holds after the step. -/
theorem step_keeps {P : Periph → Prop} (turn : ∀ c w p, P p → P (Periph.turn c w p))
    (read : ∀ r p, P p → P (readEffect r p)) (write : ∀ r v p, P p → P (writeEffect r v p))
    {s t : State} (e : step s = .next t) (h : P (hostTurn s).per) : P t.per := by
  cases rst : rstAsserted s with
  | true =>
    obtain ⟨-, rfl⟩ | ⟨no, -⟩ := step_cases e
    · exact h
    · simp [rst] at no
  | false =>
    obtain ⟨u, -, per, ⟨i, run⟩ | rfl⟩ := step_runs e rst
    · exact exec_keeps turn read write run (per ▸ h)
    · exact per ▸ h

/-! ## What an access does to the registers and to `WIRE` -/

/-- R46: the registers with the value a write stores; `DR` is not storage (R22). -/
def stored (r : WriteReg) (v : Word) (rb : RegValues) : RegValues :=
  match r with
  | .cr1 => { rb with cr1 := v }
  | .cr2 => { rb with cr2 := v }
  | .oar1 => { rb with oar1 := v }
  | .dr => rb
  | .ccr => { rb with ccr := v }
  | .trise => { rb with trise := v }
  | .clken => { rb with clken := v }

@[simp] theorem stored_oar2 (r : WriteReg) (v : Word) (rb : RegValues) : (stored r v rb).oar2 = rb.oar2 := by cases r <;> rfl
@[simp] theorem stored_fltr (r : WriteReg) (v : Word) (rb : RegValues) : (stored r v rb).fltr = rb.fltr := by cases r <;> rfl
theorem stored_cr1_of_ne {r : WriteReg} (hr : r ≠ .cr1) (v : Word) (rb : RegValues) : (stored r v rb).cr1 = rb.cr1 := by
  cases r with
  | cr1 => exact absurd rfl hr
  | _ => rfl

/-- R45, R152: the hook after a clearing read sets `TXE` under the reference ENV and touches no other register. -/
theorem addrClearHook_rb (p : Periph) : (Periph.addrClearHook p).rb = p.rb
    ∨ (Periph.isRef p = true ∧ (Periph.addrClearHook p).rb = RegValues.setFlag p.rb .txe true) := by
  unfold Periph.addrClearHook
  split
  · cases ref : Periph.isRef p with
    | true => exact .inr ⟨rfl, rfl⟩
    | false => exact .inl rfl
  · exact .inl rfl

/-- R45: a read changes at most the two status registers. -/
theorem readEffect_rb (r : ReadReg) (p : Periph) :
    ∃ sr1 sr2, (readEffect r p).rb = { p.rb with sr1 := sr1, sr2 := sr2 } := by
  cases r with
  | sr2 =>
    show ∃ sr1 sr2, (sr2ReadEffect p).rb = _
    unfold sr2ReadEffect
    dsimp only
    split
    · obtain h | ⟨-, h⟩ := addrClearHook_rb _
      · exact ⟨_, _, h⟩
      · exact ⟨_, _, h⟩
    · exact ⟨p.rb.sr1, _, rfl⟩
  | _ => exact ⟨p.rb.sr1, p.rb.sr2, rfl⟩

/-- A read of a register other than `SR2` changes no register. -/
theorem readEffect_rb_of_ne {r : ReadReg} (hr : r ≠ .sr2) (p : Periph) : (readEffect r p).rb = p.rb := by
  cases r with
  | sr2 => exact absurd rfl hr
  | _ => rfl

/-- X16: disabling tells the reference ENV alone. -/
theorem disableHook_of_not_isRef {p : Periph} (h : Periph.isRef p = false) : Periph.disableHook p = p := by
  unfold Periph.disableHook; rw [h]; rfl

/-- R157: the reference ENV is back in its idle phase, with its four flags cleared. -/
theorem disableHook_of_isRef {p : Periph} (h : Periph.isRef p = true) :
    (Periph.disableHook p).env.phase = .idle ∧ ∃ sr1, (Periph.disableHook p).rb = { p.rb with sr1 := sr1 } := by
  unfold Periph.disableHook; rw [if_pos h]; exact ⟨rfl, _, rfl⟩

@[simp] theorem disableHook_clrArmed (p : Periph) : (Periph.disableHook p).clrArmed = p.clrArmed := by
  unfold Periph.disableHook; split <;> rfl

@[simp] theorem disableHook_wire (p : Periph) : (Periph.disableHook p).env.wire = p.env.wire := by
  unfold Periph.disableHook; split <;> rfl

/-- R144, R150: a `DR` write is dropped, or its byte enters the holding slot; then `TXE` falls, under the reference ENV `SB` alone
after a start and `BTF` as well in the data phase. -/
theorem drHook_cases (b : Byte) (p : Periph) : Periph.drHook b p = p
    ∨ ∃ rb stage, Periph.drHook b p =
        { p with rb := rb, env := { p.env with hold := b, holdValid := true, addrStage := stage } }
      ∧ (rb = RegValues.setFlag p.rb .txe false
        ∨ (Periph.isRef p = true ∧ (rb = RegValues.setFlag p.rb .sb false
          ∨ rb = RegValues.setFlag (RegValues.setFlag p.rb .txe false) .btf false))) := by
  unfold Periph.drHook
  split
  · refine .inr ⟨_, _, rfl, ?_⟩
    cases Periph.isRef p <;> simp
  · split
    · refine .inr ⟨_, p.env.addrStage, rfl, ?_⟩
      cases Periph.isRef p <;> simp
    · exact .inl rfl

/-- R46, R157: a `CR1` write stores and disarms, and besides tells the reference ENV when it clears `PE`. -/
theorem cr1WriteEffect_cases (v : Word) (p : Periph) :
    cr1WriteEffect v p = { p with rb := stored .cr1 v p.rb, clrArmed := false }
    ∨ (Periph.isRef p = true ∧ RegValues.pe p.rb = true ∧ bitAt v posPe = false
      ∧ cr1WriteEffect v p = Periph.disableHook { p with rb := stored .cr1 v p.rb, clrArmed := false }) := by
  unfold cr1WriteEffect
  dsimp only
  split
  · next h =>
    simp only [Bool.and_eq_true, Bool.not_eq_true'] at h
    cases ref : Periph.isRef p with
    | true => exact .inr ⟨rfl, h.1, h.2, rfl⟩
    | false => exact .inl (disableHook_of_not_isRef ref)
  · exact .inl rfl

/-- R46, R150, R157: a write stores its value and changes at most `SR1` besides. -/
theorem writeEffect_rb (r : WriteReg) (v : Word) (p : Periph) :
    ∃ sr1, (writeEffect r v p).rb = { stored r v p.rb with sr1 := sr1 } := by
  cases r with
  | cr1 =>
    show ∃ sr1, (cr1WriteEffect v p).rb = _
    obtain h | ⟨ref, -, -, h⟩ := cr1WriteEffect_cases v p <;> rw [h]
    · exact ⟨p.rb.sr1, rfl⟩
    · exact (disableHook_of_isRef (p := { p with rb := stored .cr1 v p.rb, clrArmed := false }) ref).2
  | dr =>
    show ∃ sr1, (Periph.drHook _ _).rb = _
    obtain h | ⟨rb, stage, h, rfl | ⟨-, rfl | rfl⟩⟩ := drHook_cases (v.setWidth 8) { p with clrArmed := false } <;> rw [h]
    · exact ⟨p.rb.sr1, rfl⟩
    all_goals exact ⟨_, rfl⟩
  | _ => exact ⟨p.rb.sr1, rfl⟩

/-- A write of a register other than `CR1` and `DR` changes no flag. -/
theorem writeEffect_sr1_of_ne {r : WriteReg} (h1 : r ≠ .cr1) (h2 : r ≠ .dr) (v : Word) (p : Periph) :
    (writeEffect r v p).rb.sr1 = p.rb.sr1 := by
  cases r with
  | cr1 => exact absurd rfl h1
  | dr => exact absurd rfl h2
  | _ => rfl

@[simp] theorem readEffect_wire (r : ReadReg) (p : Periph) : (readEffect r p).env.wire = p.env.wire := by
  cases r with
  | sr2 =>
    show (sr2ReadEffect p).env.wire = _
    unfold sr2ReadEffect
    dsimp only
    split
    · rw [addrClearHook_env]
    · rfl
  | _ => rfl

@[simp] theorem writeEffect_wire (r : WriteReg) (v : Word) (p : Periph) : (writeEffect r v p).env.wire = p.env.wire := by
  cases r with
  | cr1 =>
    show (cr1WriteEffect v p).env.wire = _
    obtain h | ⟨-, -, -, h⟩ := cr1WriteEffect_cases v p <;> simp [h]
  | dr =>
    show (Periph.drHook _ _).env.wire = _
    obtain h | ⟨rb, stage, h, -⟩ := drHook_cases (v.setWidth 8) { p with clrArmed := false } <;> rw [h]
  | _ => rfl

/-! ## What an access does to the flags -/

/-- A silent ENV is not the reference one. -/
theorem isRef_of_silent {p : Periph} (h : silent p = true) : Periph.isRef p = false := by
  unfold silent at h
  unfold Periph.isRef
  rw [beq_iff_eq.1 h]

/-- A silent ENV stays silent over what leaves its schedule alone. -/
theorem silent_of_sched {p q : Periph} (h : q.env.sched = p.env.sched) : silent q = silent p := by
  unfold silent; rw [h]

theorem flag_of_sr1 {a b : RegValues} (h : a.sr1 = b.sr1) (f : Flag) : RegValues.flag a f = RegValues.flag b f :=
  congrArg (fun w => bitAt w f.pos) h

/-- R45: a read of `SR2` changes no flag but `ADDR`, and under the reference ENV `TXE`. -/
theorem sr2ReadEffect_flag {p : Periph} {f : Flag} (addr : f ≠ .addr) (txe : Periph.isRef p = true → f ≠ .txe) :
    RegValues.flag (sr2ReadEffect p).rb f = RegValues.flag p.rb f := by
  have same : RegValues.flag { p.rb with sr2 := sr2Draw p } f = RegValues.flag p.rb f := rfl
  unfold sr2ReadEffect
  dsimp only
  split
  · obtain h | ⟨ref, h⟩ := addrClearHook_rb _ <;> rw [h]
    · simp [addr, same]
    · simp [addr, txe ref, same]
  · exact same

/-- R35: an unarmed read of `SR2` clears nothing and ends no address phase. -/
theorem sr2ReadEffect_of_unarmed {p : Periph} (h : p.clrArmed = false) :
    (sr2ReadEffect p).rb = { p.rb with sr2 := sr2Draw p } ∧ (sr2ReadEffect p).env.phase = p.env.phase := by
  unfold sr2ReadEffect
  simp [h]

/-- R24, R150: a `DR` write changes no flag but `TXE` under an ENV that is not the reference one. -/
theorem drHook_flag_of_not_isRef {p : Periph} {f : Flag} (b : Byte) (ref : Periph.isRef p = false) (txe : f ≠ .txe) :
    RegValues.flag (Periph.drHook b p).rb f = RegValues.flag p.rb f := by
  obtain h | ⟨_, _, h, rfl | ⟨isRef, -⟩⟩ := drHook_cases b p
  · rw [h]
  · rw [h]; simp [txe]
  · simp [ref] at isRef

theorem drHook_addr (b : Byte) (p : Periph) :
    RegValues.flag (Periph.drHook b p).rb .addr = RegValues.flag p.rb .addr := by
  obtain h | ⟨_, _, h, rfl | ⟨-, rfl | rfl⟩⟩ := drHook_cases b p <;> rw [h] <;> simp

theorem drHook_phase (b : Byte) (p : Periph) : (Periph.drHook b p).env.phase = p.env.phase := by
  obtain h | ⟨_, _, h, -⟩ := drHook_cases b p <;> rw [h]

/-- R157: unless it disables the reference ENV, a `CR1` write changes no flag. -/
theorem cr1WriteEffect_sr1 {v : Word} {p : Periph}
    (h : Periph.isRef p = false ∨ RegValues.pe p.rb = false ∨ bitAt v posPe = true) :
    (cr1WriteEffect v p).rb.sr1 = p.rb.sr1 := by
  obtain stores | ⟨ref, pe, off, -⟩ := cr1WriteEffect_cases v p
  · rw [stores]; rfl
  · simp [ref, pe, off] at h

/-! ## Which accesses an instruction makes -/

/-- R108, R123: the instructions that read `SR2`. -/
def readsSr2 (i : Instr) : Prop := i = .clearAddr ∨ i = .seqClrSr2

/-- R120, R126: the instructions that write `DR`. -/
def writesDr (i : Instr) : Prop := i = .seqDataWrite ∨ i = .seqAddrWrite

/-- R84, R100, R110, R118, R129: the read-modify-writes of `CR1`, with the bits each owns and those it sets. -/
inductive RmwsCr1 : Instr → Word → Word → Prop where
  | configure (pclk scl : Word) (duty : Duty) (addr : Addr7) (ack : Bool) :
    RmwsCr1 (.configure pclk scl duty addr ack) ackMask (maskIf ack ackMask)
  | setEnabled (en : Bool) : RmwsCr1 (.setEnabled en) peMask (maskIf en peMask)
  | initEnable (addr : Addr7) (ack : Bool) (scl : Word) (duty : Duty) :
    RmwsCr1 (.initPeripheral addr ack scl duty) peMask (maskIf true peMask)
  | initAck (addr : Addr7) (ack : Bool) (scl : Word) (duty : Duty) :
    RmwsCr1 (.initPeripheral addr ack scl duty) ackMask (maskIf ack ackMask)
  | startSet : RmwsCr1 .seqStartSet startMask startMask
  | stopSet : RmwsCr1 .seqStopSet stopMask stopMask

theorem eq_of_bitAt_bitMask {n m : Nat} (h : bitAt (bitMask n) m = true) : m = n := by
  rw [bitAt_bitMask, Bool.and_eq_true] at h
  exact of_decide_eq_true h.2

theorem eq_of_bitAt_maskIf {b : Bool} {n m : Nat} (h : bitAt (maskIf b (bitMask n)) m = true) : m = n := by
  rw [bitAt_maskIf, Bool.and_eq_true] at h
  exact eq_of_bitAt_bitMask h.2

/-- R142: the bits of `CR1` that are ever set, `START` in SEQ_START_SET alone and `STOP` in SEQ_STOP_SET alone. -/
theorem RmwsCr1.bit_set {i : Instr} {clr set : Word} {n : Nat} (h : RmwsCr1 i clr set) (own : bitAt set n = true) :
    n = posPe ∨ n = posAck ∨ (n = posStart ∧ i = .seqStartSet) ∨ (n = posStop ∧ i = .seqStopSet) := by
  cases h with
  | configure => exact .inr (.inl (eq_of_bitAt_maskIf own))
  | setEnabled => exact .inl (eq_of_bitAt_maskIf own)
  | initEnable => exact .inl (eq_of_bitAt_maskIf own)
  | initAck => exact .inr (.inl (eq_of_bitAt_maskIf own))
  | startSet => exact .inr (.inr (.inl ⟨eq_of_bitAt_bitMask own, rfl⟩))
  | stopSet => exact .inr (.inr (.inr ⟨eq_of_bitAt_bitMask own, rfl⟩))

/-- R100: `PE` is cleared by SET_ENABLED(0) alone. -/
theorem RmwsCr1.pe {i : Instr} {clr set : Word} (h : RmwsCr1 i clr set) (i_ne : i ≠ .setEnabled false) :
    bitAt clr posPe = false ∨ bitAt set posPe = true := by
  cases h with
  | setEnabled en =>
    cases en with
    | true => exact .inr (by decide)
    | false => exact absurd rfl i_ne
  | initEnable => exact .inr (by decide)
  | configure => exact .inl (by decide)
  | initAck => exact .inl (by decide)
  | startSet => exact .inl (by decide)
  | stopSet => exact .inl (by decide)

/-- A property of the peripheral that survives ENV's turns and every access that the instruction `i` makes: the reads of any other
register than `SR2`, the writes of any other than `CR1` and `DR`, and of those three what `i` itself does with them. -/
structure Survives (i : Instr) (P : Periph → Prop) : Prop where
  turn : ∀ c w p, P p → P (Periph.turn c w p)
  read : ∀ r p, r ≠ .sr2 → P p → P (readEffect r p)
  write : ∀ r v p, r ≠ .cr1 → r ≠ .dr → P p → P (writeEffect r v p)
  readSr2 : readsSr2 i → ∀ p, P p → P (sr2ReadEffect p)
  writeDr : writesDr i → ∀ v p, P p → P (writeEffect .dr v p)
  rmwCr1 : ∀ clr set, RmwsCr1 i clr set → ∀ s, P s.per → P (regRmw .cr1 clr set s).per

namespace Survives
variable {i : Instr} {P : Periph → Prop}

theorem regRead (k : Survives i P) {r : ReadReg} (hr : r ≠ .sr2) (s : State) (h : P s.per) : P (regRead r s).2.per := by
  rw [regRead_per]; exact k.turn _ _ _ (k.read r _ hr h)

theorem regReadSr2 (k : Survives i P) (own : readsSr2 i) (s : State) (h : P s.per) : P (Machine.regRead .sr2 s).2.per := by
  rw [regRead_per]; exact k.turn _ _ _ (k.readSr2 own _ h)

theorem regWrite (k : Survives i P) {r : WriteReg} (h1 : r ≠ .cr1) (h2 : r ≠ .dr) (v : Word) (s : State) (h : P s.per) :
    P (regWrite r v s).per := by
  rw [regWrite_per]; exact k.turn _ _ _ (k.write r v _ h1 h2 h)

theorem regWriteDr (k : Survives i P) (own : writesDr i) (v : Word) (s : State) (h : P s.per) :
    P (Machine.regWrite .dr v s).per := by
  rw [regWrite_per]; exact k.turn _ _ _ (k.writeDr own v _ h)

theorem regRmw (k : Survives i P) {r : RmwReg} (hr : r ≠ .cr1) (clr set : Word) (s : State) (h : P s.per) :
    P (regRmw r clr set s).per :=
  k.regWrite (by cases r <;> simp_all [RmwReg.toWrite]) (by cases r <;> decide) _ _
    (k.regRead (by cases r <;> decide) s h)

theorem pollFlag (k : Survives i P) (f : Flag) (a b : Upc) (s : State) (h : P s.per) : P (pollFlag f a b s).per :=
  k.regRead (r := .sr1) (by decide) s h

theorem configBody (k : Survives i P) (pclk scl : Word) (duty : Duty) (addr : Addr7) (ack : Bool)
    (own : RmwsCr1 i ackMask (maskIf ack ackMask)) (s : State) (h : P s.per) :
    P (configBody pclk scl duty addr ack s).per := by
  refine k.regWrite (r := .trise) (by decide) (by decide) _ _ ?_
  refine k.regRmw (r := .ccr) (by decide) _ _ _ ?_
  refine k.regWrite (r := .oar1) (by decide) (by decide) _ _ ?_
  refine k.regRmw (r := .cr2) (by decide) _ _ _ ?_
  exact k.rmwCr1 _ _ own (latchConfig pclk scl duty addr ack s) h

theorem initBody (k : Survives i P) (addr : Addr7) (ack : Bool) (scl : Word) (duty : Duty)
    (ownPe : RmwsCr1 i peMask (maskIf true peMask)) (ownAck : RmwsCr1 i ackMask (maskIf ack ackMask))
    (s : State) (h : P s.per) : P (initBody addr ack scl duty s).per := by
  have gate : P (clockGateBody s).per := k.regRmw (r := .clken) (by decide) _ _ s h
  have enable : P (enableBody true (clockGateBody s)).per := k.rmwCr1 _ _ ownPe _ gate
  unfold Machine.initBody
  exact k.configBody _ scl duty addr ack ownAck _ enable

/-- What survives every access an instruction makes holds after the instruction. -/
theorem exec (k : Survives i P) {s t : State} (e : exec i s = .next t) (h : P s.per) : P t.per := by
  rw [exec_next e]
  cases i with
  | configure pclk scl duty addr ack => exact k.configBody pclk scl duty addr ack (.configure pclk scl duty addr ack) s h
  | setEnabled en => exact k.rmwCr1 _ _ (.setEnabled en) s h
  | clockGateEnable => exact k.regRmw (r := .clken) (by decide) _ _ s h
  | hasFlag sel =>
    simp only [nextState]
    split
    · exact k.regRead (r := .sr1) (by decide) s h
    · exact h
  | clearAddr => exact k.regReadSr2 (.inl rfl) _ (k.regRead (r := .sr1) (by decide) s h)
  | masterSend addr ptr len => exact h
  | initPeripheral addr ack scl duty =>
    unfold nextState
    rw [respond_per]
    exact k.initBody addr ack scl duty (.initEnable addr ack scl duty) (.initAck addr ack scl duty) s h
  | seqIdle =>
    unfold nextState
    rw [internalTurn_per]; exact k.turn _ _ _ h
  | seqStartSet => exact k.rmwCr1 _ _ .startSet s h
  | seqWaitSb => exact k.pollFlag _ _ _ s h
  | seqAddrWrite => exact k.regWriteDr (.inr rfl) _ s h
  | seqWaitAddr => exact k.pollFlag _ _ _ s h
  | seqClrSr1 => exact k.regRead (r := .sr1) (by decide) s h
  | seqClrSr2 => exact k.regReadSr2 (.inr rfl) s h
  | seqLoopTest =>
    unfold nextState
    rw [setUpc_per, internalTurn_per]; exact k.turn _ _ _ h
  | seqWaitTxe => exact k.pollFlag _ _ _ s h
  | seqDataWrite =>
    refine k.regWriteDr (.inl rfl) _ _ ?_
    rw [bufRead_per]; exact k.turn _ _ _ h
  | seqDrainTxe => exact k.pollFlag _ _ _ s h
  | seqWaitBtf => exact k.pollFlag _ _ _ s h
  | seqStopSet => exact k.rmwCr1 _ _ .stopSet s h

end Survives

/-! ## The invariant of the two-step clear -/

/-- The two clauses of the invariant as propositions. -/
theorem latchInv_iff (p : Periph) : latchInv p = true ↔
    (p.clrArmed = true → RegValues.flag p.rb .addr = true)
    ∧ (Periph.isRef p = true → p.env.phase = .data → RegValues.flag p.rb .addr = false) := by
  unfold latchInv
  cases p.clrArmed <;> cases RegValues.flag p.rb .addr <;> cases Periph.isRef p <;> simp

/-- R39, R180: after a reset nothing is armed and no data phase is on. -/
theorem latchInv_reset (rb : RegValues) (sched : Scheduler) (acks : List Bool) (draws : Nat) :
    latchInv ⟨rb, false, Env.reset sched acks draws⟩ = true := by
  rw [latchInv_iff]
  exact ⟨fun h => (Bool.false_ne_true h).elim, fun _ h => Phase.noConfusion h⟩

/-- R143: ENV neither arms the two-step clear nor clears a latched `ADDR`. -/
theorem latched_of_envOnly {p q : Periph} (h : EnvOnly p q) (latched : p.clrArmed = true → RegValues.flag p.rb .addr = true)
    (armed : q.clrArmed = true) : RegValues.flag q.rb .addr = true :=
  h.addr (latched (h.armed ▸ armed))

/-- R149 to R156: no step of the reference ENV enters the data phase, and none latches `ADDR` in it. -/
theorem takeStep_dataClear (m : EnvStep) {p : Periph} (h : p.env.phase = .data → RegValues.flag p.rb .addr = false)
    (data : (Periph.takeStep m p).env.phase = .data) : RegValues.flag (Periph.takeStep m p).rb .addr = false := by
  cases m with
  | start => cases data
  | addr a => cases a <;> cases data
  | drained => simpa [Periph.takeStep, Periph.eDrained] using h data
  | load => simpa [Periph.takeStep, Periph.eLoad] using h data
  | stop => cases data
  | shiftDone a =>
    cases a with
    | true => exact h data
    | false => cases data

theorem turn_latchInv (c : Config) (w : Periph.TurnPoint) (p : Periph) (h : latchInv p = true) :
    latchInv (Periph.turn c w p) = true := by
  refine turn_keeps (P := fun q => latchInv q = true) ?_ ?_ ?_ w p h
  · intro m q hq ref _
    rw [latchInv_iff] at hq ⊢
    exact ⟨latched_of_envOnly (takeStep_envOnly m q) hq.1, fun _ => takeStep_dataClear m (hq.2 ref)⟩
  · intro m q hq other
    have kind : Periph.isRef (Periph.applyMove c m q) = false := (isRef_of_sched (applyMove_sched m q)).trans other
    rw [latchInv_iff] at hq ⊢
    exact ⟨latched_of_envOnly (applyMove_envOnly m q) hq.1, fun ref => by simp [kind] at ref⟩
  · intro q sc acks hq kind
    rw [latchInv_iff] at hq ⊢
    exact ⟨hq.1, fun ref => hq.2 (kind ▸ ref)⟩

/-- R35, R45: a read arms only over a latched `ADDR`, and the clearing read clears it before the data phase. -/
theorem readEffect_latchInv (r : ReadReg) (p : Periph) (h : latchInv p = true) : latchInv (readEffect r p) = true := by
  have disarmed : latchInv { p with clrArmed := false } = true := by
    rw [latchInv_iff] at h ⊢
    exact ⟨fun x => (Bool.false_ne_true x).elim, h.2⟩
  rw [latchInv_iff] at h
  cases r with
  | clken => exact (latchInv_iff p).2 h
  | sr1 => exact (latchInv_iff _).2 ⟨id, h.2⟩
  | sr2 =>
    have off : (sr2ReadEffect p).clrArmed = false := (sr2ReadEffect_envOnly p).armed
    refine (latchInv_iff _).2 ⟨fun armed => absurd (off.symm.trans armed) Bool.false_ne_true, ?_⟩
    intro ref data
    cases armed : p.clrArmed with
    | true => exact sr2ReadEffect_addr armed
    | false =>
      obtain ⟨rb, phase⟩ := sr2ReadEffect_of_unarmed armed
      exact (flag_of_sr1 (congrArg RegValues.sr1 rb) .addr).trans
        (h.2 ((readEffect_isRef .sr2 p).symm.trans ref) (phase.symm.trans data))
  | _ => exact disarmed

theorem writeEffect_latchInv (r : WriteReg) (v : Word) (p : Periph) (h : latchInv p = true) :
    latchInv (writeEffect r v p) = true := by
  rw [latchInv_iff] at h
  have disarmed : ∀ q : Periph, q.clrArmed = false → Periph.isRef q = Periph.isRef p →
      (q.env.phase = .data → p.env.phase = .data ∧ RegValues.flag q.rb .addr = RegValues.flag p.rb .addr) →
      latchInv q = true := by
    intro q off kind data
    refine (latchInv_iff q).2 ⟨fun armed => by simp [off] at armed, fun ref hq => ?_⟩
    obtain ⟨hp, same⟩ := data hq
    exact same.trans (h.2 (kind ▸ ref) hp)
  cases r with
  | clken => exact (latchInv_iff _).2 h
  | dr =>
    exact disarmed _ (drHook_envOnly _ _).armed (writeEffect_isRef .dr v p)
      fun data => ⟨(drHook_phase _ { p with clrArmed := false }).symm.trans data, drHook_addr _ _⟩
  | cr1 =>
    show latchInv (cr1WriteEffect v p) = true
    obtain e | ⟨ref, -, -, e⟩ := cr1WriteEffect_cases v p <;> rw [e]
    · exact disarmed _ rfl rfl fun data => ⟨data, rfl⟩
    · refine disarmed _ (disableHook_clrArmed _) (isRef_of_sched (disableHook_sched _)) fun data => ?_
      rw [(disableHook_of_isRef (p := { p with rb := stored .cr1 v p.rb, clrArmed := false }) ref).1] at data
      cases data
  | _ => exact disarmed _ rfl rfl fun data => ⟨data, rfl⟩

theorem hostTurn_latchInv {s : State} (h : latchInv s.per = true) : latchInv (hostTurn s).per = true := by
  cases rst : rstAsserted s with
  | true => rw [hostTurn_per_of_rst rst]; exact latchInv_reset _ _ _ _
  | false => rw [hostTurn_per rst]; exact h

/-- Settles O12: the host's move, ENV's turns and every access keep the invariant. -/
theorem stepKeepsLatchInvariant : Obligations.StepKeepsLatchInvariant := fun _ _ h e =>
  step_keeps (P := fun p => latchInv p = true) turn_latchInv readEffect_latchInv writeEffect_latchInv e (hostTurn_latchInv h)

/-! ## Parameters, buffer and opaque registers -/

theorem exec_cfg {i : Instr} {s t : State} (e : exec i s = .next t) : t.cfg = s.cfg := by
  rw [exec_next e]
  cases i with
  | configure => unfold nextState; simp
  | initPeripheral => unfold nextState; simp
  | hasFlag => simp only [nextState]; split <;> rfl
  | _ => rfl

theorem exec_buf {i : Instr} {s t : State} (e : exec i s = .next t) : t.buf = s.buf := by
  rw [exec_next e]
  cases i with
  | configure => unfold nextState; simp
  | initPeripheral => unfold nextState; simp
  | hasFlag => simp only [nextState]; split <;> rfl
  | _ => rfl

theorem step_cfg {s t : State} (e : step s = .next t) : t.cfg = s.cfg := by
  rw [← hostTurn_cfg s]
  cases rst : rstAsserted s with
  | true =>
    obtain ⟨-, rfl⟩ | ⟨no, -⟩ := step_cases e
    · rfl
    · simp [rst] at no
  | false =>
    obtain ⟨u, cfg, -, ⟨i, run⟩ | rfl⟩ := step_runs e rst
    · exact (exec_cfg run).trans cfg
    · exact cfg

/-- Settles O15, from what each instruction does to the two fields. -/
theorem parametersAndBufferAreImmutable : Obligations.ParametersAndBufferAreImmutable :=
  ⟨fun _ _ => step_cfg, fun _ _ _ => exec_buf⟩

/-- Settles O17: neither ENV nor any access reaches the two registers, and outside `rst` nor does the host. -/
theorem opaqueRegistersNeverChange : Obligations.OpaqueRegistersNeverChange := by
  intro s t rst e
  refine step_keeps (P := fun p => p.rb.oar2 = s.per.rb.oar2 ∧ p.rb.fltr = s.per.rb.fltr) ?turn ?read ?write e ?host
  case turn => exact fun c w p h => ⟨(turn_envOnly w p).oar2.trans h.1, (turn_envOnly w p).fltr.trans h.2⟩
  case read =>
    intro r p h
    obtain ⟨_, _, rb⟩ := readEffect_rb r p
    rw [rb]; exact h
  case write =>
    intro r v p h
    obtain ⟨_, rb⟩ := writeEffect_rb r v p
    rw [rb]; simpa using h
  case host => rw [hostTurn_per rst]; exact ⟨rfl, rfl⟩

/-! ## The handle configuration -/

theorem configBody_mtc (pclk scl : Word) (duty : Duty) (addr : Addr7) (ack : Bool) (s : State) :
    ∃ tmp, (configBody pclk scl duty addr ack s).mtc =
      { s.mtc with pclk := pclk, hScl := scl, hDuty := duty, hAddr := addr, hAck := ack, hValid := true, tmp := tmp } := by
  unfold configBody
  simp only [setValid_mtc, configRise_mtc, configDiv_mtc, configAddr_mtc, configFreq_mtc, configAck_mtc, latchConfig_mtc]
  exact ⟨_, rfl⟩

/-- Settles O18: of the working registers' updates only the latches of CONFIGURE, which INITIALIZE shares, touch the handle. -/
theorem handleWrittenOnlyByConfigure : Obligations.HandleWrittenOnlyByConfigure := by
  refine ⟨?others, ?configure, ?init⟩
  case others =>
    intro i s t notConfigure notInit e
    rw [exec_next e]
    cases i with
    | configure pclk scl duty addr ack => exact absurd rfl (notConfigure pclk scl duty addr ack)
    | initPeripheral addr ack scl duty => exact absurd rfl (notInit addr ack scl duty)
    | hasFlag sel => simp only [nextState]; split <;> exact ⟨rfl, rfl, rfl, rfl, rfl⟩
    | _ => exact ⟨rfl, rfl, rfl, rfl, rfl⟩
  case configure =>
    intro pclk scl duty addr ack s t e
    obtain ⟨tmp, mtc⟩ := configBody_mtc pclk scl duty addr ack s
    rw [exec_next e]
    unfold nextState
    rw [respond_mtc, mtc]
    exact ⟨rfl, rfl, rfl, rfl, rfl⟩
  case init =>
    intro addr ack scl duty s t e
    obtain ⟨tmp, mtc⟩ := configBody_mtc _ scl duty addr ack (enableBody true (clockGateBody s))
    rw [exec_next e]
    unfold nextState initBody
    rw [respond_mtc, mtc]
    exact ⟨rfl, rfl, rfl, rfl, rfl⟩

/-! ## The requests -/

/-- R142: ENV raises no request. -/
theorem request_of_envOnly {p q : Periph} (h : EnvOnly p q) {n : Nat} (hn : n = posStart ∨ n = posStop)
    (off : bitAt p.rb.cr1 n = false) : bitAt q.rb.cr1 n = false := by
  rw [← Bool.not_eq_true] at off ⊢
  rcases hn with rfl | rfl
  · exact fun on => off (h.start on)
  · exact fun on => off (h.stop on)

/-- R44: a read-modify-write of `CR1` raises no request that it does not set. -/
theorem rmwCr1_request {n : Nat} (hn : n = posStart ∨ n = posStop) {clr set : Word} (unset : bitAt set n = false) (s : State)
    (off : bitAt s.per.rb.cr1 n = false) : bitAt (regRmw .cr1 clr set s).per.rb.cr1 n = false := by
  refine request_of_envOnly (regRmw_envOnly .cr1 clr set s) hn ?_
  obtain ⟨_, rb⟩ := writeEffect_rb .cr1 (rmwValue s.per.rb.cr1 clr set) (readEffect .cr1 s.per)
  calc bitAt (writeEffect .cr1 (rmwValue s.per.rb.cr1 clr set) (readEffect .cr1 s.per)).rb.cr1 n
      = bitAt (rmwValue s.per.rb.cr1 clr set) n := by rw [rb]; rfl
    _ = false := by rw [bitAt_rmwValue, off, unset]; rfl

/-- A request that is 0 stays 0 over an instruction that never sets it. -/
theorem survives_request {n : Nat} (hn : n = posStart ∨ n = posStop) {i : Instr}
    (unset : ∀ clr set, RmwsCr1 i clr set → bitAt set n = false) : Survives i (fun p => bitAt p.rb.cr1 n = false) where
  turn := fun _ w p off => request_of_envOnly (turn_envOnly w p) hn off
  read := fun r p hr off => by rw [readEffect_rb_of_ne hr]; exact off
  write := fun r v p h1 _ off => by
    obtain ⟨_, rb⟩ := writeEffect_rb r v p
    rw [rb]
    exact (congrArg (fun w => bitAt w n) (stored_cr1_of_ne h1 v p.rb)).trans off
  readSr2 := fun _ p off => by
    obtain ⟨_, _, rb⟩ := readEffect_rb .sr2 p
    rw [show (sr2ReadEffect p).rb = _ from rb]
    exact off
  writeDr := fun _ v p off => by
    obtain ⟨_, rb⟩ := writeEffect_rb .dr v p
    rw [rb]
    exact off
  rmwCr1 := fun clr set own s off => rmwCr1_request hn (unset clr set own) s off

/-- An instruction that raises a request has set it. -/
theorem exec_raises_request {n : Nat} (hn : n = posStart ∨ n = posStop) {i : Instr} {s t : State} (e : exec i s = .next t)
    (off : bitAt s.per.rb.cr1 n = false) (on : bitAt t.per.rb.cr1 n = true) :
    ∃ clr set, RmwsCr1 i clr set ∧ bitAt set n = true := by
  by_contra none
  have unset : ∀ clr set, RmwsCr1 i clr set → bitAt set n = false := fun clr set own => by
    rw [← Bool.not_eq_true]
    exact fun sets => none ⟨clr, set, own, sets⟩
  exact absurd (((survives_request hn unset).exec e off).symm.trans on) Bool.false_ne_true

/-- Settles O19: `CR1` is written by read-modify-writes alone, and each sets only the bits of its own instruction. -/
theorem requestsRiseOnlyInTheirMicroSteps : Obligations.RequestsRiseOnlyInTheirMicroSteps := by
  intro i s t e
  constructor
  · intro off on
    obtain ⟨_, _, own, sets⟩ := exec_raises_request (.inl rfl) e off on
    obtain h | h | ⟨-, h⟩ | ⟨h, -⟩ := own.bit_set sets
    · exact absurd h (by decide)
    · exact absurd h (by decide)
    · exact h
    · exact absurd h (by decide)
  · intro off on
    obtain ⟨_, _, own, sets⟩ := exec_raises_request (.inr rfl) e off on
    obtain h | h | ⟨h, -⟩ | ⟨-, h⟩ := own.bit_set sets
    · exact absurd h (by decide)
    · exact absurd h (by decide)
    · exact absurd h (by decide)
    · exact h

/-! ## The flags -/

/-- R100, R157: a read-modify-write of `CR1` that cannot disable the reference ENV keeps a latched `ADDR`. -/
theorem rmwCr1_addr {clr set : Word} {s : State} (h : Periph.isRef s.per = false ∨ RegValues.pe s.per.rb = false
      ∨ bitAt clr posPe = false ∨ bitAt set posPe = true)
    (addr : RegValues.flag s.per.rb .addr = true) : RegValues.flag (regRmw .cr1 clr set s).per.rb .addr = true := by
  refine (regRmw_envOnly .cr1 clr set s).addr ?_
  refine (flag_of_sr1 (cr1WriteEffect_sr1 (p := readEffect .cr1 s.per) ?_) .addr).trans addr
  show Periph.isRef s.per = false ∨ RegValues.pe s.per.rb = false ∨ bitAt (rmwValue s.per.rb.cr1 clr set) posPe = true
  cases pe : RegValues.pe s.per.rb with
  | false => exact .inr (.inl rfl)
  | true =>
    refine h.imp_right fun h => .inr ?_
    rw [bitAt_rmwValue, show bitAt s.per.rb.cr1 posPe = true from pe]
    obtain off | kept | sets := h
    · simp [pe] at off
    · simp [kept]
    · simp [sets]

/-- A latched `ADDR` survives an instruction that neither reads `SR2` nor is SET_ENABLED(0). -/
theorem survives_addr {i : Instr} (noRead : ¬ readsSr2 i) (enables : i ≠ .setEnabled false) :
    Survives i (fun p => RegValues.flag p.rb .addr = true) where
  turn := fun _ w p addr => (turn_envOnly w p).addr addr
  read := fun r p hr addr => by rw [readEffect_rb_of_ne hr]; exact addr
  write := fun r v p h1 h2 addr => (flag_of_sr1 (writeEffect_sr1_of_ne h1 h2 v p) .addr).trans addr
  readSr2 := fun own => absurd own noRead
  writeDr := fun _ v p addr => (drHook_addr _ _).trans addr
  rmwCr1 := fun _ _ own _ addr => rmwCr1_addr (.inr (.inr (own.pe enables))) addr

/-- Settles O20: every other instruction keeps a latched `ADDR`, and so does a SET_ENABLED(0) that disables no reference ENV. -/
theorem addrLatchedUntilClearingRead : Obligations.AddrLatchedUntilClearingRead := by
  intro i s t e latched cleared
  have absurdIf : RegValues.flag t.per.rb .addr = true → False := fun h => by simp [cleared] at h
  by_cases reads : readsSr2 i
  · exact reads.imp_right .inl
  refine .inr (.inr ?_)
  by_cases disable : i = .setEnabled false
  · subst disable
    have disables : ¬ (Periph.isRef s.per = false ∨ RegValues.pe s.per.rb = false) := fun h => by
      refine absurdIf ?_
      rw [exec_next e]
      exact rmwCr1_addr (s := s) (h.imp_right .inl) latched
    simpa using disables
  · exact (absurdIf ((survives_addr reads disable).exec e latched)).elim

/-- A read-modify-write keeps what ENV's turn, its read half and its write half keep. -/
theorem regRmw_keeps_of {P : Periph → Prop} (r : RmwReg) (turn : ∀ c w p, P p → P (Periph.turn c w p))
    (read : ∀ p, P p → P (readEffect r.toRead p)) (write : ∀ v p, P p → P (writeEffect r.toWrite v p))
    (clr set : Word) (s : State) (h : P s.per) : P (regRmw r clr set s).per := by
  rw [regRmw_per, regRead_per]
  exact turn _ _ _ (write _ _ (turn _ _ _ (read _ h)))

/-- Under a silent ENV a flag survives every instruction but, for `ADDR`, one that reads `SR2` and, for `TXE`, one that writes `DR`. -/
theorem survives_flag {i : Instr} {f : Flag} (b : Bool) (addr : readsSr2 i → f ≠ .addr) (txe : writesDr i → f ≠ .txe) :
    Survives i (fun p => silent p = true ∧ RegValues.flag p.rb f = b) := by
  have quiet : ∀ c w p, silent p = true ∧ RegValues.flag p.rb f = b →
      silent (Periph.turn c w p) = true ∧ RegValues.flag (Periph.turn c w p).rb f = b := fun c w p h => by
    rw [turn_silent w p h.1]; exact h
  refine ⟨quiet, ?read, ?write, ?readSr2, ?writeDr, ?rmwCr1⟩
  case read =>
    rintro r p hr ⟨still, h⟩
    exact ⟨(silent_of_sched (readEffect_sched r p)).trans still, by rw [readEffect_rb_of_ne hr]; exact h⟩
  case write =>
    rintro r v p h1 h2 ⟨still, h⟩
    exact ⟨(silent_of_sched (writeEffect_sched r v p)).trans still,
      (flag_of_sr1 (writeEffect_sr1_of_ne h1 h2 v p) f).trans h⟩
  case readSr2 =>
    rintro own p ⟨still, h⟩
    refine ⟨(silent_of_sched (readEffect_sched .sr2 p)).trans still, ?_⟩
    exact (sr2ReadEffect_flag (addr own) (fun ref => by simp [isRef_of_silent still] at ref)).trans h
  case writeDr =>
    rintro own v p ⟨still, h⟩
    refine ⟨(silent_of_sched (writeEffect_sched .dr v p)).trans still, ?_⟩
    exact (drHook_flag_of_not_isRef (p := { p with clrArmed := false }) _ (isRef_of_silent still) (txe own)).trans h
  case rmwCr1 =>
    intro clr set _ s h
    refine regRmw_keeps_of .cr1 quiet (fun p h => h) ?_ clr set s h
    rintro v p ⟨still, h⟩
    exact ⟨(silent_of_sched (writeEffect_sched .cr1 v p)).trans still,
      (flag_of_sr1 (cr1WriteEffect_sr1 (.inl (isRef_of_silent still))) f).trans h⟩

/-- Settles O22: every flag survives all the accesses but the two named. -/
theorem flagsChangeOnlyByAccesses : Obligations.FlagsChangeOnlyByAccesses := by
  intro i s t f still e changed
  by_contra other
  rw [not_or] at other
  have k := survives_flag (i := i) (f := f) (RegValues.flag s.per.rb f)
    (fun own addr => other.1 ⟨addr, own⟩) (fun own txe => other.2 ⟨txe, own⟩)
  exact changed (k.exec e ⟨still, rfl⟩).2

/-! ## The traces -/

theorem regRead_acc_prefix (r : ReadReg) (s : State) : s.acc <+: (regRead r s).2.acc := List.prefix_append _ _

theorem regWrite_acc_prefix (r : WriteReg) (v : Word) (s : State) : s.acc <+: (regWrite r v s).acc := List.prefix_append _ _

theorem regRmw_acc_prefix (r : RmwReg) (clr set : Word) (s : State) : s.acc <+: (regRmw r clr set s).acc :=
  (regRead_acc_prefix r.toRead s).trans (List.prefix_append _ _)

theorem configBody_acc_prefix (pclk scl : Word) (duty : Duty) (addr : Addr7) (ack : Bool) (s : State) :
    s.acc <+: (configBody pclk scl duty addr ack s).acc :=
  calc s.acc
      <+: (configAck (latchConfig pclk scl duty addr ack s)).acc := regRmw_acc_prefix ..
    _ <+: (configFreq (configAck (latchConfig pclk scl duty addr ack s))).acc := regRmw_acc_prefix ..
    _ <+: (configAddr (configFreq (configAck (latchConfig pclk scl duty addr ack s)))).acc := regWrite_acc_prefix ..
    _ <+: (configDiv (configAddr (configFreq (configAck (latchConfig pclk scl duty addr ack s))))).acc :=
      regRmw_acc_prefix ..
    _ <+: (configBody pclk scl duty addr ack s).acc := regWrite_acc_prefix ..

theorem initBody_acc_prefix (addr : Addr7) (ack : Bool) (scl : Word) (duty : Duty) (s : State) :
    s.acc <+: (initBody addr ack scl duty s).acc :=
  calc s.acc
      <+: (clockGateBody s).acc := regRmw_acc_prefix ..
    _ <+: (enableBody true (clockGateBody s)).acc := regRmw_acc_prefix ..
    _ <+: (initBody addr ack scl duty s).acc := configBody_acc_prefix ..

/-- R37, R42: `ACC` only grows. -/
theorem exec_acc_prefix {i : Instr} {s t : State} (e : exec i s = .next t) : s.acc <+: t.acc := by
  rw [exec_next e]
  cases i with
  | configure pclk scl duty addr ack => exact configBody_acc_prefix pclk scl duty addr ack s
  | setEnabled en => exact regRmw_acc_prefix .cr1 _ _ s
  | clockGateEnable => exact regRmw_acc_prefix .clken _ _ s
  | hasFlag sel =>
    simp only [nextState]
    split
    · exact regRead_acc_prefix .sr1 s
    · exact List.prefix_rfl
  | clearAddr => exact (regRead_acc_prefix .sr1 s).trans (regRead_acc_prefix .sr2 _)
  | masterSend => exact List.prefix_rfl
  | initPeripheral addr ack scl duty =>
    unfold nextState
    rw [respond_acc]; exact initBody_acc_prefix addr ack scl duty s
  | seqIdle => exact List.prefix_rfl
  | seqStartSet => exact regRmw_acc_prefix .cr1 _ _ s
  | seqWaitSb => exact regRead_acc_prefix .sr1 s
  | seqAddrWrite => exact regWrite_acc_prefix .dr _ s
  | seqWaitAddr => exact regRead_acc_prefix .sr1 s
  | seqClrSr1 => exact regRead_acc_prefix .sr1 s
  | seqClrSr2 => exact regRead_acc_prefix .sr2 s
  | seqLoopTest => exact List.prefix_rfl
  | seqWaitTxe => exact regRead_acc_prefix .sr1 s
  | seqDataWrite =>
    have bufRead : s.acc <+: (bufRead (bufferAddr s.mtc) s).2.acc := List.prefix_append _ _
    exact bufRead.trans (regWrite_acc_prefix .dr _ _)
  | seqDrainTxe => exact regRead_acc_prefix .sr1 s
  | seqWaitBtf => exact regRead_acc_prefix .sr1 s
  | seqStopSet => exact regRmw_acc_prefix .cr1 _ _ s

/-- R37, R140: `WIRE` is ENV's, and only grows. -/
theorem exec_wire_prefix {i : Instr} {s t : State} (e : exec i s = .next t) : s.per.env.wire <+: t.per.env.wire :=
  exec_keeps (P := fun p => s.per.env.wire <+: p.env.wire)
    (fun _ w p h => by
      obtain ⟨es, grown⟩ := (turn_envOnly w p).wire
      exact h.trans ⟨es, grown.symm⟩)
    (fun r p h => by rw [readEffect_wire]; exact h)
    (fun r v p h => by rw [writeEffect_wire]; exact h) e List.prefix_rfl

/-- Settles O21: every access is appended, and ENV only appends. -/
theorem tracesOnlyGrow : Obligations.TracesOnlyGrow := by
  intro i s t e
  obtain ⟨l, acc⟩ := exec_acc_prefix e
  obtain ⟨es, wire⟩ := exec_wire_prefix e
  exact ⟨⟨l, acc.symm⟩, es, wire.symm⟩

/-! ## Reset and the protocol states -/

/-- Settles O9: each value is written so in the state after reset. -/
theorem resetValues : Obligations.ResetValues := fun _ => ⟨rfl, rfl, rfl, rfl, rfl, rfl, rfl, rfl, rfl, rfl⟩

theorem controlInv_reset (cfg : Config) : controlInv (State.resetWith cfg) = true := rfl

theorem slotInv_reset (cfg : Config) : slotInv (State.resetWith cfg).per = true := rfl

/-- Settles O10: each part of the invariant holds after reset. -/
theorem invariantAtReset : Obligations.InvariantAtReset := by
  intro cfg
  have latch : latchInv (State.resetWith cfg).per = true := latchInv_reset cfg.rbReset .eager [] 0
  unfold inv
  rw [controlInv_reset, latch, slotInv_reset, reset_memory_wf]
  rfl

/-- Settles O25, for each value of `UPC`. -/
theorem protocolStateCodes : Obligations.ProtocolStateCodes := by
  refine ⟨?_, ?_, ?_, ?_, rfl, rfl, rfl, rfl, rfl, rfl⟩ <;> decide

/-! ## The buffer range -/

/-- R32: a buffer range aliases when a byte of one of the ten registers, or of `CLKEN`, lies in it. -/
theorem bufferAliases_iff (c : Config) (ptr len : Word) : bufferAliases c ptr len = true ↔
    (∃ k, k < 40 ∧ (c.i2cBase + BitVec.ofNat 32 k - ptr).toNat < len.toNat)
    ∨ (∃ k, k < 4 ∧ (c.clkenAddr + BitVec.ofNat 32 k - ptr).toNat < len.toNat) := by
  simp only [bufferAliases, regSpaceBytes, List.any_append, List.any_map, Bool.or_eq_true, List.any_eq_true, List.mem_range,
    Function.comp_apply, decide_eq_true_eq]

/-- Settles O40: the check at acceptance is the statement's premise. -/
theorem aliasingBufferIsRefused : Obligations.AliasingBufferIsRefused := fun _ ptr len s h =>
  if_pos ((bufferAliases_iff s.cfg ptr len).2 h)

end Sys2Proof.StateProofs

/-! Proofs of the statements about the memory (20_memory.md): the buffer memory as data, the clock gate's check and the
configuration's check. -/

namespace Sys2Proof.MemoryProofs

open Sys2Proof.Machine Sys2Proof.Laws

/-! ## The buffer memory -/

theorem read_cons (a : Nat) (v : Byte) (rest : Memory) (b : Nat) :
    Memory.read ((a, v) :: rest) b = if a = b then v else Memory.read rest b := rfl

@[simp] theorem read_cons_self (a : Nat) (v : Byte) (rest : Memory) : Memory.read ((a, v) :: rest) a = v := if_pos rfl

theorem wfFrom_cons_iff {lo a : Nat} {v : Byte} {rest : Memory} : Memory.wfFrom lo ((a, v) :: rest) = true ↔
    lo ≤ a ∧ a < 2 ^ 32 ∧ v ≠ Memory.unlisted ∧ Memory.wfFrom (a + 1) rest = true := by
  simp [Memory.wfFrom, and_assoc]

/-- Listing a byte in front of the others, or leaving it out where it is as an unlisted one, puts it. -/
theorem read_list_front {m : Memory} {a : Nat} (w : Memory.wfFrom (a + 1) m = true) (v : Byte) (b : Nat) :
    Memory.read (if v = Memory.unlisted then m else (a, v) :: m) b = if a = b then v else Memory.read m b := by
  split
  · next unlisted =>
    split
    · next same => rw [unlisted, ← same]; exact read_below w (Nat.lt_succ_self a)
    · rfl
  · exact read_cons a v m b

/-- R34: what a canonical memory reads after a byte is put. -/
theorem read_write {m : Memory} {lo : Nat} (w : Memory.wfFrom lo m = true) (a : Nat) (v : Byte) (b : Nat) :
    Memory.read (Memory.write m a v) b = if a = b then v else Memory.read m b := by
  induction m generalizing lo with
  | nil => exact read_list_front (m := []) rfl v b
  | cons c rest ih =>
    obtain ⟨d, x⟩ := c
    obtain ⟨-, below, listed, tail⟩ := wfFrom_cons_iff.1 w
    unfold Memory.write
    obtain lt | rfl | gt := lt_trichotomy a d
    · rw [if_pos lt]
      exact read_list_front (wfFrom_cons_iff.2 ⟨lt, below, listed, tail⟩) v b
    · rw [if_neg (lt_irrefl a), if_pos rfl, read_list_front tail, read_cons]
      split <;> rfl
    · rw [if_neg (by omega), if_neg (by omega), read_cons, read_cons, ih tail]
      split
      · rw [if_neg (by omega)]
      · rfl

/-- Of two canonical memories that read alike, neither lists a byte below the first that the other lists. -/
theorem head_le_of_read_eq {a b la lb : Nat} {v w : Byte} {m n : Memory} (hm : Memory.wfFrom la ((a, v) :: m) = true)
    (hn : Memory.wfFrom lb ((b, w) :: n) = true)
    (same : ∀ c, Memory.read ((a, v) :: m) c = Memory.read ((b, w) :: n) c) : b ≤ a := by
  obtain ⟨-, -, listed, -⟩ := wfFrom_cons_iff.1 hm
  obtain ⟨-, below, hw, tail⟩ := wfFrom_cons_iff.1 hn
  by_contra lt
  have unlisted := read_below (wfFrom_cons_iff.2 ⟨le_refl b, below, hw, tail⟩) (not_le.1 lt)
  exact listed ((read_cons_self a v m).symm.trans ((same a).trans unlisted))

/-- No canonical memory that lists a byte reads as the empty one. -/
theorem eq_nil_of_read_unlisted {lo : Nat} {m : Memory} (w : Memory.wfFrom lo m = true)
    (unlisted : ∀ a, Memory.read m a = Memory.unlisted) : m = [] := by
  cases m with
  | nil => rfl
  | cons c rest =>
    obtain ⟨-, -, listed, -⟩ := wfFrom_cons_iff.1 w
    exact absurd ((read_cons_self c.1 c.2 rest).symm.trans (unlisted c.1)) listed

/-- Memories whose first byte is the same read alike behind it when they read alike. -/
theorem read_tail_eq {a : Nat} {v w : Byte} {m n : Memory} (hm : Memory.wfFrom (a + 1) m = true)
    (hn : Memory.wfFrom (a + 1) n = true)
    (same : ∀ c, Memory.read ((a, v) :: m) c = Memory.read ((a, w) :: n) c) (c : Nat) :
    Memory.read m c = Memory.read n c := by
  by_cases front : a = c
  · rw [read_below hm (by omega), read_below hn (by omega)]
  · simpa only [read_cons, if_neg front] using same c

/-- The canonical form is one for each content. -/
theorem eq_of_read_eq {lm ln : Nat} {m n : Memory} (hm : Memory.wfFrom lm m = true) (hn : Memory.wfFrom ln n = true)
    (same : ∀ a, Memory.read m a = Memory.read n a) : m = n := by
  induction m generalizing lm ln n with
  | nil => exact (eq_nil_of_read_unlisted hn fun a => (same a).symm).symm
  | cons c rest ih =>
    obtain ⟨a, v⟩ := c
    cases n with
    | nil => exact eq_nil_of_read_unlisted hm same
    | cons d tail =>
      obtain ⟨b, w⟩ := d
      obtain rfl : a = b := le_antisymm (head_le_of_read_eq hn hm fun c => (same c).symm) (head_le_of_read_eq hm hn same)
      obtain rfl : v = w := by simpa using same a
      obtain ⟨-, -, -, hrest⟩ := wfFrom_cons_iff.1 hm
      obtain ⟨-, -, -, htail⟩ := wfFrom_cons_iff.1 hn
      rw [ih hrest htail (read_tail_eq hrest htail same)]

/-- Settles O26: the read after a write, and the canonical form's uniqueness. -/
theorem bufferMemoryReadsWhatWasPut : Obligations.BufferMemoryReadsWhatWasPut := by
  refine ⟨fun m a b v w => ⟨?same, fun other => ?frame⟩, fun m n hm hn => eq_of_read_eq hm hn⟩
  case same => rw [read_write w, if_pos rfl]
  case frame => rw [read_write w, if_neg other.symm]

/-! ## The clock gate's check -/

/-- R59: with the gate off the check refuses, whatever the instruction would do. -/
theorem whenClocked_of_ungated {s : State} (r : Result) (h : RegValues.clkgate s.cfg s.per.rb = false) :
    whenClocked s r = .refused .registerBlockUnclocked := by
  unfold whenClocked
  rw [h]
  rfl

/-- R71, R105: HAS_FLAG with a selector that names a flag asks for the gate. -/
theorem execHasFlag_of_ungated {sel : BitVec 4} {s : State} (named : selectorNamed sel = true)
    (h : RegValues.clkgate s.cfg s.per.rb = false) : execHasFlag sel s = .refused .registerBlockUnclocked := by
  obtain ⟨f, hf⟩ := Option.isSome_iff_exists.1 ((selectorNamed_iff sel).symm.trans named)
  unfold execHasFlag
  rw [hf]
  exact whenClocked_of_ungated _ h

/-- Settles O23: each instruction that is not excepted begins with the gate's check. -/
theorem unclockedAccessIsRefused : Obligations.UnclockedAccessIsRefused := by
  intro s i gate wf notGate notInit notSend notIdle notLoop
  cases i with
  | clockGateEnable => exact absurd rfl notGate
  | initPeripheral addr ack scl duty => exact absurd rfl (notInit addr ack scl duty)
  | masterSend addr ptr len => exact absurd rfl (notSend addr ptr len)
  | seqIdle => exact absurd rfl notIdle
  | seqLoopTest => exact absurd rfl notLoop
  | hasFlag sel => exact execHasFlag_of_ungated wf gate
  | _ => exact whenClocked_of_ungated _ gate

/-! ## The configuration's check -/

/-- R41: a configuration is well-formed when both base addresses are multiples of 4. -/
theorem config_wf_iff (c : Config) : c.wf = true ↔ c.i2cBase.toNat % 4 = 0 ∧ c.clkenAddr.toNat % 4 = 0 := by
  simp [Config.wf]

/-- Settles O24: the check comes before everything else in a step. -/
theorem misalignedConfigIsRefused : Obligations.MisalignedConfigIsRefused := by
  intro s misaligned
  have notWf : ¬ s.cfg.wf = true := fun wf => by
    obtain ⟨base, clken⟩ := (config_wf_iff s.cfg).1 wf
    exact misaligned.elim (· base) (· clken)
  exact if_neg notWf

end Sys2Proof.MemoryProofs

/-! Proofs of the statements about the encodings and the steps (30_encoding.md). The codec comes first, then what a step runs, the
expansion of INITIALIZE, and the machine's invariant: the slots, the control state, and the whole. -/

namespace Sys2Proof.EncodingProofs

open Sys2Proof.Machine Sys2Proof.Laws Sys2Proof.Safety Sys2Proof.StateProofs

/-! ## The codec -/

@[simp] theorem encode_instr (u : Upc) : encode u.instr = .micro u.code := by cases u <;> rfl

theorem wf_instr (u : Upc) : u.instr.wf = true := by cases u <;> rfl

/-- R74: a code that decodes is that of the micro-step it decodes to. -/
theorem decodeMicro_ok {code : BitVec 4} {i : Instr} (h : decodeMicro code = .ok i) :
    ∃ u : Upc, i = u.instr ∧ u.code = code := by
  unfold decodeMicro at h
  split at h
  · next u named => exact ⟨u, (Except.ok.inj h).symm, code_of_ofCode named⟩
  · cases h

/-- R69, R70: three words are packed from the fields they have. -/
theorem cmd_pack_eq {c : CmdWords} {op flag : BitVec 4} {en ack duty : Bool} {addr : Addr7} {w1 w2 : Word}
    (hRes : W0.reserved c.w0 = 0) (hOp : W0.op c.w0 = op) (hFlag : W0.flag c.w0 = flag) (hEn : W0.en c.w0 = en)
    (hAck : W0.ack c.w0 = ack) (hDuty : W0.duty c.w0 = duty) (hAddr : W0.addr c.w0 = addr)
    (h1 : c.w1 = w1) (h2 : c.w2 = w2) : Encoded.cmd ⟨W0.pack op flag en ack duty addr, w1, w2⟩ = .cmd c := by
  subst hOp hFlag hEn hAck hDuty hAddr h1 h2
  rw [pack_fields hRes]

/-- R70 to R72: the words that pass a command's checks are the encoding of that command. -/
theorem decodeCommand_ok {c : CmdWords} {i : Instr} (h : decodeCommand c = .ok i) : i.wf = true ∧ encode i = .cmd c := by
  have op_eq : ∀ {k : Nat}, (W0.op c.w0).toNat = k → W0.op c.w0 = BitVec.ofNat 4 k := fun hk => by
    rw [← hk, BitVec.ofNat_toNat, BitVec.setWidth_eq]
  unfold decodeCommand at h
  dsimp only at h
  split at h
  case h_8 => cases h
  all_goals
    rename_i op
    obtain ⟨rfl, checks⟩ := acceptIf_ok h
    simp only [List.forall_mem_cons, beq_iff_eq, Bool.not_eq_true'] at checks
    refine ⟨by simp [Instr.wf, checks], cmd_pack_eq checks.1 (op_eq op) ?_ ?_ ?_ ?_ ?_ ?_ ?_⟩ <;> simp [checks]

/-- Settles O1: a command's packed fields pass its checks, and a micro-step's code names it. -/
theorem decodeOfEncode : Obligations.DecodeOfEncode := by
  intro i wf
  cases i with
  | configure => simp [encode, decode, decodeCommand, acceptIf]
  | setEnabled => simp [encode, decode, decodeCommand, acceptIf]
  | clockGateEnable => simp [encode, decode, decodeCommand, acceptIf]
  | hasFlag sel =>
    have named : selectorNamed sel = true := wf
    simp [encode, decode, decodeCommand, acceptIf, named]
  | clearAddr => simp [encode, decode, decodeCommand, acceptIf]
  | masterSend => simp [encode, decode, decodeCommand, acceptIf]
  | initPeripheral => simp [encode, decode, decodeCommand, acceptIf]
  | _ => rfl

/-- Settles O2: the checks leave no bit of a command free that the instruction does not hold, and each code has one micro-step. -/
theorem encodeOfDecode : Obligations.EncodeOfDecode := by
  intro e i h
  cases e with
  | cmd c => exact decodeCommand_ok h
  | micro code =>
    obtain ⟨u, rfl, rfl⟩ := decodeMicro_ok h
    exact ⟨wf_instr u, encode_instr u⟩

/-- The legal commands are the encodings. -/
theorem decodeCommand_legal_iff (c : CmdWords) :
    (∃ i, decodeCommand c = .ok i) ↔ ∃ i : Instr, i.wf = true ∧ encode i = .cmd c := by
  constructor
  · rintro ⟨i, h⟩
    exact ⟨i, decodeCommand_ok h⟩
  · rintro ⟨i, wf, e⟩
    have h := decodeOfEncode i wf
    rw [e] at h
    exact ⟨i, h⟩

/-! ## Match and mask -/

/-- Words with the same bits from `lo` on have each of those bits the same. -/
theorem getLsbD_eq_of_extractLsb'_eq {v w : Word} {lo n i : Nat} (h : v.extractLsb' lo n = w.extractLsb' lo n)
    (low : lo ≤ i) (high : i < lo + n) : v.getLsbD i = w.getLsbD i := by
  have bit := congrArg (fun f => f.getLsbD (i - lo)) h
  have inside : i - lo < n := by omega
  simpa [inside, Nat.add_sub_cancel' low] using bit

/-- R69: the fields and the reserved bits make up the word. -/
theorem word_eq_iff {v w : Word} : v = w ↔ W0.reserved v = W0.reserved w ∧ W0.op v = W0.op w ∧ W0.flag v = W0.flag w
    ∧ W0.en v = W0.en w ∧ W0.ack v = W0.ack w ∧ W0.duty v = W0.duty w ∧ W0.addr v = W0.addr w := by
  constructor
  · rintro rfl
    exact ⟨rfl, rfl, rfl, rfl, rfl, rfl, rfl⟩
  · rintro ⟨hRes, hOp, hFlag, hEn, hAck, hDuty, hAddr⟩
    apply BitVec.eq_of_getLsbD_eq
    intro i hi
    obtain h | rfl | rfl | rfl | h | h | h :
        i < 7 ∨ i = 7 ∨ i = 8 ∨ i = 9 ∨ (10 ≤ i ∧ i < 14) ∨ (14 ≤ i ∧ i < 28) ∨ 28 ≤ i := by omega
    · exact getLsbD_eq_of_extractLsb'_eq hAddr (Nat.zero_le i) (by omega)
    · exact hDuty
    · exact hAck
    · exact hEn
    · exact getLsbD_eq_of_extractLsb'_eq hFlag h.1 h.2
    · exact getLsbD_eq_of_extractLsb'_eq hRes h.1 h.2
    · exact getLsbD_eq_of_extractLsb'_eq hOp h hi

/-- R72: a masked word matches a packing field by field. -/
theorem and_eq_pack_iff {w m : Word} {op flag : BitVec 4} {en ack duty : Bool} {addr : Addr7} :
    w &&& m = W0.pack op flag en ack duty addr ↔ W0.reserved w &&& W0.reserved m = 0 ∧ W0.op w &&& W0.op m = op
      ∧ W0.flag w &&& W0.flag m = flag ∧ (W0.en w && W0.en m) = en ∧ (W0.ack w && W0.ack m) = ack
      ∧ (W0.duty w && W0.duty m) = duty ∧ W0.addr w &&& W0.addr m = addr := by
  rw [word_eq_iff, reserved_pack, op_pack, flag_pack, en_pack, ack_pack, duty_pack, addr_pack]
  simp only [W0.op, W0.reserved, W0.flag, W0.en, W0.ack, W0.duty, W0.addr, BitVec.extractLsb'_and, BitVec.getLsbD_and]

/-- A mask of ones keeps a whole field. -/
theorem and_ones {n : Nat} {m : BitVec n} (x : BitVec n) (ones : m = BitVec.allOnes n) : x &&& m = x := by
  rw [ones, BitVec.and_allOnes]

/-! The match and mask pairs of R72, by the fields they fix. -/

theorem match_configure_iff (op : BitVec 4) (w : Word) : w &&& 0xFFFFFE00#32 = W0.pack op 0 false false false 0 ↔
    W0.reserved w = 0 ∧ W0.op w = op ∧ W0.flag w = 0 ∧ W0.en w = false := by
  rw [and_eq_pack_iff]
  simp [W0.op, W0.reserved, W0.flag, W0.en, W0.ack, W0.duty, W0.addr, and_ones]

theorem match_setEnabled_iff (w : Word) : w &&& 0xFFFFFDFF#32 = W0.pack 2 0 false false false 0 ↔
    W0.reserved w = 0 ∧ W0.op w = 2 ∧ W0.flag w = 0 ∧ W0.ack w = false ∧ W0.duty w = false ∧ W0.addr w = 0 := by
  rw [and_eq_pack_iff]
  simp [W0.op, W0.reserved, W0.flag, W0.en, W0.ack, W0.duty, W0.addr, and_ones]

theorem match_hasFlag_iff (w : Word) : w &&& 0xFFFFC3FF#32 = W0.pack 4 0 false false false 0 ↔
    W0.reserved w = 0 ∧ W0.op w = 4 ∧ W0.en w = false ∧ W0.ack w = false ∧ W0.duty w = false ∧ W0.addr w = 0 := by
  rw [and_eq_pack_iff]
  simp [W0.op, W0.reserved, W0.flag, W0.en, W0.ack, W0.duty, W0.addr, and_ones]

theorem match_masterSend_iff (w : Word) : w &&& 0xFFFFFF80#32 = W0.pack 6 0 false false false 0 ↔
    W0.reserved w = 0 ∧ W0.op w = 6 ∧ W0.flag w = 0 ∧ W0.en w = false ∧ W0.ack w = false ∧ W0.duty w = false := by
  rw [and_eq_pack_iff]
  simp [W0.op, W0.reserved, W0.flag, W0.en, W0.ack, W0.duty, W0.addr, and_ones]

/-- R71: the selectors that name a flag. -/
theorem selectorNamed_iff_mem (sel : BitVec 4) :
    selectorNamed sel = true ↔ sel.toNat ∈ [0, 1, 2, 7, 8, 9, 10, 11, 14] := by
  revert sel; decide

/-- Settles O3: the legal commands are the encodings, and each pair fixes the fields that are the same in all encodings of a
command. -/
theorem legalCommandWords : Obligations.LegalCommandWords := by
  intro c
  rw [decodeCommand_legal_iff]
  constructor
  · rintro ⟨i, wf, e⟩
    cases i with
    | configure =>
      obtain rfl := Encoded.cmd.inj e
      exact .inl ((match_configure_iff 1 _).2 (by simp))
    | setEnabled =>
      obtain rfl := Encoded.cmd.inj e
      exact .inr (.inl ⟨(match_setEnabled_iff _).2 (by simp), rfl, rfl⟩)
    | clockGateEnable =>
      obtain rfl := Encoded.cmd.inj e
      exact .inr (.inr (.inl ⟨rfl, rfl, rfl⟩))
    | hasFlag sel =>
      obtain rfl := Encoded.cmd.inj e
      refine .inr (.inr (.inr (.inl ⟨(match_hasFlag_iff _).2 (by simp), rfl, rfl, ?_⟩)))
      have named := (selectorNamed_iff_mem sel).1 wf
      rwa [← flag_pack 4 sel false false false 0] at named
    | clearAddr =>
      obtain rfl := Encoded.cmd.inj e
      exact .inr (.inr (.inr (.inr (.inl ⟨rfl, rfl, rfl⟩))))
    | masterSend =>
      obtain rfl := Encoded.cmd.inj e
      exact .inr (.inr (.inr (.inr (.inr (.inl ((match_masterSend_iff _).2 (by simp)))))))
    | initPeripheral =>
      obtain rfl := Encoded.cmd.inj e
      exact .inr (.inr (.inr (.inr (.inr (.inr ⟨(match_configure_iff 7 _).2 (by simp), rfl⟩)))))
    | _ => cases e
  · rintro (m | ⟨m, w1, w2⟩ | ⟨m, w1, w2⟩ | ⟨m, w1, w2, named⟩ | ⟨m, w1, w2⟩ | m | ⟨m, w1⟩)
    · obtain ⟨res, op, flag, en⟩ := (match_configure_iff 1 _).1 m
      exact ⟨.configure c.w1 c.w2 (Duty.ofBit (W0.duty c.w0)) (W0.addr c.w0) (W0.ack c.w0), rfl,
        cmd_pack_eq res op flag en rfl (ofBit_dutyBit _).symm rfl rfl rfl⟩
    · obtain ⟨res, op, flag, ack, duty, addr⟩ := (match_setEnabled_iff _).1 m
      exact ⟨.setEnabled (W0.en c.w0), rfl, cmd_pack_eq res op flag rfl ack duty addr w1 w2⟩
    · obtain ⟨w0, w1, w2⟩ := c
      subst m w1 w2
      exact ⟨.clockGateEnable, rfl, rfl⟩
    · obtain ⟨res, op, en, ack, duty, addr⟩ := (match_hasFlag_iff _).1 m
      exact ⟨.hasFlag (W0.flag c.w0), (selectorNamed_iff_mem _).2 named, cmd_pack_eq res op rfl en ack duty addr w1 w2⟩
    · obtain ⟨w0, w1, w2⟩ := c
      subst m w1 w2
      exact ⟨.clearAddr, rfl, rfl⟩
    · obtain ⟨res, op, flag, en, ack, duty⟩ := (match_masterSend_iff _).1 m
      exact ⟨.masterSend (W0.addr c.w0) c.w1 c.w2, rfl, cmd_pack_eq res op flag en ack duty rfl rfl rfl⟩
    · obtain ⟨res, op, flag, en⟩ := (match_configure_iff 7 _).1 m
      exact ⟨.initPeripheral (W0.addr c.w0) (W0.ack c.w0) c.w2 (Duty.ofBit (W0.duty c.w0)), rfl,
        cmd_pack_eq res op flag en rfl (ofBit_dutyBit _).symm rfl w1 rfl⟩

/-- Settles O4, by decoding each. -/
theorem specExampleWordsDecode : Obligations.SpecExampleWordsDecode := ⟨rfl, rfl, rfl, rfl, rfl, rfl, rfl, rfl⟩

/-! ## What a step runs -/

/-- Outside `rst`, a step of a well-formed configuration runs what `fetch` finds after the host's move. -/
theorem step_eq_runWork {s : State} (wf : s.cfg.wf = true) (rst : rstAsserted s = false) :
    step s = runWork (fetch (hostTurn s)) := by
  unfold step
  rw [if_pos wf, rst]
  rfl

theorem fetch_of_busy {s : State} (busy : s.mtc.busy = true) : fetch s = .run s.mtc.upc.instr s := by
  obtain ⟨-, f⟩ | ⟨ready, -⟩ | ⟨-, -, ready, -⟩ := fetch_cases s
  · exact f
  all_goals simp [busy] at ready

theorem fetch_of_none_offered {s : State} (ready : s.mtc.busy = false) (none : s.ports.offered = []) :
    fetch s = .run .seqIdle s := by
  unfold fetch
  rw [ready, none]
  rfl

theorem fetch_of_offered {s : State} {w : CmdWords} {rest : List CmdWords} (ready : s.mtc.busy = false)
    (offered : s.ports.offered = w :: rest) : fetch s = decodeAccepted (accept w rest s) := by
  unfold fetch
  rw [ready, offered]
  rfl

/-- Settles O5: each clause is one of the three places where a step takes its work from. -/
theorem stepRunsDecodedInstruction : Obligations.StepRunsDecodedInstruction := by
  intro s wf rst
  rw [step_eq_runWork wf rst]
  refine ⟨?accepted, ?micro, ?idle⟩
  case accepted =>
    intro w rest i ready offered decoded
    have decoded : decodeCommand w = .ok i := decoded
    rw [fetch_of_offered ready offered]
    simp [decodeAccepted, decoded, runWork]
  case micro =>
    intro i busy decoded
    obtain rfl := Except.ok.inj ((decodeMicro_code _).symm.trans decoded)
    rw [fetch_of_busy busy]
    rfl
  case idle =>
    intro ready none
    rw [fetch_of_none_offered ready none]
    rfl

/-- The first move listed is the one made. -/
theorem hostTurn_of_cons {s : State} {m : HostMove} {rest : List HostMove} (h : s.ports.host = m :: rest) :
    hostTurn s = applyHost m { s with ports := { s.ports with host := rest } } := by
  unfold hostTurn
  rw [h]

/-- Settles O6, move by move. -/
theorem hostMovesLandBeforeTheStep : Obligations.HostMovesLandBeforeTheStep := by
  intro s rest
  refine ⟨fun h => ?none, hostTurn_of_cons, fun _ => hostTurn_of_cons, fun _ => hostTurn_of_cons,
    fun _ _ => hostTurn_of_cons⟩
  unfold hostTurn
  rw [h]

/-! ## INITIALIZE -/

/-- R61, R102: neither a read nor a write of another register touches the clock gate, and ENV cannot. -/
theorem regRmw_clkgate {r : RmwReg} (other : r ≠ .clken) (clr set : Word) (s : State) :
    RegValues.clkgate s.cfg (regRmw r clr set s).per.rb = RegValues.clkgate s.cfg s.per.rb := by
  rw [(regRmw_envOnly r clr set s).clkgate]
  obtain ⟨_, write⟩ := writeEffect_rb r.toWrite (rmwValue (readValue r.toRead s.per) clr set) (readEffect r.toRead s.per)
  obtain ⟨_, _, read⟩ := readEffect_rb r.toRead s.per
  rw [write, read]
  cases r with
  | clken => exact absurd rfl other
  | _ => rfl

/-- R102: CLOCK_GATE_ENABLE sets the clock gate. -/
theorem clockGateBody_clkgate (s : State) : RegValues.clkgate s.cfg (clockGateBody s).per.rb = true := by
  have gate := (regRmw_envOnly .clken (clkgateMask s.cfg) (clkgateMask s.cfg) s).clkgate s.cfg
  refine gate.trans ?_
  show bitAt (rmwValue s.per.rb.clken (clkgateMask s.cfg) (clkgateMask s.cfg)) s.cfg.posClkgate.val = true
  rw [rmwValue_own, bitAt_or, clkgateMask, bitAt_bitMask]
  simp

/-! A response reaches nothing that an access reads, and the last one stands. -/

@[simp] theorem respond_respond (a b c d : Bool) (s : State) : respond a b (respond c d s) = respond a b s := rfl

theorem enableBody_respond (en a b : Bool) (s : State) : enableBody en (respond a b s) = respond a b (enableBody en s) := rfl

theorem configBody_respond (pclk scl : Word) (duty : Duty) (addr : Addr7) (ack a b : Bool) (s : State) :
    configBody pclk scl duty addr ack (respond a b s) = respond a b (configBody pclk scl duty addr ack s) := rfl

/-- Settles O38: the gate, once set, stays set, and the responses between the three commands are all that INITIALIZE leaves
out. -/
theorem initializeIsItsExpansion : Obligations.InitializeIsItsExpansion := by
  intro addr ack scl duty s
  have gate : RegValues.clkgate s.cfg (clockGateBody s).per.rb = true := clockGateBody_clkgate s
  have stays : RegValues.clkgate s.cfg (enableBody true (clockGateBody s)).per.rb = true :=
    (regRmw_clkgate (by decide) _ _ (clockGateBody s)).trans gate
  refine ⟨respond false false (clockGateBody s), respond false false (enableBody true (clockGateBody s)), rfl,
    ?enable, ?configure⟩
  case enable =>
    refine (whenClocked_of_gate _ gate).trans ?_
    rw [enableBody_respond, respond_respond]
  case configure =>
    refine Eq.trans ?_ (whenClocked_of_gate _ stays).symm
    rw [configBody_respond, respond_respond]
    rfl

end Sys2Proof.EncodingProofs

/-! Proofs that a step keeps the slots, the control state of SEQ and with them the whole invariant (30_encoding.md R66,
43_peripheral_environment.md R144, 70_reset_and_hazards.md R190). -/

namespace Sys2Proof.EncodingProofs

open Sys2Proof.Machine Sys2Proof.Laws Sys2Proof.Safety Sys2Proof.StateProofs

/-! ## The slots -/

/-- The clauses of the slot invariant under the reference ENV, as propositions. -/
theorem slotInv_iff_of_isRef {p : Periph} (ref : Periph.isRef p = true) : slotInv p = true ↔
    (p.env.phase ≠ .data → p.env.shiftValid = false)
    ∧ (p.env.phase = .idle ∨ p.env.phase = .addrSent → p.env.holdValid = false)
    ∧ (p.env.phase = .data → RegValues.flag p.rb .btf = true → p.env.holdValid = false ∧ p.env.shiftValid = false)
    ∧ (p.env.addrStage = .held ↔ p.env.phase = .started ∧ p.env.holdValid = true)
    ∧ p.env.addrStage ≠ .shifting := by
  unfold slotInv
  rw [if_pos ref]
  cases p.env.phase <;> cases p.env.addrStage <;> cases p.env.holdValid <;> cases p.env.shiftValid <;> simp

/-- The clauses of the slot invariant under any other ENV, as propositions. -/
theorem slotInv_iff_of_not_isRef {p : Periph} (other : Periph.isRef p = false) : slotInv p = true ↔
    (RegValues.flag p.rb .txe = true → p.env.holdValid = false)
    ∧ (RegValues.flag p.rb .btf = true → p.env.shiftValid = false)
    ∧ (p.env.addrStage = .held → p.env.holdValid = true)
    ∧ (p.env.addrStage = .shifting → p.env.shiftValid = true) := by
  unfold slotInv
  rw [other, if_neg Bool.false_ne_true]
  simp only [Bool.and_eq_true, Bool.or_eq_true, Bool.not_eq_true', beq_eq_false_iff_ne, ne_eq, and_assoc, imp_iff_not_or,
    Bool.not_eq_true]

/-- All that the slot invariant looks at. -/
theorem slotInv_congr {p q : Periph} (kind : Periph.isRef q = Periph.isRef p) (phase : q.env.phase = p.env.phase)
    (hold : q.env.holdValid = p.env.holdValid) (shift : q.env.shiftValid = p.env.shiftValid)
    (stage : q.env.addrStage = p.env.addrStage) (txe : RegValues.flag q.rb .txe = RegValues.flag p.rb .txe)
    (btf : RegValues.flag q.rb .btf = RegValues.flag p.rb .btf) : slotInv q = slotInv p := by
  unfold slotInv
  rw [kind, phase, hold, shift, stage, txe, btf]

/-- The clauses under another ENV, for what becomes of a peripheral behind which it stands. -/
theorem slotInv_of_clauses {p q : Periph} (other : Periph.isRef p = false) (sched : q.env.sched = p.env.sched)
    (txe : RegValues.flag q.rb .txe = true → q.env.holdValid = false)
    (btf : RegValues.flag q.rb .btf = true → q.env.shiftValid = false)
    (held : q.env.addrStage = .held → q.env.holdValid = true)
    (shifting : q.env.addrStage = .shifting → q.env.shiftValid = true) : slotInv q = true :=
  (slotInv_iff_of_not_isRef ((isRef_of_sched sched).trans other)).2 ⟨txe, btf, held, shifting⟩

/-- Under another ENV the phase is free, and `TXE` and `BTF` may fall. -/
theorem slotInv_of_same_slots {p q : Periph} (h : slotInv p = true) (other : Periph.isRef p = false)
    (sched : q.env.sched = p.env.sched) (hold : q.env.holdValid = p.env.holdValid)
    (shift : q.env.shiftValid = p.env.shiftValid) (stage : q.env.addrStage = p.env.addrStage)
    (txe : RegValues.flag q.rb .txe = true → RegValues.flag p.rb .txe = true)
    (btf : RegValues.flag q.rb .btf = true → RegValues.flag p.rb .btf = true) : slotInv q = true := by
  obtain ⟨hTxe, hBtf, hHeld, hShifting⟩ := (slotInv_iff_of_not_isRef other).1 h
  refine slotInv_of_clauses other sched (fun on => ?_) (fun on => ?_) (fun on => ?_) (fun on => ?_)
  · rw [hold]; exact hTxe (txe on)
  · rw [shift]; exact hBtf (btf on)
  · rw [hold]; exact hHeld (stage ▸ on)
  · rw [shift]; exact hShifting (stage ▸ on)

/-- R180: after a reset both slots are empty. -/
theorem slotInv_reset (rb : RegValues) (sched : Scheduler) (acks : List Bool) (draws : Nat) :
    slotInv ⟨rb, false, Env.reset sched acks draws⟩ = true := by
  cases ref : Periph.isRef ⟨rb, false, Env.reset sched acks draws⟩ with
  | true => exact (slotInv_iff_of_isRef ref).2 (by simp [Env.reset])
  | false => exact (slotInv_iff_of_not_isRef ref).2 (by simp [Env.reset])

/-- R149 to R156: each step of the reference ENV moves the bytes as its precondition allows. -/
theorem takeStep_slotInv {c : Config} {m : EnvStep} {p : Periph} (h : slotInv p = true) (ref : Periph.isRef p = true)
    (enabled : Periph.stepEnabled c p m = true) : slotInv (Periph.takeStep m p) = true := by
  rw [slotInv_iff_of_isRef ((isRef_of_sched (takeStep_sched m p)).trans ref)]
  rw [slotInv_iff_of_isRef ref] at h
  obtain ⟨shift, hold, drained, held, shifting⟩ := h
  simp only [Periph.stepEnabled, Bool.and_eq_true] at enabled
  obtain ⟨-, enabled⟩ := enabled
  cases m with
  | start =>
    simp only [Bool.and_eq_true, beq_iff_eq] at enabled
    obtain ⟨-, idle⟩ := enabled
    have empty := hold (.inl idle)
    simp [Periph.takeStep, Periph.eStart, idle, empty, shift, held, shifting]
  | addr a =>
    simp only [Bool.and_eq_true, beq_iff_eq] at enabled
    obtain ⟨started, -⟩ := enabled
    cases a <;> simp [Periph.takeStep, Periph.eAddr, started, shift]
  | drained =>
    simp only [Bool.and_eq_true, beq_iff_eq, Bool.not_eq_true'] at enabled
    obtain ⟨⟨⟨data, holdEmpty⟩, shiftEmpty⟩, -⟩ := enabled
    simp [Periph.takeStep, Periph.eDrained, data, holdEmpty, shiftEmpty, held, shifting]
  | load =>
    simp only [Bool.and_eq_true, beq_iff_eq, Bool.not_eq_true'] at enabled
    obtain ⟨⟨data, full⟩, -⟩ := enabled
    have notDrained : RegValues.flag p.rb .btf ≠ true := fun on => by simp [(drained data on).1] at full
    simp [Periph.takeStep, Periph.eLoad, data, notDrained, held, shifting]
  | stop => simp [Periph.takeStep, Periph.eStop, shifting]
  | shiftDone a =>
    simp only [Bool.and_eq_true, beq_iff_eq] at enabled
    obtain ⟨data, full⟩ := enabled
    have notDrained : RegValues.flag p.rb .btf ≠ true := fun on => by simp [(drained data on).2] at full
    cases a <;> simp [Periph.takeStep, Periph.eShiftDone, data, notDrained, held, shifting]

/-- R144: a byte lost from a slot leaves it empty. -/
theorem keepSlots_slotInv (keepHold keepShift : Bool) {p : Periph} (h : slotInv p = true) (other : Periph.isRef p = false) :
    slotInv (Periph.keepSlots keepHold keepShift p) = true := by
  obtain ⟨txe, btf, held, shifting⟩ := (slotInv_iff_of_not_isRef other).1 h
  refine slotInv_of_clauses other rfl (fun on => ?_) (fun on => ?_) (fun stage => ?_) (fun stage => ?_)
  · exact Bool.and_eq_false_iff.2 (.inl (txe on))
  · exact Bool.and_eq_false_iff.2 (.inl (btf on))
  · exact Bool.and_eq_true_iff.2 (((kept_eq_held ..).1 stage).imp_left held)
  · exact Bool.and_eq_true_iff.2 (((kept_eq_shifting ..).1 stage).imp_left shifting)

/-- R144: `TXE` rises over an empty holding slot alone, and `BTF` over an empty shift register. -/
theorem empty_of_statusAllowed {p : Periph} {v : Word} (h : Periph.statusAllowed p v = true) :
    (bitAt v Flag.txe.pos = true → RegValues.flag p.rb .txe = true ∨ p.env.holdValid = false)
    ∧ (bitAt v Flag.btf.pos = true → RegValues.flag p.rb .btf = true ∨ p.env.shiftValid = false) := by
  simp only [Periph.statusAllowed, Bool.and_eq_true, Bool.or_eq_true, Bool.not_eq_true'] at h
  obtain ⟨⟨-, txe⟩, btf⟩ := h
  exact ⟨fun on => by simpa [on] using txe.imp_right And.left, fun on => by simpa [on] using btf.imp_right And.left⟩

/-- R142 to R145: each move of another ENV keeps what `TXE` and `BTF` say of its slots. -/
theorem applyMove_slotInv {c : Config} (m : EnvMove) {p : Periph} (h : slotInv p = true) (other : Periph.isRef p = false) :
    slotInv (Periph.applyMove c m p) = true := by
  obtain ⟨txe, btf, held, shifting⟩ := (slotInv_iff_of_not_isRef other).1 h
  unfold Periph.applyMove
  split
  · exact h
  cases m with
  | genStart keepHold keepShift =>
    have kept := keepSlots_slotInv keepHold keepShift h other
    dsimp only
    split
    · exact slotInv_of_same_slots kept other rfl rfl rfl rfl (by simp [Periph.eStart]) (by simp [Periph.eStart])
    · exact slotInv_of_same_slots kept other rfl rfl rfl rfl id id
  | genStop keepHold keepShift clear =>
    have kept := keepSlots_slotInv keepHold keepShift h other
    cases clear <;> exact slotInv_of_same_slots kept other rfl rfl rfl rfl id id
  | sendAddr a keep =>
    dsimp only
    split
    · next full =>
      simp only [Bool.and_eq_true, beq_iff_eq] at full
      obtain ⟨stage, full⟩ := full
      refine slotInv_of_clauses other rfl (fun on => ?_) btf ?_ ?_
      · simp [txe on] at full
      · cases a <;> cases keep <;> simp
      · cases a <;> cases keep <;> simp
    · exact h
  | raiseAddr enter =>
    dsimp only
    split
    · exact slotInv_of_same_slots h other rfl rfl rfl rfl (by simp) (by simp)
    · exact h
  | load =>
    dsimp only
    split
    · refine slotInv_of_clauses other rfl (fun _ => rfl) (by simp) (fun stage => ?_) (fun _ => rfl)
      dsimp only at stage
      split at stage
      · cases stage
      · next no => simp [stage] at no
    · exact h
  | shiftDone a keep =>
    dsimp only
    split
    · next full =>
      simp only [Bool.and_eq_true] at full
      obtain ⟨full, -⟩ := full
      refine slotInv_of_clauses other rfl txe (fun on => ?_) (fun stage => ?_) (fun stage => ?_)
      · simp [btf on] at full
      · dsimp only at stage
        split at stage
        · cases a <;> cases keep <;> cases stage
        · exact held stage
      · dsimp only at stage
        split at stage
        · cases keep with
          | true => rfl
          | false => cases a <;> cases stage
        · next no => simp [stage] at no
    · exact h
  | drop keepHold keepShift => exact keepSlots_slotInv keepHold keepShift h other
  | status v =>
    dsimp only
    split
    · next allowed =>
      obtain ⟨empty, drained⟩ := empty_of_statusAllowed allowed
      exact slotInv_of_clauses other rfl (fun on => (empty on).elim txe id) (fun on => (drained on).elim btf id) held shifting
    · exact h
  | abandon => exact slotInv_of_same_slots h other rfl rfl rfl rfl id id

theorem turn_slotInv (c : Config) (w : Periph.TurnPoint) (p : Periph) (h : slotInv p = true) :
    slotInv (Periph.turn c w p) = true :=
  turn_keeps (P := fun q => slotInv q = true) (fun _ _ => takeStep_slotInv) (fun m _ => applyMove_slotInv m)
    (fun _ _ _ h kind => (slotInv_congr kind rfl rfl rfl rfl rfl rfl).trans h) w p h

/-- R152: the reference ENV enters the data phase with both slots empty. -/
theorem addrClearHook_slotInv {p : Periph} (h : slotInv p = true) : slotInv (Periph.addrClearHook p) = true := by
  unfold Periph.addrClearHook
  split
  · next ends =>
    cases ref : Periph.isRef p with
    | false => exact slotInv_of_same_slots h ref rfl rfl rfl rfl id id
    | true =>
      obtain ⟨shift, hold, -, held, shifting⟩ := (slotInv_iff_of_isRef ref).1 h
      have sent : p.env.phase = .addrSent := by simpa [Periph.addrPhaseEnds, ref] using ends
      have empty := hold (.inr sent)
      refine (slotInv_iff_of_isRef ?kind).2 ?clauses
      case kind => exact ref
      case clauses => simp [empty, shift, sent, held, shifting]
  · exact h

/-- R45, R152: of the reads only that of `SR2` reaches ENV, which it tells that the address phase is over. -/
theorem readEffect_slotInv (r : ReadReg) (p : Periph) (h : slotInv p = true) : slotInv (readEffect r p) = true := by
  cases r with
  | sr2 =>
    show slotInv (sr2ReadEffect p) = true
    unfold sr2ReadEffect
    dsimp only
    split
    · have cleared : ∀ f : Flag, f ≠ .addr →
          RegValues.flag (RegValues.setFlag { p.rb with sr2 := sr2Draw p } .addr false) f = RegValues.flag p.rb f :=
        fun _ other => (flag_setFlag ..).trans (if_neg other)
      refine addrClearHook_slotInv (Eq.trans (b := slotInv p) ?_ h)
      exact slotInv_congr rfl rfl rfl rfl rfl (cleared .txe (by decide)) (cleared .btf (by decide))
    · exact h
  | _ => exact h

/-- R144, R150: the byte taken clears the flags that would say its slot is empty. -/
theorem drHook_slotInv (b : Byte) {p : Periph} (h : slotInv p = true) : slotInv (Periph.drHook b p) = true := by
  cases ref : Periph.isRef p with
  | false =>
    obtain ⟨-, btf, -, shifting⟩ := (slotInv_iff_of_not_isRef ref).1 h
    unfold Periph.drHook
    simp only [ref]
    split
    · exact slotInv_of_clauses ref rfl (by simp) (by simpa using btf) (fun _ => rfl) (fun stage => by cases stage)
    · split
      · exact slotInv_of_clauses ref rfl (by simp) (by simpa using btf) (fun _ => rfl) shifting
      · exact h
  | true =>
    obtain ⟨shift, hold, drained, held, shifting⟩ := (slotInv_iff_of_isRef ref).1 h
    refine (slotInv_iff_of_isRef ((isRef_of_sched (drHook_sched b p)).trans ref)).2 ?_
    unfold Periph.drHook
    simp only [ref, Bool.not_true, Bool.and_false, Bool.or_false, beq_iff_eq]
    split
    · next started => simp [started, shift]
    · split
      · next data => simp [data, held, shifting]
      · exact ⟨shift, hold, drained, held, shifting⟩

theorem disableHook_slotInv {p : Periph} (h : slotInv p = true) : slotInv (Periph.disableHook p) = true := by
  cases ref : Periph.isRef p with
  | false => rw [disableHook_of_not_isRef ref]; exact h
  | true =>
    refine (slotInv_iff_of_isRef ((isRef_of_sched (disableHook_sched p)).trans ref)).2 ?_
    obtain ⟨shift, hold, drained, held, shifting⟩ := (slotInv_iff_of_isRef ref).1 h
    unfold Periph.disableHook
    rw [if_pos ref]
    simp [shifting]

theorem writeEffect_slotInv (r : WriteReg) (v : Word) (p : Periph) (h : slotInv p = true) :
    slotInv (writeEffect r v p) = true := by
  cases r with
  | dr => exact drHook_slotInv (p := { p with clrArmed := false }) _ h
  | cr1 =>
    show slotInv (cr1WriteEffect v p) = true
    obtain e | ⟨-, -, -, e⟩ := cr1WriteEffect_cases v p <;> rw [e]
    · exact h
    · exact disableHook_slotInv (p := { p with rb := stored .cr1 v p.rb, clrArmed := false }) h
  | _ => exact h

theorem hostTurn_slotInv {s : State} (h : slotInv s.per = true) : slotInv (hostTurn s).per = true := by
  cases rst : rstAsserted s with
  | true => rw [hostTurn_per_of_rst rst]; exact slotInv_reset _ _ _ _
  | false => rw [hostTurn_per rst]; exact h

theorem step_slotInv {s t : State} (e : step s = .next t) (h : slotInv s.per = true) : slotInv t.per = true :=
  step_keeps (P := fun p => slotInv p = true) turn_slotInv readEffect_slotInv writeEffect_slotInv e (hostTurn_slotInv h)

/-! ## The control state of SEQ -/

/-- R115, R124, R126: how far `IDX` is at each micro-step. -/
def IdxAt (u : Upc) (idx len : Word) : Prop :=
  match u with
  | .u0 => True
  | .u1 | .u2 | .u3 | .u4 | .u5 | .u6 => idx = 0
  | .u7 => idx.toNat ≤ len.toNat
  | .u8 | .u9 => idx.toNat < len.toNat
  | .u10 | .u11 | .u12 => idx = len

theorem controlInv_iff (s : State) : controlInv s = true ↔ (s.mtc.busy = true ↔ s.mtc.upc ≠ .u0)
    ∧ (s.mtc.busy = true → s.ports.rsp = none) ∧ IdxAt s.mtc.upc s.mtc.idx s.mtc.tLen := by
  unfold controlInv IdxAt
  cases s.mtc.upc <;> cases s.mtc.busy <;> simp

/-- With no command in execution SEQ is at U0, and that is all. -/
theorem controlInv_idle_iff {s : State} (idle : s.mtc.busy = false) : controlInv s = true ↔ s.mtc.upc = .u0 := by
  rw [controlInv_iff]
  constructor
  · rintro ⟨at_, -⟩
    simpa [idle] using at_
  · intro at_
    simp [idle, at_, IdxAt]

theorem controlInv_busy_iff {s : State} (busy : s.mtc.busy = true) :
    controlInv s = true ↔ s.mtc.upc ≠ .u0 ∧ s.ports.rsp = none ∧ IdxAt s.mtc.upc s.mtc.idx s.mtc.tLen := by
  rw [controlInv_iff]
  simp [busy]

theorem controlInv_of_busy {s : State} (u : Upc) (busy : s.mtc.busy = true) (silent : s.ports.rsp = none) (upc : s.mtc.upc = u)
    (send : u ≠ .u0) (idx : IdxAt u s.mtc.idx s.mtc.tLen) : controlInv s = true := by
  subst upc
  exact (controlInv_busy_iff busy).2 ⟨send, silent, idx⟩

theorem hostTurn_controlInv {s : State} (h : controlInv s = true) : controlInv (hostTurn s) = true := by
  unfold hostTurn
  split
  · exact h
  · next m _ _ =>
    cases m with
    | rst => rfl
    | _ => exact h

/-- A poll goes between two micro-steps with the same bound on `IDX`. -/
theorem pollFlag_controlInv {f : Flag} {here next : Upc} {s : State} (busy : s.mtc.busy = true) (silent : s.ports.rsp = none)
    (hereSend : here ≠ .u0) (nextSend : next ≠ .u0) (hereIdx : IdxAt here s.mtc.idx s.mtc.tLen)
    (nextIdx : IdxAt next s.mtc.idx s.mtc.tLen) : controlInv (pollFlag f here next s) = true := by
  cases flag : bitAt s.per.rb.sr1 f.pos with
  | true => exact controlInv_of_busy next busy silent (by simp [flag]) nextSend nextIdx
  | false => exact controlInv_of_busy here busy silent (by simp [flag]) hereSend hereIdx

/-- R118 to R129: each micro-step of a send leaves `IDX` where the next one has it; the last one ends the command. -/
theorem microStep_controlInv {s : State} (busy : s.mtc.busy = true) (h : controlInv s = true) :
    controlInv (nextState s.mtc.upc.instr s) = true := by
  obtain ⟨send, silent, idx⟩ := (controlInv_busy_iff busy).1 h
  cases upc : s.mtc.upc <;> rw [upc] at send idx
  case u0 => exact absurd rfl send
  case u1 => exact controlInv_of_busy .u2 busy silent rfl (by decide) idx
  case u2 => exact pollFlag_controlInv busy silent (by decide) (by decide) idx idx
  case u3 => exact controlInv_of_busy .u4 busy silent rfl (by decide) idx
  case u4 => exact pollFlag_controlInv busy silent (by decide) (by decide) idx idx
  case u5 => exact controlInv_of_busy .u6 busy silent rfl (by decide) idx
  case u6 =>
    have zero : s.mtc.idx = 0 := idx
    have bound : s.mtc.idx.toNat ≤ s.mtc.tLen.toNat := by simp [zero]
    exact controlInv_of_busy .u7 busy silent rfl (by decide) bound
  case u7 =>
    have bound : s.mtc.idx.toNat ≤ s.mtc.tLen.toNat := idx
    simp only [nextState, Upc.instr]
    split
    · next more => exact controlInv_of_busy .u8 busy silent rfl (by decide) more
    · next done =>
      have all : s.mtc.idx = s.mtc.tLen := BitVec.eq_of_toNat_eq (by omega)
      exact controlInv_of_busy .u10 busy silent rfl (by decide) all
  case u8 => exact pollFlag_controlInv busy silent (by decide) (by decide) idx idx
  case u9 =>
    have below : s.mtc.idx.toNat < s.mtc.tLen.toNat := idx
    have bound : (s.mtc.idx + 1).toNat ≤ s.mtc.tLen.toNat := by bv_omega
    exact controlInv_of_busy .u7 busy silent rfl (by decide) bound
  case u10 => exact pollFlag_controlInv busy silent (by decide) (by decide) idx idx
  case u11 => exact pollFlag_controlInv busy silent (by decide) (by decide) idx idx
  case u12 => exact (controlInv_idle_iff rfl).2 rfl

/-- R66, R67, R115: an accepted command ends with its response, at U0, but for MASTER_SEND, which goes on at U1. -/
theorem command_controlInv {i : Instr} {c : CmdWords} (command : encode i = .cmd c) {s : State} (busy : s.mtc.busy = true)
    (upc : s.mtc.upc = .u0) (silent : s.ports.rsp = none) : controlInv (nextState i s) = true := by
  cases i with
  | configure pclk scl duty addr ack =>
    obtain ⟨_, mtc⟩ := configBody_mtc pclk scl duty addr ack s
    refine (controlInv_idle_iff rfl).2 ?_
    unfold nextState
    rw [respond_mtc, mtc]
    exact upc
  | initPeripheral addr ack scl duty =>
    obtain ⟨_, mtc⟩ := configBody_mtc _ scl duty addr ack (enableBody true (clockGateBody s))
    refine (controlInv_idle_iff rfl).2 ?_
    unfold nextState initBody
    rw [respond_mtc, mtc]
    exact upc
  | hasFlag sel =>
    simp only [nextState]
    split <;> exact (controlInv_idle_iff rfl).2 upc
  | setEnabled | clockGateEnable | clearAddr => exact (controlInv_idle_iff rfl).2 upc
  | masterSend => exact controlInv_of_busy .u1 busy silent rfl (by decide) rfl
  | _ => cases command

/-- What a step that goes on has done after the host's move. -/
theorem step_next_cases {s t : State} (e : step s = .next t) : t = hostTurn s
    ∨ ((hostTurn s).mtc.busy = true ∧ exec (hostTurn s).mtc.upc.instr (hostTurn s) = .next t)
    ∨ exec .seqIdle (hostTurn s) = .next t
    ∨ ∃ w rest, (hostTurn s).mtc.busy = false
      ∧ ((∃ i, decodeCommand w = .ok i ∧ exec i (accept w rest (hostTurn s)) = .next t)
        ∨ t = respondIllegal (accept w rest (hostTurn s))) := by
  obtain ⟨-, same⟩ | ⟨-, run⟩ := step_cases e
  · exact .inl same
  obtain ⟨busy, f⟩ | ⟨-, -, f⟩ | ⟨w, rest, idle, -, ⟨i, decoded, f⟩ | ⟨_, -, f⟩⟩ := fetch_cases (hostTurn s) <;>
    rw [f] at run
  · exact .inr (.inl ⟨busy, run⟩)
  · exact .inr (.inr (.inl run))
  · exact .inr (.inr (.inr ⟨w, rest, idle, .inl ⟨i, decoded, run⟩⟩))
  · exact .inr (.inr (.inr ⟨w, rest, idle, .inr (Host.Outcome.next.inj run).symm⟩))

/-- Settles O11: a micro-step of the send in execution, SEQ_IDLE, an accepted command, or the answer to an illegal one. -/
theorem stepKeepsControlInvariant : Obligations.StepKeepsControlInvariant := by
  intro s t h e
  replace h := hostTurn_controlInv h
  obtain rfl | ⟨busy, run⟩ | run | ⟨w, rest, idle, ⟨i, decoded, run⟩ | rfl⟩ := step_next_cases e
  · exact h
  · rw [exec_next run]
    exact microStep_controlInv busy h
  · rw [exec_next run]
    exact h
  · rw [exec_next run]
    exact command_controlInv (decodeCommand_ok decoded).2 rfl ((controlInv_idle_iff idle).1 h) rfl
  · exact (controlInv_idle_iff rfl).2 ((controlInv_idle_iff idle).1 h)

/-! ## The whole invariant -/

theorem inv_iff (s : State) : inv s = true ↔
    controlInv s = true ∧ latchInv s.per = true ∧ slotInv s.per = true ∧ Memory.wf s.buf = true := by
  simp only [inv, Bool.and_eq_true, and_assoc]

/-- R34: after the host's move a step leaves the buffer alone. -/
theorem step_buf {s t : State} (e : step s = .next t) : t.buf = (hostTurn s).buf := by
  obtain rfl | ⟨-, run⟩ | run | ⟨w, rest, -, ⟨i, -, run⟩ | rfl⟩ := step_next_cases e
  · rfl
  · exact exec_buf run
  · exact exec_buf run
  · exact (exec_buf run).trans (accept_buf (hostTurn s) w rest)
  · rfl

/-- Settles O13: each of the four parts is kept by itself. -/
theorem stepKeepsInvariant : Obligations.StepKeepsInvariant := by
  intro s t h e
  obtain ⟨control, latch, slots, buf⟩ := (inv_iff s).1 h
  have bufAfter : Memory.wf t.buf = true := by
    rw [step_buf e]
    exact hostTurn_wf s buf
  exact (inv_iff t).2
    ⟨stepKeepsControlInvariant s t control e, stepKeepsLatchInvariant s t latch e, step_slotInv e slots, bufAfter⟩

end Sys2Proof.EncodingProofs

/-! Proofs of the statements about the Timing Configurator (40_timing_configurator.md R80 to R94): the values written and their
bits, what the eight accesses do to the registers, and the obligations. -/

namespace Sys2Proof.ConfiguratorProofs

open Sys2Proof.Machine Sys2Proof.Safety Sys2Proof.Laws Sys2Proof.StateProofs

/-! ## A read-modify-write and a write, after anything ENV may have done -/

/-- R44: but for `CR1`, where `START` and `STOP` may have fallen, ENV cannot change what a read-modify-write reads. -/
theorem readValue_rmw_of_envOnly {p q : Periph} (h : EnvOnly p q) {r : RmwReg} (other : r ≠ .cr1) :
    readValue r.toRead q = readValue r.toRead p := by
  cases r with
  | cr1 => exact absurd rfl other
  | cr2 => exact h.cr2
  | ccr => exact h.ccr
  | clken => exact h.clken

/-- R45: the read half does the same to two peripherals that differ at most by what ENV may change. -/
theorem readEffect_rmw_of_envOnly {p q : Periph} (h : EnvOnly p q) (r : RmwReg) :
    EnvOnly (readEffect r.toRead p) (readEffect r.toRead q) := by
  rw [readEffect_rmw, readEffect_rmw]
  split
  · exact h
  · exact disarm_envOnly h

section Follows
variable {p : Periph} {s : State} (h : EnvOnly p s.per) (kind : Periph.isRef s.per = Periph.isRef p)
include h kind

/-- R46: a write after ENV moved stores over what stood there before ENV moved. -/
theorem regWrite_envOnly_of {r : WriteReg} (notDr : r ≠ .dr) (v : Word) :
    EnvOnly (writeEffect r v p) (regWrite r v s).per :=
  (writeEffect_mono r notDr v h kind).trans (regWrite_envOnly r v s)

/-- R44: the same for a read-modify-write whose value ENV cannot change. -/
theorem regRmw_envOnly_of {r : RmwReg} (other : r ≠ .cr1) (clr set : Word) :
    EnvOnly (writeEffect r.toWrite (rmwValue (readValue r.toRead p) clr set) (readEffect r.toRead p))
      (regRmw r clr set s).per := by
  rw [← readValue_rmw_of_envOnly h other]
  have kinds : Periph.isRef (readEffect r.toRead s.per) = Periph.isRef (readEffect r.toRead p) := by simpa using kind
  have written := writeEffect_mono r.toWrite (by cases r <;> decide) (rmwValue (readValue r.toRead s.per) clr set)
    (readEffect_rmw_of_envOnly h r) kinds
  exact written.trans (regRmw_envOnly r clr set s)

end Follows

/-! ## The values written -/

section Configured
variable (c : Config) (pclk scl : Word) (duty : Duty) (addr : Addr7) (ack : Bool) (rb : RegValues)

/-- R80, R83 to R90: the numbers of `configured` are the values of the configurator's accesses. -/
theorem configured_eq : configured c pclk scl duty addr ack rb =
    { rb with
      cr1 := rmwValue rb.cr1 ackMask (maskIf ack ackMask)
      cr2 := rmwValue rb.cr2 freqMask ((freqField pclk).setWidth 32)
      oar1 := oar1Value addr
      ccr := rmwValue rb.ccr (ccrMask scl) (ccrBits c.arithW pclk scl duty)
      trise := (triseField c.arithW pclk scl).setWidth 32 } := by
  unfold configured
  rw [rmwValue_ack, rmwValue_freq, oar1Value_eq]
  by_cases standard : scl.toNat ≤ 100000
  · rw [rmwValue_ccr_standard _ _ _ _ _ standard, triseField_standard _ _ _ standard, if_pos standard, if_pos standard]
  · rw [rmwValue_ccr_fast _ _ _ _ _ standard, triseField_fast _ _ _ standard, if_neg standard, if_neg standard]

theorem configured_cr1 : (configured c pclk scl duty addr ack rb).cr1 = rmwValue rb.cr1 ackMask (maskIf ack ackMask) := by
  rw [configured_eq]

theorem configured_cr2 : (configured c pclk scl duty addr ack rb).cr2 =
    rmwValue rb.cr2 freqMask ((freqField pclk).setWidth 32) := by
  rw [configured_eq]

theorem configured_oar1 : (configured c pclk scl duty addr ack rb).oar1 = oar1Value addr := by
  rw [configured_eq]

theorem configured_ccr : (configured c pclk scl duty addr ack rb).ccr =
    rmwValue rb.ccr (ccrMask scl) (ccrBits c.arithW pclk scl duty) := by
  rw [configured_eq]

theorem configured_trise : (configured c pclk scl duty addr ack rb).trise =
    (triseField c.arithW pclk scl).setWidth 32 := by
  rw [configured_eq]

end Configured

/-! ## What the eight accesses do -/

section Stages
variable (s : State)

/-- R84: step 1 does not own `PE`, so the write stores and disarms, and no more. -/
theorem configAck_envOnly :
    EnvOnly { s.per with
        rb := { s.per.rb with cr1 := rmwValue s.per.rb.cr1 ackMask (maskIf s.mtc.hAck ackMask) }
        clrArmed := false } (configAck s).per := by
  refine rmwCr1_envOnly _ _ s (by decide) ?_
  rw [bitAt_maskIf, show bitAt ackMask posPe = false by decide, Bool.and_false]

@[simp] theorem configAck_isRef : Periph.isRef (configAck s).per = Periph.isRef s.per := regRmw_isRef ..
@[simp] theorem configFreq_isRef : Periph.isRef (configFreq s).per = Periph.isRef s.per := regRmw_isRef ..
@[simp] theorem configAddr_isRef : Periph.isRef (configAddr s).per = Periph.isRef s.per := regWrite_isRef ..
@[simp] theorem configDiv_isRef : Periph.isRef (configDiv s).per = Periph.isRef s.per := regRmw_isRef ..

@[simp] theorem configAck_cr2 : (configAck s).per.rb.cr2 = s.per.rb.cr2 := (configAck_envOnly s).cr2
@[simp] theorem configAck_ccr : (configAck s).per.rb.ccr = s.per.rb.ccr := (configAck_envOnly s).ccr
@[simp] theorem configFreq_ccr : (configFreq s).per.rb.ccr = s.per.rb.ccr := (regRmw_envOnly .cr2 _ _ s).ccr
@[simp] theorem configAddr_ccr : (configAddr s).per.rb.ccr = s.per.rb.ccr := (regWrite_envOnly .oar1 _ s).ccr

theorem configAck_acc : (configAck s).acc = s.acc ++
    [.regRead (regAddr s.cfg .cr1) s.per.rb.cr1,
     .regWrite (regAddr s.cfg .cr1) (rmwValue s.per.rb.cr1 ackMask (maskIf s.mtc.hAck ackMask))] := regRmw_acc ..

theorem configFreq_acc : (configFreq s).acc = s.acc ++
    [.regRead (regAddr s.cfg .cr2) s.per.rb.cr2,
     .regWrite (regAddr s.cfg .cr2) (rmwValue s.per.rb.cr2 freqMask ((freqField s.mtc.pclk).setWidth 32))] := regRmw_acc ..

theorem configAddr_acc : (configAddr s).acc = s.acc ++ [.regWrite (regAddr s.cfg .oar1) (oar1Value s.mtc.hAddr)] := rfl

theorem configDiv_acc : (configDiv s).acc = s.acc ++
    [.regRead (regAddr s.cfg .ccr) s.per.rb.ccr,
     .regWrite (regAddr s.cfg .ccr) (rmwValue s.per.rb.ccr (ccrMask s.mtc.hScl)
       (ccrBits s.cfg.arithW s.mtc.pclk s.mtc.hScl s.mtc.hDuty))] := regRmw_acc ..

theorem configRise_acc : (configRise s).acc = s.acc ++
    [.regWrite (regAddr s.cfg .trise) ((triseField s.cfg.arithW s.mtc.pclk s.mtc.hScl).setWidth 32)] := rfl

end Stages

section Body
variable (pclk scl : Word) (duty : Duty) (addr : Addr7) (ack : Bool) (s : State)

/-- R80, R192: the registers are those of `configured`, whatever ENV did between the accesses. -/
theorem configBody_envOnly :
    EnvOnly { s.per with rb := configured s.cfg pclk scl duty addr ack s.per.rb, clrArmed := false }
      (configBody pclk scl duty addr ack s).per := by
  have acked := configAck_envOnly (latchConfig pclk scl duty addr ack s)
  have ackedKind := configAck_isRef (latchConfig pclk scl duty addr ack s)
  have freq : EnvOnly _ (configFreq _).per := regRmw_envOnly_of acked ackedKind (r := .cr2) (by decide) _ _
  have freqKind := (configFreq_isRef _).trans ackedKind
  have addressed : EnvOnly _ (configAddr _).per := regWrite_envOnly_of freq freqKind (r := .oar1) (by decide) _
  have addressedKind := (configAddr_isRef _).trans freqKind
  have divided : EnvOnly _ (configDiv _).per := regRmw_envOnly_of addressed addressedKind (r := .ccr) (by decide) _ _
  have dividedKind := (configDiv_isRef _).trans addressedKind
  have risen : EnvOnly _ (configRise _).per := regWrite_envOnly_of divided dividedKind (r := .trise) (by decide) _
  rw [configured_eq]
  exact risen

/-- R10, R14: the latches, `H_VALID`, and `TMP` with what the last read-modify-write read. -/
theorem configBody_mtc_eq : (configBody pclk scl duty addr ack s).mtc = { s.mtc with
    pclk := pclk, hScl := scl, hDuty := duty, hAddr := addr, hAck := ack, hValid := true, tmp := s.per.rb.ccr } := by
  simp [configBody]

/-- R91: the eight entries, each read as the command found the register and each written value that of `configured`. -/
theorem configBody_acc : (configBody pclk scl duty addr ack s).acc = s.acc ++ [
    .regRead (regAddr s.cfg .cr1) s.per.rb.cr1,
    .regWrite (regAddr s.cfg .cr1) (configured s.cfg pclk scl duty addr ack s.per.rb).cr1,
    .regRead (regAddr s.cfg .cr2) s.per.rb.cr2,
    .regWrite (regAddr s.cfg .cr2) (configured s.cfg pclk scl duty addr ack s.per.rb).cr2,
    .regWrite (regAddr s.cfg .oar1) (configured s.cfg pclk scl duty addr ack s.per.rb).oar1,
    .regRead (regAddr s.cfg .ccr) s.per.rb.ccr,
    .regWrite (regAddr s.cfg .ccr) (configured s.cfg pclk scl duty addr ack s.per.rb).ccr,
    .regWrite (regAddr s.cfg .trise) (configured s.cfg pclk scl duty addr ack s.per.rb).trise] := by
  simp [configBody, configAck_acc, configFreq_acc, configAddr_acc, configDiv_acc, configRise_acc, configured_eq]

end Body

/-- The registers that any CONFIGURE leaves, over those it found. -/
theorem exec_configure_envOnly {pclk scl : Word} {duty : Duty} {addr : Addr7} {ack : Bool} {s t : State}
    (e : exec (.configure pclk scl duty addr ack) s = .next t) :
    EnvOnly { s.per with rb := configured s.cfg pclk scl duty addr ack s.per.rb, clrArmed := false } t.per := by
  rw [exec_next e]
  exact configBody_envOnly pclk scl duty addr ack s

/-- Settles O33: the latches, the registers and the response, each by its own lemma about the body. -/
theorem configureWritesItsFields : Obligations.ConfigureWritesItsFields := by
  intro pclk scl duty addr ack s gate
  refine ⟨respond false false (configBody pclk scl duty addr ack s), whenClocked_of_gate _ gate, ?cfg, ?buf, ?mtc, ?ports,
    configBody_envOnly pclk scl duty addr ack s⟩
  case cfg => rw [respond_cfg, configBody_cfg]
  case buf => rw [respond_buf, configBody_buf]
  case mtc => rw [respond_mtc, configBody_mtc_eq]
  case ports => rw [respond_ports, configBody_ports]

/-- Settles O34: the trace of the body, to which the response adds no access. -/
theorem configureAccessTrace : Obligations.ConfigureAccessTrace := by
  intro pclk scl duty addr ack s t e
  rw [exec_next e]
  exact configBody_acc pclk scl duty addr ack s

/-! ## The fields as numbers and bits -/

/-- R82: with `ARITH_W = 64` the product of two 32-bit numbers is exact. -/
theorem mulW_exact {a b : Nat} (ha : a < 2 ^ 32) (hb : b < 2 ^ 32) : mulW 64 a b = a * b := by
  have fits : a * b < 2 ^ 32 * 2 ^ 32 := Nat.mul_lt_mul'' ha hb
  exact Nat.mod_eq_of_lt (by simpa using fits)

theorem divSm_toNat (pclk scl : Word) : (divSm 64 pclk scl).toNat = pclk.toNat / (2 * scl.toNat) % 4096 := by
  unfold divSm
  rw [mulW_exact (by decide) scl.isLt, udiv_eq]
  exact BitVec.toNat_ofNat ..

theorem divFm_toNat (pclk scl : Word) (duty : Duty) :
    (divFm 64 pclk scl duty).toNat = pclk.toNat / (dutyFactor duty * scl.toNat) % 4096 := by
  unfold divFm
  rw [mulW_exact (by cases duty <;> decide) scl.isLt, udiv_eq]
  exact BitVec.toNat_ofNat ..

theorem triseSm_toNat (pclk : Word) : (triseSm pclk).toNat = (pclk.toNat / 1000000 + 1) % 64 := by
  unfold triseSm
  rw [udiv_eq]
  exact BitVec.toNat_ofNat ..

theorem triseFm_toNat (pclk : Word) : (triseFm 64 pclk).toNat = (pclk.toNat * 300 / 1000000000 + 1) % 64 := by
  unfold triseFm
  rw [mulW_exact pclk.isLt (by decide), udiv_eq]
  exact BitVec.toNat_ofNat ..

/-- R60: the divider reaches no bit above `DIV`. -/
theorem bitAt_div (d : BitVec 12) {n : Nat} (above : 12 ≤ n) : bitAt (d.setWidth 32) n = false := by
  unfold bitAt
  rw [BitVec.getLsbD_setWidth, BitVec.getLsbD_of_ge d n above, Bool.and_false]

section Ccr
variable (w pclk scl : Word) (duty : Duty) (n : Nat)

/-- R87, R88: in either mode CONFIGURE owns the twelve bits of `DIV`, and writes the divider there. -/
theorem ccr_div : (rmwValue w (ccrMask scl) (ccrBits n pclk scl duty)).setWidth 12 = divField n pclk scl duty := by
  have aboveDiv : (bitMask posFs ||| maskIf duty.bit (bitMask posDuty)).setWidth 12 = 0#12 := by cases duty <;> decide
  unfold rmwValue ccrMask ccrBits divField
  cases fastMode scl with
  | false => simp
  | true =>
    rw [if_pos rfl, if_pos rfl, if_pos rfl, BitVec.setWidth_or, BitVec.setWidth_or, aboveDiv]
    simp

/-- R87, R88: `FS` says which mode it is. -/
theorem ccr_fs : bitAt (rmwValue w (ccrMask scl) (ccrBits n pclk scl duty)) posFs = fastMode scl := by
  rw [bitAt_rmwValue]
  unfold ccrMask ccrBits
  cases fastMode scl with
  | false =>
    have owned : bitAt 0x8FFF#32 posFs = true := by decide
    simp [owned, bitAt_div _ (show 12 ≤ posFs by decide)]
  | true =>
    have set : bitAt (bitMask posFs) posFs = true := by decide
    simp [bitAt_or, set]

/-- R87, R88, D21: `DUTY` is written in fast mode only. -/
theorem ccr_duty : bitAt (rmwValue w (ccrMask scl) (ccrBits n pclk scl duty)) posDuty =
    if fastMode scl then duty.bit else bitAt w posDuty := by
  have field (d : BitVec 12) : bitAt (d.setWidth 32) posDuty = false := bitAt_div d (by decide)
  rw [bitAt_rmwValue]
  unfold ccrMask ccrBits
  cases fastMode scl with
  | false =>
    have kept : bitAt 0x8FFF#32 posDuty = false := by decide
    simp [kept, field]
  | true =>
    have owned : bitAt 0xCFFF#32 posDuty = true := by decide
    have fs : bitAt (bitMask posFs) posDuty = false := by decide
    have set : bitAt (bitMask posDuty) posDuty = true := by decide
    simp [bitAt_or, bitAt_maskIf, owned, fs, set, field]

end Ccr

/-- R84: of `CR1` CONFIGURE changes `ACK` alone. -/
theorem cr1_ack (w : Word) (ack : Bool) (n : Nat) :
    bitAt (rmwValue w ackMask (maskIf ack ackMask)) n = if n = posAck then ack else bitAt w n := by
  rw [bitAt_rmwValue, bitAt_maskIf, ackMask, bitAt_bitMask]
  by_cases own : n = posAck
  · simp [own, posAck]
  · simp [own]

/-- Settles O35: ENV reaches none of the fields, so each is read off `configured`, by mode and duty. -/
theorem configuratorProperties : Obligations.ConfiguratorProperties := by
  intro pclk scl duty addr ack s t exact64 e
  have env := exec_configure_envOnly e
  have ccr := env.ccr.trans (configured_ccr ..)
  have trise := env.trise.trans (configured_trise ..)
  have cr1 : ∀ n, n ≠ posStart → n ≠ posStop →
      bitAt t.per.rb.cr1 n = if n = posAck then ack else bitAt s.per.rb.cr1 n :=
    fun n notStart notStop => by rw [env.cr1Bits n notStart notStop, configured_cr1, cr1_ack]
  have div : t.per.rb.ccr.toNat % 4096 = (divField 64 pclk scl duty).toNat := by
    rw [← exact64, ← ccr_div s.per.rb.ccr, ← ccr, BitVec.toNat_setWidth]
  have fs : bitAt t.per.rb.ccr 15 = fastMode scl := by rw [ccr]; exact ccr_fs ..
  have dutyBit : bitAt t.per.rb.ccr 14 = if fastMode scl then duty.bit else bitAt s.per.rb.ccr 14 := by
    rw [ccr]; exact ccr_duty ..
  have rise : t.per.rb.trise.toNat = (triseField 64 pclk scl).toNat := by
    rw [trise, exact64]; exact BitVec.toNat_setWidth_of_le (by decide)
  unfold divField at div
  unfold triseField at rise
  refine ⟨fun standard => ?_, fun fast low => ?_, fun fast high => ?_, fun fast => ?_, ?_, fun n start stop notAck => ?_, ?_⟩
  · rw [div, fs, dutyBit, rise, fastMode_of_le standard]
    exact ⟨divSm_toNat pclk scl, rfl, rfl, triseSm_toNat pclk⟩
  · subst low
    rw [div, dutyBit, fastMode_of_gt (by omega)]
    exact ⟨divFm_toNat pclk scl .low, rfl⟩
  · subst high
    rw [div, dutyBit, fastMode_of_gt (by omega)]
    exact ⟨divFm_toNat pclk scl .high, rfl⟩
  · rw [fs, rise, fastMode_of_gt (by omega)]
    exact ⟨rfl, triseFm_toNat pclk⟩
  · rw [env.oar1, configured_oar1, oar1Value_eq, BitVec.toNat_ofNat]
    omega
  · exact (cr1 n start stop).trans (if_neg notAck)
  · exact cr1 posAck (by decide) (by decide)

/-! ## A second CONFIGURE -/

/-- R44: a read-modify-write repeated at once changes nothing. -/
theorem rmwValue_idem (w clr set : Word) : rmwValue (rmwValue w clr set) clr set = rmwValue w clr set := by
  apply BitVec.eq_of_getLsbD_eq
  intro i _
  change bitAt _ i = bitAt _ i
  rw [bitAt_rmwValue, bitAt_rmwValue]
  cases bitAt w i <;> cases bitAt clr i <;> cases bitAt set i <;> rfl

/-- Settles O36: the first run leaves the gate set, so the second completes, over registers that already hold what it writes. -/
theorem configureIsIdempotent : Obligations.ConfigureIsIdempotent := by
  intro pclk scl duty addr ack s t e
  have first := exec_configure_envOnly e
  have cfg : t.cfg = s.cfg := exec_cfg e
  have gate : RegValues.clkgate t.cfg t.per.rb = true := by
    rw [cfg, first.clkgate, configured_eq]
    exact (whenClocked_next e).1
  obtain ⟨u, run, -, -, -, -, second⟩ := configureWritesItsFields pclk scl duty addr ack t gate
  refine ⟨u, run, ?cr2, ?oar1, ?ccr, ?trise, ?cr1⟩
  case cr2 => rw [second.cr2, first.cr2, configured_cr2, first.cr2, configured_cr2, rmwValue_idem]
  case oar1 => rw [second.oar1, first.oar1, configured_oar1, configured_oar1]
  case ccr => rw [second.ccr, configured_ccr, first.ccr, configured_ccr, cfg, rmwValue_idem]
  case trise => rw [second.trise, first.trise, configured_trise, configured_trise, cfg]
  case cr1 =>
    intro n start stop
    rw [second.cr1Bits n start stop, configured_cr1, cr1_ack, first.cr1Bits n start stop, configured_cr1, cr1_ack]
    split <;> rfl

end Sys2Proof.ConfiguratorProofs

/-! Proofs of the statements about enabling, the clock gate, the status poller and INITIALIZE (41_enable_status_init.md R100 to
R112), one command after another: what its accesses leave of the registers, whatever ENV does between them, then its obligation. -/

namespace Sys2Proof.EnableProofs

open Sys2Proof.Machine Sys2Proof.Safety Sys2Proof.Laws Sys2Proof.StateProofs Sys2Proof.EncodingProofs
  Sys2Proof.ConfiguratorProofs

/-! ## The clock gate -/

section Clken
variable (s : State)

@[simp] theorem regRead_clken (r : ReadReg) : (regRead r s).2.per.rb.clken = s.per.rb.clken := by
  obtain ⟨_, _, rb⟩ := readEffect_rb r s.per
  rw [(regRead_envOnly r s).clken, rb]

theorem regWrite_clken {r : WriteReg} (other : r ≠ .clken) (v : Word) :
    (regWrite r v s).per.rb.clken = s.per.rb.clken := by
  obtain ⟨_, rb⟩ := writeEffect_rb r v s.per
  rw [(regWrite_envOnly r v s).clken, rb]
  cases r with
  | clken => exact absurd rfl other
  | _ => rfl

theorem regRmw_clken {r : RmwReg} (other : r ≠ .clken) (clr set : Word) :
    (regRmw r clr set s).per.rb.clken = s.per.rb.clken :=
  (regWrite_clken _ (by cases r <;> simp_all [RmwReg.toWrite]) _).trans (regRead_clken s r.toRead)

@[simp] theorem bufRead_clken (a : Word) : (bufRead a s).2.per.rb.clken = s.per.rb.clken := (bufRead_envOnly a s).clken

@[simp] theorem internalTurn_clken : (internalTurn s).per.rb.clken = s.per.rb.clken := (internalTurn_envOnly s).clken

@[simp] theorem configBody_clken (pclk scl : Word) (duty : Duty) (addr : Addr7) (ack : Bool) :
    (configBody pclk scl duty addr ack s).per.rb.clken = s.per.rb.clken :=
  (configBody_envOnly pclk scl duty addr ack s).clken

@[simp] theorem initBody_clken (addr : Addr7) (ack : Bool) (scl : Word) (duty : Duty) :
    (initBody addr ack scl duty s).per.rb.clken = (clockGateBody s).per.rb.clken :=
  (configBody_clken _ _ scl duty addr ack).trans (regRmw_clken _ (by decide) _ _)

end Clken

/-- R103: an instruction leaves `CLKEN` alone or makes the clock gate's own read-modify-write of it. -/
theorem exec_clken {i : Instr} {s t : State} (e : exec i s = .next t) :
    t.per.rb.clken = s.per.rb.clken ∨ t.per.rb.clken = (clockGateBody s).per.rb.clken := by
  rw [exec_next e]
  cases i with
  | clockGateEnable => exact .inr rfl
  | initPeripheral addr ack scl duty => exact .inr (initBody_clken s addr ack scl duty)
  | configure pclk scl duty addr ack => exact .inl (configBody_clken s pclk scl duty addr ack)
  | setEnabled | seqStartSet | seqStopSet => exact .inl (regRmw_clken s (by decide) _ _)
  | hasFlag sel =>
    simp only [nextState]
    split
    · exact .inl (regRead_clken s .sr1)
    · exact .inl rfl
  | clearAddr => exact .inl ((regRead_clken _ .sr2).trans (regRead_clken s .sr1))
  | masterSend => exact .inl rfl
  | seqAddrWrite => exact .inl (regWrite_clken s (by decide) _)
  | seqClrSr2 => exact .inl (regRead_clken s .sr2)
  | seqIdle | seqLoopTest => exact .inl (internalTurn_clken s)
  | seqDataWrite => exact .inl ((regWrite_clken _ (by decide) _).trans (bufRead_clken s _))
  | seqWaitSb | seqWaitAddr | seqClrSr1 | seqWaitTxe | seqDrainTxe | seqWaitBtf => exact .inl (regRead_clken s .sr1)

theorem clkgate_of_clken {a b : RegValues} (h : a.clken = b.clken) (c : Config) : RegValues.clkgate c a = RegValues.clkgate c b :=
  congrArg (fun w => bitAt w c.posClkgate.val) h

/-- R103: no instruction clears the clock gate. -/
theorem exec_keeps_clkgate {i : Instr} {s t : State} (e : exec i s = .next t)
    (gate : RegValues.clkgate s.cfg s.per.rb = true) : RegValues.clkgate s.cfg t.per.rb = true := by
  obtain same | opened := exec_clken e
  · exact (clkgate_of_clken same s.cfg).trans gate
  · exact (clkgate_of_clken opened s.cfg).trans (clockGateBody_clkgate s)

/-- Settles O16: outside `rst` a step runs an instruction, none of which clears the gate, or answers an illegal command. -/
theorem clockGateIsNeverCleared : Obligations.ClockGateIsNeverCleared := by
  intro s t rst gate e
  obtain ⟨u, cfg, per, run⟩ := step_runs e rst
  rw [hostTurn_cfg] at cfg
  rw [hostTurn_per rst] at per
  rw [step_cfg e, ← cfg]
  rw [← cfg, ← per] at gate
  obtain ⟨i, run⟩ | rfl := run
  · exact exec_keeps_clkgate run gate
  · exact gate

/-- R102: the read-modify-write of `CLKEN` leaves the two-step clear alone. -/
theorem clockGateBody_envOnly (s : State) :
    EnvOnly { s.per with rb := { s.per.rb with clken := s.per.rb.clken ||| clkgateMask s.cfg } } (clockGateBody s).per := by
  rw [← rmwValue_own]
  exact regRmw_envOnly .clken (clkgateMask s.cfg) (clkgateMask s.cfg) s

/-- R102: the gate's bit is or-ed into the value read. -/
theorem clockGateBody_accesses (s : State) : (clockGateBody s).acc = s.acc ++
    ([.regRead s.cfg.clkenAddr s.per.rb.clken,
      .regWrite s.cfg.clkenAddr (s.per.rb.clken ||| clkgateMask s.cfg)] : List Access) := by
  rw [clockGateBody_acc, rmwValue_own]

/-- Settles O29: the body of the command, from whatever state. -/
theorem clockGateEnableSetsOneBit : Obligations.ClockGateEnableSetsOneBit := fun s =>
  ⟨respond false false (clockGateBody s), rfl, rfl, rfl, rfl, rfl, clockGateBody_accesses s, clockGateBody_envOnly s⟩

/-! ## SET_ENABLED -/

/-- R100, R157: a read-modify-write of `CR1` that does not disable the reference ENV stores and disarms, and no more. -/
theorem rmwCr1_envOnly_of_not_disabling {clr set : Word} {s : State} (h : Periph.isRef s.per = false
      ∨ RegValues.pe s.per.rb = false ∨ bitAt (rmwValue s.per.rb.cr1 clr set) posPe = true) :
    EnvOnly { s.per with rb := { s.per.rb with cr1 := rmwValue s.per.rb.cr1 clr set }, clrArmed := false }
      (regRmw .cr1 clr set s).per := by
  have written : EnvOnly (cr1WriteEffect (rmwValue s.per.rb.cr1 clr set) (readEffect .cr1 s.per)) (regRmw .cr1 clr set s).per :=
    regRmw_envOnly .cr1 clr set s
  obtain stores | ⟨ref, pe, off, -⟩ := cr1WriteEffect_cases (rmwValue s.per.rb.cr1 clr set) (readEffect .cr1 s.per)
  · rw [stores] at written
    exact written
  · rw [readEffect_isRef] at ref
    rw [show RegValues.pe s.per.rb = true from pe] at h
    simp [ref, off] at h

/-- R100: the bit `PE` of the value written is the operand. -/
theorem bitAt_rmwValue_pe (w : Word) (en : Bool) : bitAt (rmwValue w peMask (maskIf en peMask)) posPe = en := by
  rw [bitAt_rmwValue, bitAt_maskIf, show bitAt peMask posPe = true by decide]
  simp

theorem enableBody_pe (en : Bool) (s : State) : RegValues.pe (enableBody en s).per.rb = en := by
  refine (regRmw_envOnly .cr1 peMask (maskIf en peMask) s).pe.trans ?_
  obtain ⟨_, rb⟩ := writeEffect_rb .cr1 (rmwValue s.per.rb.cr1 peMask (maskIf en peMask)) (readEffect .cr1 s.per)
  refine (congrArg RegValues.pe rb).trans ?_
  exact bitAt_rmwValue_pe s.per.rb.cr1 en

/-- Settles O27: the write stores, and tells ENV something only where it disables the reference one. -/
theorem setEnabledWritesPeOnly : Obligations.SetEnabledWritesPeOnly := by
  intro en s gate
  rw [← rmwValue_pe]
  refine ⟨respond false false (enableBody en s), whenClocked_of_gate _ gate, rfl, rfl, rfl, rfl, enableBody_acc s en,
    enableBody_pe en s, fun notDisabling => rmwCr1_envOnly_of_not_disabling ?_⟩
  rw [bitAt_rmwValue_pe]
  tauto

/-! ## HAS_FLAG -/

/-- Settles O30: a selector that names a flag is that flag's bit index; with any other the command is illegal. -/
theorem hasFlagAnswersTheBit : Obligations.HasFlagAnswersTheBit := by
  intro sel s
  rw [selectorNamed_iff]
  cases selected : Flag.ofSelector sel with
  | none =>
    refine ⟨fun named => absurd named Bool.false_ne_true, fun _ => ?_⟩
    simp only [exec, execHasFlag, selected]
    rfl
  | some f =>
    refine ⟨fun _ gate => ?_, fun reserved => absurd reserved (by simp)⟩
    rw [← pos_of_ofSelector selected]
    refine ⟨respondResult (setResult (bitAt s.per.rb.sr1 f.pos) (regRead .sr1 s).2), ?_, rfl, rfl, rfl, rfl, rfl,
      regRead_envOnly .sr1 s⟩
    simp only [exec, execHasFlag, selected]
    exact whenClocked_of_gate _ gate

/-! ## CLEAR_ADDR -/

/-- R143: with `ADDR` said to be 0 before, nothing is said of it after. -/
theorem envOnly_of_addr_cleared (p : Periph) : EnvOnly { p with rb := RegValues.setFlag p.rb .addr false } p :=
  { EnvOnly.refl p with addr := fun h => by simp at h }

/-- R45: drawing `SR2` and disarming on both sides, and clearing `ADDR` on both or neither. -/
theorem sr2Read_mono {p q : Periph} (h : EnvOnly p q) (clears : Bool) (v : Word) :
    EnvOnly { p with rb := { (if clears then RegValues.setFlag p.rb .addr false else p.rb) with sr2 := v }, clrArmed := false }
      { q with rb := { (if clears then RegValues.setFlag q.rb .addr false else q.rb) with sr2 := v }, clrArmed := false } := by
  cases clears with
  | false => exact { h with sr2 := rfl, armed := rfl }
  | true =>
    have off : RegValues.flag (RegValues.setFlag p.rb .addr false) .addr = false := by simp
    exact { h with sr2 := rfl, armed := rfl, addr := fun on => absurd (off.symm.trans on) Bool.false_ne_true }

/-- R35, R45, R108: the first read arms the second exactly when `ADDR` is latched. -/
theorem clearBody_envOnly (s : State) :
    EnvOnly { s.per with
      rb := { (if RegValues.flag s.per.rb .addr then RegValues.setFlag s.per.rb .addr false else s.per.rb) with
        sr2 := sr2Draw (regRead .sr1 s).2.per }
      clrArmed := false } (clearBody s).per := by
  have first : EnvOnly { s.per with clrArmed := RegValues.flag s.per.rb .addr } (regRead .sr1 s).2.per := regRead_envOnly .sr1 s
  have second := (sr2ReadEffect_envOnly (regRead .sr1 s).2.per).trans (regRead_envOnly .sr2 (regRead .sr1 s).2)
  rw [first.armed] at second
  exact (sr2Read_mono first _ _).trans second

/-- R108: with no address byte under way a latched `ADDR` is cleared, and stays so over ENV's turn after the second read. -/
theorem clearBody_addr {s : State} (quiet : addrUnderway s.per = false) (latched : RegValues.flag s.per.rb .addr = true) :
    RegValues.flag (clearBody s).per.rb .addr = false := by
  have armed : (regRead .sr1 s).2.per.clrArmed = true := (regRead_envOnly .sr1 s).armed.trans latched
  have stillQuiet : addrUnderway (regRead .sr1 s).2.per = false := (turn_addrQuiet _ (readEffect .sr1 s.per) quiet).1
  unfold clearBody
  rw [regRead_per]
  exact (turn_addrQuiet _ _ ((sr2ReadEffect_addrUnderway _).trans stillQuiet)).2 (sr2ReadEffect_addr armed)

/-- Settles O32: the two reads of the body, over a state with `ADDR` latched or not. -/
theorem clearAddrClearsTheLatch : Obligations.ClearAddrClearsTheLatch := by
  intro s gate
  have frame := clearBody_envOnly s
  refine ⟨respond false false (clearBody s), sr2Draw (regRead .sr1 s).2.per, whenClocked_of_gate _ gate, rfl, rfl, rfl, rfl,
    clearBody_acc s, fun scheduled => sr2Draw_of_isScheduled ((regRead_isScheduled .sr1 s).trans scheduled), frame.armed,
    clearBody_addr, ?unlatched, ?frame⟩
  case unlatched =>
    intro unlatched
    rw [unlatched] at frame
    exact frame
  case frame =>
    cases latched : RegValues.flag s.per.rb .addr <;> rw [latched] at frame
    · exact (envOnly_of_addr_cleared _).trans frame
    · exact frame

/-! ## INITIALIZE -/

/-- R44: a read-modify-write of `CR1` stores, over a `CR1` in which `START` and `STOP` may have fallen, what differs at most so. -/
theorem storeCr1_mono {p q : Periph} (h : EnvOnly p q) (clr set : Word) :
    EnvOnly { p with rb := { p.rb with cr1 := rmwValue p.rb.cr1 clr set }, clrArmed := false }
      { q with rb := { q.rb with cr1 := rmwValue q.rb.cr1 clr set }, clrArmed := false } := by
  have falls {n : Nat} (fell : bitAt q.rb.cr1 n = true → bitAt p.rb.cr1 n = true)
      (on : bitAt (rmwValue q.rb.cr1 clr set) n = true) : bitAt (rmwValue p.rb.cr1 clr set) n = true := by
    simp only [bitAt_rmwValue, Bool.or_eq_true, Bool.and_eq_true] at on ⊢
    exact on.imp_left (And.imp_left fell)
  refine { h with cr1Bits := fun n notStart notStop => ?_, start := falls h.start, stop := falls h.stop, armed := rfl }
  simp only [bitAt_rmwValue, h.cr1Bits n notStart notStop]

/-- R80: CONFIGURE's values written to two peripherals that differ at most by what ENV may change. -/
theorem configured_mono {p q : Periph} (h : EnvOnly p q) (c : Config) (pclk scl : Word) (duty : Duty) (addr : Addr7) (ack : Bool) :
    EnvOnly { p with rb := configured c pclk scl duty addr ack p.rb, clrArmed := false }
      { q with rb := configured c pclk scl duty addr ack q.rb, clrArmed := false } := by
  rw [configured_eq, configured_eq, h.cr2, h.ccr]
  exact { storeCr1_mono h ackMask (maskIf ack ackMask) with cr2 := rfl, oar1 := rfl, ccr := rfl, trise := rfl }

/-- The state of INITIALIZE after its first two steps (R110). -/
def initEnabled (s : State) : State := enableBody true (clockGateBody s)

theorem initBody_eq (addr : Addr7) (ack : Bool) (scl : Word) (duty : Duty) (s : State) :
    initBody addr ack scl duty s = configBody s.ports.pclkHz scl duty addr ack (initEnabled s) := rfl

/-- R100: the value written over the one read. -/
theorem enabled_cr1 (w : Word) : rmwValue w peMask (maskIf true peMask) = w ||| 0x0001#32 := rmwValue_own w peMask

/-- R100: enabling tells ENV nothing. -/
theorem enableBody_true_envOnly (s : State) :
    EnvOnly { s.per with rb := { s.per.rb with cr1 := s.per.rb.cr1 ||| 0x0001#32 }, clrArmed := false }
      (enableBody true s).per := by
  rw [← enabled_cr1]
  exact rmwCr1_envOnly_of_not_disabling (.inr (.inr (bitAt_rmwValue_pe s.per.rb.cr1 true)))

/-- R110: the gate and the enable, over the registers INITIALIZE found. -/
theorem initEnabled_envOnly (s : State) :
    EnvOnly { s.per with
      rb := { s.per.rb with
        clken := s.per.rb.clken ||| clkgateMask s.cfg
        cr1 := s.per.rb.cr1 ||| 0x0001#32 }
      clrArmed := false } (initEnabled s).per := by
  have stored := storeCr1_mono (clockGateBody_envOnly s) peMask (maskIf true peMask)
  rw [enabled_cr1, enabled_cr1] at stored
  exact stored.trans (enableBody_true_envOnly (clockGateBody s))

/-- R110: the registers of CONFIGURE over the gate and the enable, whatever ENV did in between. -/
theorem initBody_envOnly (addr : Addr7) (ack : Bool) (scl : Word) (duty : Duty) (s : State) :
    EnvOnly { s.per with
      rb := configured s.cfg s.ports.pclkHz scl duty addr ack
        { s.per.rb with
          clken := s.per.rb.clken ||| clkgateMask s.cfg
          cr1 := s.per.rb.cr1 ||| 0x0001#32 }
      clrArmed := false } (initBody addr ack scl duty s).per :=
  (configured_mono (initEnabled_envOnly s) s.cfg s.ports.pclkHz scl duty addr ack).trans
    (configBody_envOnly s.ports.pclkHz scl duty addr ack (initEnabled s))

theorem initBody_mtc (addr : Addr7) (ack : Bool) (scl : Word) (duty : Duty) (s : State) :
    (initBody addr ack scl duty s).mtc = { s.mtc with
      pclk := s.ports.pclkHz, hScl := scl, hDuty := duty, hAddr := addr, hAck := ack, hValid := true
      tmp := s.per.rb.ccr } := by
  rw [initBody_eq, configBody_mtc_eq, (initEnabled_envOnly s).ccr]
  rfl

/-- R110: the accesses of the three steps; what is left in the four registers after `CR1` is what was written there. -/
theorem initBody_acc (addr : Addr7) (ack : Bool) (scl : Word) (duty : Duty) (s : State) :
    (initBody addr ack scl duty s).acc = s.acc ++ ([
      .regRead s.cfg.clkenAddr s.per.rb.clken,
      .regWrite s.cfg.clkenAddr (s.per.rb.clken ||| clkgateMask s.cfg),
      .regRead (regAddr s.cfg .cr1) (clockGateBody s).per.rb.cr1,
      .regWrite (regAddr s.cfg .cr1) ((clockGateBody s).per.rb.cr1 ||| 0x0001#32),
      .regRead (regAddr s.cfg .cr1) (initEnabled s).per.rb.cr1,
      .regWrite (regAddr s.cfg .cr1) (((initEnabled s).per.rb.cr1 &&& ~~~0x0400#32) ||| (if ack then 0x0400#32 else 0#32)),
      .regRead (regAddr s.cfg .cr2) s.per.rb.cr2,
      .regWrite (regAddr s.cfg .cr2) (initBody addr ack scl duty s).per.rb.cr2,
      .regWrite (regAddr s.cfg .oar1) (initBody addr ack scl duty s).per.rb.oar1,
      .regRead (regAddr s.cfg .ccr) s.per.rb.ccr,
      .regWrite (regAddr s.cfg .ccr) (initBody addr ack scl duty s).per.rb.ccr,
      .regWrite (regAddr s.cfg .trise) (initBody addr ack scl duty s).per.rb.trise] : List Access) := by
  have enabled := initEnabled_envOnly s
  have written := configBody_envOnly s.ports.pclkHz scl duty addr ack (initEnabled s)
  rw [initBody_eq, written.cr2, written.oar1, written.ccr, written.trise, configBody_acc, enabled.cr2, enabled.ccr]
  unfold initEnabled
  rw [enableBody_acc, clockGateBody_accesses, enabled_cr1, List.append_assoc, List.append_assoc]
  rfl

/-- Settles O37: the gate, the enable and the body of CONFIGURE, one after another. -/
theorem initializeEnablesAndConfigures : Obligations.InitializeEnablesAndConfigures := by
  intro addr ack scl duty s
  refine ⟨respond false false (initBody addr ack scl duty s), rfl, ?cfg, ?buf, ?mtc, ?ports,
    ⟨(clockGateBody s).per.rb.cr1, (initEnabled s).per.rb.cr1, initBody_acc addr ack scl duty s,
      (clockGateBody_envOnly s).cr1Bits, (enableBody_true_envOnly (clockGateBody s)).cr1Bits⟩,
    initBody_envOnly addr ack scl duty s⟩
  case cfg => rw [respond_cfg, initBody_cfg]
  case buf => rw [respond_buf, initBody_buf]
  case mtc => rw [respond_mtc, initBody_mtc]
  case ports => rw [respond_ports, initBody_ports]

end Sys2Proof.EnableProofs

/-! Proofs of the statements about the master-transmit sequencer (42_master_transmit.md R115 to R135): MASTER_SEND and each
micro-step, then the trace of a completed send, then the hangs. -/

namespace Sys2Proof.TransmitProofs

open Sys2Proof.Machine Sys2Proof.Safety Sys2Proof.Laws Sys2Proof.StateProofs Sys2Proof.EncodingProofs

/-! ## MASTER_SEND and the micro-steps without an access -/

/-- Settles O39: the premises are the two ways of aliasing, denied. -/
theorem masterSendStartsTheSequencer : Obligations.MasterSendStartsTheSequencer := by
  intro addr ptr len s block clken
  have apart : ¬ bufferAliases s.cfg ptr len = true := by
    rw [bufferAliases_iff]
    rintro (⟨k, bound, inside⟩ | ⟨k, bound, inside⟩)
    · exact absurd (block k bound) (Nat.not_le.2 inside)
    · exact absurd (clken k bound) (Nat.not_le.2 inside)
  exact if_neg apart

/-- R158: its two schedulers move after accesses only. -/
theorem turn_internal_of_isScheduled {c : Config} {p : Periph} (h : Periph.isScheduled p = true) :
    Periph.turn c .internal p = p := by
  unfold Periph.isScheduled at h
  unfold Periph.turn
  split at h
  · rfl
  · rfl
  all_goals cases h

/-- Settles O41: both micro-steps are ENV's turn, and SEQ_LOOP_TEST a branch besides. -/
theorem stepsWithoutAccess : Obligations.StepsWithoutAccess := fun s =>
  ⟨⟨internalTurn s, rfl, rfl, internalTurn_envOnly s, turn_internal_of_isScheduled⟩,
    ⟨_, rfl, rfl, internalTurn_envOnly s, turn_internal_of_isScheduled⟩⟩

/-! ## The two requests -/

/-- R44: the accesses that set bits of `CR1` and write every other bit back as read. -/
theorem setCr1Bits_acc (m : Word) (s : State) : (regRmw .cr1 m m s).acc = s.acc ++
    [.regRead (regAddr s.cfg .cr1) s.per.rb.cr1, .regWrite (regAddr s.cfg .cr1) (s.per.rb.cr1 ||| m)] := by
  rw [← rmwValue_own]
  exact regRmw_acc .cr1 m m s

/-- R44, R46: with `PE` not among them, they are stored and the two-step clear is disarmed, and that is all. -/
theorem setCr1Bits_envOnly {m : Word} (notPe : bitAt m posPe = false) (s : State) :
    EnvOnly { s.per with rb := { s.per.rb with cr1 := s.per.rb.cr1 ||| m }, clrArmed := false } (regRmw .cr1 m m s).per := by
  rw [← rmwValue_own]
  exact rmwCr1_envOnly m m s notPe notPe

/-- Settles O42: `START` is the one bit set. -/
theorem startSetRequestsAStart : Obligations.StartSetRequestsAStart := fun s gate =>
  ⟨setUpc .u2 (regRmw .cr1 startMask startMask s), whenClocked_of_gate _ gate, rfl, rfl, rfl, rfl,
    setCr1Bits_acc startMask s, setCr1Bits_envOnly (by decide) s⟩

/-- Settles O43: `STOP` is the one bit set; the response and U0 come with the write. -/
theorem stopSetRequestsAStopAndResponds : Obligations.StopSetRequestsAStopAndResponds := fun s gate =>
  ⟨setUpc .u0 (respond false false (regRmw .cr1 stopMask stopMask s)), whenClocked_of_gate _ gate, rfl, rfl, rfl, rfl,
    setCr1Bits_acc stopMask s, setCr1Bits_envOnly (by decide) s⟩

/-! ## The five polls -/

/-- R119, R121, R125, R127, R128: where a poll stands, the flag it waits for, and where it goes on. -/
inductive PollsFor : Upc → Flag → Upc → Prop where
  | sb : PollsFor .u2 .sb .u3
  | addr : PollsFor .u4 .addr .u5
  | txe : PollsFor .u8 .txe .u9
  | drain : PollsFor .u10 .txe .u11
  | btf : PollsFor .u11 .btf .u12

theorem PollsFor.nextState_eq {here next : Upc} {f : Flag} (h : PollsFor here f next) (s : State) :
    nextState here.instr s = pollFlag f here next s := by
  cases h <;> rfl

theorem PollsFor.exec_eq {here next : Upc} {f : Flag} (h : PollsFor here f next) {s : State}
    (gate : RegValues.clkgate s.cfg s.per.rb = true) : exec here.instr s = .next (pollFlag f here next s) := by
  cases h <;> exact whenClocked_of_gate _ gate

/-- Settles O44: each of the five tuples is a poll. -/
theorem pollsTestOneBit : Obligations.PollsTestOneBit := by
  intro s i n here next gate listed
  have isPoll : ∃ f, PollsFor here f next ∧ i = here.instr ∧ n = f.pos := by
    simp only [List.mem_cons, Prod.mk.injEq, List.not_mem_nil, or_false] at listed
    obtain ⟨rfl, rfl, rfl, rfl⟩ | ⟨rfl, rfl, rfl, rfl⟩ | ⟨rfl, rfl, rfl, rfl⟩ | ⟨rfl, rfl, rfl, rfl⟩ | ⟨rfl, rfl, rfl, rfl⟩ :=
      listed
    · exact ⟨.sb, .sb, rfl, rfl⟩
    · exact ⟨.addr, .addr, rfl, rfl⟩
    · exact ⟨.txe, .txe, rfl, rfl⟩
    · exact ⟨.txe, .drain, rfl, rfl⟩
    · exact ⟨.btf, .btf, rfl, rfl⟩
  obtain ⟨f, poll, rfl, rfl⟩ := isPoll
  exact ⟨pollFlag f here next s, poll.exec_eq gate, rfl, rfl, rfl, rfl, rfl, regRead_envOnly .sr1 s⟩

/-! ## The two writes of `DR` -/

/-- R144, R150, X6: the states in which a rule gives the effect of a `DR` write. -/
theorem drWriteDescribed_iff (p : Periph) : Periph.drWriteDescribed p = true ↔ Periph.isRef p = true
    ∨ (p.env.phase = .started ∧ p.env.holdValid = false)
    ∨ ((p.env.phase = .data ∨ p.env.phase = .addrSent) ∧ RegValues.flag p.rb .txe = true) := by
  simp [Periph.drWriteDescribed, or_assoc]

/-- Settles O45: the premise is that a rule gives the write's effect. -/
theorem addrWriteSendsTheAddressByte : Obligations.AddrWriteSendsTheAddressByte := by
  intro s gate described
  rw [← drWriteDescribed_iff] at described
  rw [← addrByte_eq]
  exact ⟨setUpc .u4 (regWrite .dr ((addrByte s.mtc.tAddr).setWidth 32) s),
    (whenClocked_of_gate _ gate).trans (drWriteThen_of_described _ described), rfl, rfl, rfl, rfl, rfl, regWriteDr_envOnly _ s⟩

/-- R126: the two accesses for one buffer byte. -/
def byteAccesses (c : Config) (a : Word) (b : Byte) : List Access := [.bufRead a b, .regWrite (regAddr c .dr) (b.setWidth 32)]

/-- R47, R126: a buffer read and the write of its byte to `DR`. -/
theorem copyByte_acc (a : Word) (s : State) : (regWrite .dr ((bufRead a s).1.setWidth 32) (bufRead a s).2).acc =
    s.acc ++ byteAccesses s.cfg a (Memory.read s.buf a.toNat) := by
  rw [regWrite_acc, bufRead_acc, List.append_assoc]
  rfl

theorem copyByte_envOnly (a v : Word) (s : State) :
    EnvOnly { s.per with clrArmed := false } (regWrite .dr v (bufRead a s).2).per :=
  (disarm_envOnly (bufRead_envOnly a s)).trans (regWriteDr_envOnly v _)

/-- Settles O46: ENV's turn between the two accesses leaves it the reference one if it was. -/
theorem dataWriteSendsTheNextByte : Obligations.DataWriteSendsTheNextByte := by
  intro s gate premise
  have described : Periph.drWriteDescribed (bufRead (bufferAddr s.mtc) s).2.per = true := by
    obtain ref | described := premise
    · exact drWriteDescribed_of_isRef ((bufRead_isRef _ s).trans ref)
    · exact described
  rw [BitVec.ofNat_toNat]
  exact ⟨nextState .seqDataWrite s, (whenClocked_of_gate _ gate).trans (drWriteThen_of_described _ described),
    rfl, rfl, rfl, rfl, copyByte_acc _ s, copyByte_envOnly _ _ s⟩

/-! ## The clearing reads -/

/-- Settles O48: what the two reads do and what ENV's turn after them may change. -/
theorem clearingReadsOfTheSequencer : Obligations.ClearingReadsOfTheSequencer := by
  intro s gate
  refine ⟨⟨setUpc .u6 (regRead .sr1 s).2, whenClocked_of_gate _ gate, rfl, rfl, rfl, rfl, rfl, regRead_envOnly .sr1 s⟩,
    setUpc .u7 (regRead .sr2 s).2, sr2Draw s.per, whenClocked_of_gate _ gate, rfl, rfl, rfl, rfl, rfl,
    sr2Draw_of_isScheduled, ?cleared, (sr2ReadEffect_envOnly s.per).trans (regRead_envOnly .sr2 s)⟩
  intro armed quiet
  exact (turn_addrQuiet _ _ ((sr2ReadEffect_addrUnderway s.per).trans quiet)).2 (sr2ReadEffect_addr armed)

/-! ## The accesses of a send, micro-step by micro-step -/

/-- R118, R120, R122 to R124, R126, R129: a micro-step that is no poll, from a value of `UPC` and of `IDX` to the next, with the
accesses it makes for a send of `mem`'s bytes. -/
inductive MicroStep (c : Config) (mem : Memory) (addr : Addr7) (ptr len : Word) :
    Upc → Word → List Access → Upc → Word → Prop where
  | startSet {idx : Word} (old : Word) : MicroStep c mem addr ptr len .u1 idx
      [.regRead (regAddr c .cr1) old, .regWrite (regAddr c .cr1) (old ||| startMask)] .u2 idx
  | addrWrite {idx : Word} : MicroStep c mem addr ptr len .u3 idx
      [.regWrite (regAddr c .dr) ((addrByte addr).setWidth 32)] .u4 idx
  | clrSr1 {idx : Word} (v : Word) (latched : bitAt v Flag.addr.pos = true) :
    MicroStep c mem addr ptr len .u5 idx [sr1Read c v] .u6 idx
  | clrSr2 {idx : Word} (v : Word) : MicroStep c mem addr ptr len .u6 idx [.regRead (regAddr c .sr2) v] .u7 idx
  | loopOn {idx : Word} (more : idx.toNat < len.toNat) : MicroStep c mem addr ptr len .u7 idx [] .u8 idx
  | loopEnd {idx : Word} (all : ¬ idx.toNat < len.toNat) : MicroStep c mem addr ptr len .u7 idx [] .u10 idx
  | dataWrite {idx : Word} : MicroStep c mem addr ptr len .u9 idx
      (byteAccesses c (ptr + idx) (Memory.read mem (ptr + idx).toNat)) .u7 (idx + 1)
  | stopSet {idx : Word} (old : Word) : MicroStep c mem addr ptr len .u12 idx
      [.regRead (regAddr c .cr1) old, .regWrite (regAddr c .cr1) (old ||| stopMask)] .u0 idx

/-- The accesses that a send still makes from a micro-step on, when it runs to completion. -/
inductive Rest (c : Config) (mem : Memory) (addr : Addr7) (ptr len : Word) : Upc → Word → List Access → Prop where
  | done {idx : Word} : Rest c mem addr ptr len .u0 idx []
  | micro {u u' : Upc} {idx idx' : Word} {d l : List Access} (one : MicroStep c mem addr ptr len u idx d u' idx')
    (rest : Rest c mem addr ptr len u' idx' l) : Rest c mem addr ptr len u idx (d ++ l)
  | pollAgain {here next : Upc} {f : Flag} {idx v : Word} {l : List Access} (poll : PollsFor here f next)
    (low : bitAt v f.pos = false) (rest : Rest c mem addr ptr len here idx l) :
    Rest c mem addr ptr len here idx ([sr1Read c v] ++ l)
  | pollDone {here next : Upc} {f : Flag} {idx v : Word} {l : List Access} (poll : PollsFor here f next)
    (high : bitAt v f.pos = true) (rest : Rest c mem addr ptr len next idx l) :
    Rest c mem addr ptr len here idx ([sr1Read c v] ++ l)

/-- The accesses that the send in execution still makes. -/
def restOf (s : State) (l : List Access) : Prop := Rest s.cfg s.buf s.mtc.tAddr s.mtc.tPtr s.mtc.tLen s.mtc.upc s.mtc.idx l

theorem pollFlag_rest {here next : Upc} {f : Flag} (poll : PollsFor here f next) {s : State} (upc : s.mtc.upc = here)
    {l : List Access} (rest : restOf (pollFlag f here next s) l) : restOf s ([sr1Read s.cfg s.per.rb.sr1] ++ l) := by
  unfold restOf at rest ⊢
  rw [upc]
  rw [pollFlag_mtc] at rest
  cases flag : bitAt s.per.rb.sr1 f.pos <;> rw [flag] at rest
  · exact .pollAgain poll flag rest
  · exact .pollDone poll flag rest

/-- Each micro-step makes its accesses and leaves the rest. -/
theorem nextState_rest {s : State} (latched : s.mtc.upc = .u5 → RegValues.flag s.per.rb .addr = true) {l : List Access}
    (rest : restOf (nextState s.mtc.upc.instr s) l) :
    ∃ d, (nextState s.mtc.upc.instr s).acc = s.acc ++ d ∧ restOf s (d ++ l) := by
  have polled : ∀ {here next : Upc} {f : Flag}, PollsFor here f next → s.mtc.upc = here →
      restOf (pollFlag f here next s) l →
      ∃ d, (pollFlag f here next s).acc = s.acc ++ d ∧ restOf s (d ++ l) := fun poll upc rest =>
    ⟨_, pollFlag_acc s _ _ _, pollFlag_rest poll upc rest⟩
  cases upc : s.mtc.upc <;> rw [upc] at rest latched
  case u2 => exact polled .sb upc rest
  case u4 => exact polled .addr upc rest
  case u8 => exact polled .txe upc rest
  case u10 => exact polled .drain upc rest
  case u11 => exact polled .btf upc rest
  all_goals unfold restOf at rest ⊢; rw [upc]
  case u0 => exact ⟨[], (List.append_nil _).symm, upc ▸ rest⟩
  case u1 => exact ⟨_, setCr1Bits_acc startMask s, .micro (.startSet _) rest⟩
  case u3 => exact ⟨_, regWrite_acc _ _ s, .micro .addrWrite rest⟩
  case u5 => exact ⟨_, regRead_acc .sr1 s, .micro (.clrSr1 _ (latched rfl)) rest⟩
  case u6 => exact ⟨_, regRead_acc .sr2 s, .micro (.clrSr2 _) rest⟩
  case u7 =>
    refine ⟨[], (List.append_nil _).symm, ?_⟩
    simp only [Upc.instr, nextState, setUpc_mtc] at rest
    split at rest
    · next more => exact .micro (.loopOn more) rest
    · next all => exact .micro (.loopEnd all) rest
  case u9 => exact ⟨_, copyByte_acc _ s, .micro .dataWrite rest⟩
  case u12 => exact ⟨_, setCr1Bits_acc stopMask s, .micro (.stopSet _) rest⟩

/-! ## The rest of a send in the form of R132 -/

theorem PollsFor.unique {here next next' : Upc} {f g : Flag} (h : PollsFor here f next) (k : PollsFor here g next') :
    g = f ∧ next' = next := by
  cases h <;> cases k <;> exact ⟨rfl, rfl⟩

theorem pollTrace_last {c : Config} {f : Flag} {v : Word} (high : bitAt v f.pos = true) : pollTrace c f [sr1Read c v] :=
  ⟨[], v, by simp, high, rfl⟩

theorem pollTrace_cons {c : Config} {f : Flag} {v : Word} {l : List Access} (low : bitAt v f.pos = false)
    (h : pollTrace c f l) : pollTrace c f (sr1Read c v :: l) := by
  obtain ⟨vs, w, lows, high, rfl⟩ := h
  exact ⟨v :: vs, w, by simpa using ⟨low, lows⟩, high, rfl⟩

namespace Rest
variable {c : Config} {mem : Memory} {addr : Addr7} {ptr len idx : Word} {l : List Access}

/-- At U0 the send is over. -/
theorem nil_of_done (h : Rest c mem addr ptr len .u0 idx l) : l = [] := by
  cases h with
  | done => rfl
  | micro one => cases one
  | pollAgain poll | pollDone poll => cases poll

/-- At a micro-step that is no poll, its accesses come first. -/
theorem inv {u : Upc} (h : Rest c mem addr ptr len u idx l) (busy : u ≠ .u0) (single : ∀ f v, ¬ PollsFor u f v) :
    ∃ u' idx' d r, MicroStep c mem addr ptr len u idx d u' idx' ∧ Rest c mem addr ptr len u' idx' r ∧ l = d ++ r := by
  cases h with
  | done => exact absurd rfl busy
  | micro one rest => exact ⟨_, _, _, _, one, rest, rfl⟩
  | pollAgain poll | pollDone poll => exact absurd poll (single _ _)

/-- R134: what is left at a poll is reads of `SR1` up to the first with the flag's bit 1, then what is left after it. -/
theorem inv_poll {here next : Upc} {f : Flag} (h : Rest c mem addr ptr len here idx l) (poll : PollsFor here f next) :
    ∃ a r, pollTrace c f a ∧ Rest c mem addr ptr len next idx r ∧ l = a ++ r := by
  induction h with
  | pollAgain poll' low _ ih =>
    obtain ⟨rfl, -⟩ := poll.unique poll'
    obtain ⟨a, r, trace, rest, rfl⟩ := ih poll
    exact ⟨_, r, pollTrace_cons low trace, rest, rfl⟩
  | pollDone poll' high rest =>
    obtain ⟨rfl, rfl⟩ := poll.unique poll'
    exact ⟨_, _, pollTrace_last high, rest, rfl⟩
  | done => cases poll
  | micro one => cases one <;> cases poll

/-- R127 to R129: after the last byte, two polls and the stop request. -/
theorem afterBytes (h : Rest c mem addr ptr len .u10 idx l) :
    ∃ (old : Word) (pTxe pBtf : List Access), pollTrace c .txe pTxe ∧ pollTrace c .btf pBtf ∧ l = pTxe ++ (pBtf
      ++ [.regRead (regAddr c .cr1) old, .regWrite (regAddr c .cr1) (old ||| stopMask)]) := by
  obtain ⟨pTxe, _, txe, h11, rfl⟩ := h.inv_poll .drain
  obtain ⟨pBtf, _, btf, h12, rfl⟩ := h11.inv_poll .btf
  have ⟨_, _, _, _, .stopSet old, h0, e⟩ := h12.inv (by decide) nofun
  exact ⟨old, pTxe, pBtf, txe, btf, by rw [e, h0.nil_of_done]; rfl⟩

/-- R124 to R126: the loop makes, for each byte that is left, a poll and the byte's two accesses. -/
theorem bytes (n : Nat) (left : len.toNat - idx.toNat = n) (h : Rest c mem addr ptr len .u7 idx l) :
    ∃ idx' body r, bytesTrace c (ptr + idx) (bufferBytes mem (ptr + idx) n) body ∧ Rest c mem addr ptr len .u10 idx' r
      ∧ l = body ++ r := by
  induction n generalizing idx l with
  | zero =>
    obtain ⟨_, _, _, _, one, h10, rfl⟩ := h.inv (by decide) nofun
    cases one with
    | loopOn more => omega
    | loopEnd => exact ⟨idx, [], _, rfl, h10, rfl⟩
  | succ n ih =>
    obtain ⟨_, _, _, _, one, h8, rfl⟩ := h.inv (by decide) nofun
    cases one with
    | loopEnd all => omega
    | loopOn more =>
      obtain ⟨p, _, txe, h9, rfl⟩ := h8.inv_poll .txe
      have ⟨_, _, _, _, .dataWrite, h7, e⟩ := h9.inv (by decide) nofun
      obtain ⟨idx', body, r, trace, h10, rfl⟩ := ih (by bv_omega) h7
      rw [← BitVec.add_assoc] at trace
      exact ⟨idx', _, r, ⟨p, body, txe, trace, rfl⟩, h10, by simp [e, byteAccesses]⟩

/-- R132: the whole send. -/
theorem send (h : Rest c mem addr ptr len .u1 0 l) : sendTrace c addr ptr (bufferBytes mem ptr len.toNat) l := by
  have ⟨_, _, _, _, .startSet old, h2, e1⟩ := h.inv (by decide) nofun
  obtain ⟨pSb, _, sb, h3, rfl⟩ := h2.inv_poll .sb
  have ⟨_, _, _, _, .addrWrite, h4, e3⟩ := h3.inv (by decide) nofun
  obtain ⟨pAddr, _, acked, h5, rfl⟩ := h4.inv_poll .addr
  have ⟨_, _, _, _, .clrSr1 v latched, h6, e5⟩ := h5.inv (by decide) nofun
  have ⟨_, _, _, _, .clrSr2 d, h7, e6⟩ := h6.inv (by decide) nofun
  obtain ⟨_, body, _, bytes, h10, rfl⟩ := h7.bytes len.toNat rfl
  obtain ⟨old', pTxe, pBtf, txe, btf, rfl⟩ := h10.afterBytes
  rw [show ptr + 0 = ptr from BitVec.add_zero ptr] at bytes
  refine ⟨old, old', v, d, pSb, pAddr, body, pTxe, pBtf, sb, acked, bytes, txe, btf, latched, ?_⟩
  rw [e1, e3, e5, e6]
  simp only [List.append_assoc]
  rfl

end Rest

/-! ## A run of micro-steps -/

section Run
variable {M : Host.Core} {n : Nat} {s t u : M.State}

theorem run_of_step (e : M.step s = .next u) : M.run (n + 1) s = M.run n u := by
  rw [Host.Core.run, e]

theorem run_succ_next (e : M.run (n + 1) s = .next t) : ∃ u, M.step s = .next u ∧ M.run n u = .next t := by
  rw [Host.Core.run] at e
  split at e
  · next u stepped => exact ⟨u, stepped, e⟩
  all_goals cases e

end Run

/-- With no host move to come, a step runs what `fetch` finds. -/
theorem step_of_no_host {s : State} (wf : s.cfg.wf = true) (host : s.ports.host = []) : step s = runWork (fetch s) := by
  have still : hostTurn s = s := by unfold hostTurn; rw [host]
  rw [step_eq_runWork wf (by unfold rstAsserted; rw [host]), still]

/-- A step of a busy MTC is then the micro-step at `UPC`. -/
theorem step_of_busy {s : State} (wf : s.cfg.wf = true) (host : s.ports.host = []) (busy : s.mtc.busy = true) :
    step s = exec s.mtc.upc.instr s := by
  rw [step_of_no_host wf host, fetch_of_busy busy]
  rfl

/-- A state between two micro-steps of a send that nobody disturbs, or after it: `ADDR` is latched before the first clearing
read. -/
structure Undisturbed (s : State) : Prop where
  wf : s.cfg.wf = true
  host : s.ports.host = []
  offered : s.ports.offered = []
  idle : s.mtc.busy = false → s.mtc.upc = .u0
  latched : s.mtc.upc = .u5 → RegValues.flag s.per.rb .addr = true

namespace Undisturbed
variable {s : State}

theorem step_eq (h : Undisturbed s) : step s = exec s.mtc.upc.instr s := by
  cases busy : s.mtc.busy with
  | true => exact step_of_busy h.wf h.host busy
  | false =>
    rw [step_of_no_host h.wf h.host, fetch_of_none_offered busy h.offered, h.idle busy]
    rfl

/-- A poll for another flag than `ADDR` does not lead to the clearing reads, and the one for `ADDR` only over a latched one. -/
theorem poll {here next : Upc} {f : Flag} (h : Undisturbed s) (poll : PollsFor here f next) (busy : s.mtc.busy = true) :
    Undisturbed (pollFlag f here next s) := by
  refine ⟨h.wf, h.host, h.offered, fun idle => absurd (busy.symm.trans idle) (by decide), fun at_ => ?_⟩
  have kept : RegValues.flag s.per.rb .addr = true → RegValues.flag (pollFlag f here next s).per.rb .addr = true :=
    (regRead_envOnly .sr1 s).addr
  rw [pollFlag_mtc] at at_
  dsimp only at at_
  split at at_
  · next high =>
      cases poll <;> cases at_
      exact kept high
  · cases poll <;> cases at_

/-- The micro-steps of a send offer no command, end it at U0 alone, and reach the clearing reads by the poll for `ADDR` alone. -/
theorem next (h : Undisturbed s) : Undisturbed (nextState s.mtc.upc.instr s) := by
  have goesTo : ∀ (u : Upc) (t : State), t.cfg = s.cfg → t.ports.host = s.ports.host → t.ports.offered = s.ports.offered →
      t.mtc.upc = u → t.mtc.busy = true ∨ u = .u0 → u ≠ .u5 → Undisturbed t := by
    rintro _ t cfg host offered rfl ends notU5
    exact ⟨cfg ▸ h.wf, host.trans h.host, offered.trans h.offered, fun idle => ends.resolve_left (by simp [idle]),
      fun at_ => absurd at_ notU5⟩
  by_cases idle : s.mtc.upc = .u0
  · rw [idle]
    exact goesTo .u0 _ rfl rfl rfl idle (.inr rfl) (by decide)
  have busy : s.mtc.busy = true := (Bool.not_eq_false _).mp (mt h.idle idle)
  cases upc : s.mtc.upc
  case u0 => exact absurd upc idle
  case u1 => exact goesTo .u2 _ rfl rfl rfl rfl (.inl busy) (by decide)
  case u2 => exact h.poll .sb busy
  case u3 => exact goesTo .u4 _ rfl rfl rfl rfl (.inl busy) (by decide)
  case u4 => exact h.poll .addr busy
  case u5 => exact goesTo .u6 _ rfl rfl rfl rfl (.inl busy) (by decide)
  case u6 => exact goesTo .u7 _ rfl rfl rfl rfl (.inl busy) (by decide)
  case u7 =>
    exact goesTo (if s.mtc.idx.toNat < s.mtc.tLen.toNat then .u8 else .u10) _ rfl rfl rfl rfl (.inl busy)
      (by split <;> decide)
  case u8 => exact h.poll .txe busy
  case u9 => exact goesTo .u7 _ rfl rfl rfl rfl (.inl busy) (by decide)
  case u10 => exact h.poll .drain busy
  case u11 => exact h.poll .btf busy
  case u12 => exact goesTo .u0 _ rfl rfl rfl rfl (.inr rfl) (by decide)

end Undisturbed

/-- A run to completion makes the accesses that were left. -/
theorem run_rest {n : Nat} {s t : State} (h : Undisturbed s) (e : Host.Core.run core n s = .next t)
    (ended : t.mtc.busy = false) : ∃ l, t.acc = s.acc ++ l ∧ restOf s l := by
  induction n generalizing s with
  | zero =>
    obtain rfl := Host.Outcome.next.inj e
    refine ⟨[], (List.append_nil _).symm, ?_⟩
    unfold restOf
    rw [h.idle ended]
    exact .done
  | succ n ih =>
    obtain ⟨u, stepped, run⟩ := run_succ_next e
    obtain rfl : u = nextState s.mtc.upc.instr s := exec_next (h.step_eq.symm.trans stepped)
    obtain ⟨l, acc, rest⟩ := ih h.next run
    obtain ⟨d, first, rest⟩ := nextState_rest h.latched rest
    exact ⟨d ++ l, by rw [acc, first, List.append_assoc], rest⟩

/-- Settles O57: MASTER_SEND leaves a whole send, and the run makes it. -/
theorem completedSendHasTheSpecTrace : Obligations.CompletedSendHasTheSpecTrace := by
  intro s s1 t addr ptr len n wf host offered busy accepted run ended
  obtain rfl := exec_next accepted
  have start : Undisturbed (nextState (.masterSend addr ptr len) s) :=
    ⟨wf, host, offered, fun idle => absurd (busy.symm.trans idle) (by decide), fun at_ => by cases at_⟩
  obtain ⟨l, acc, rest⟩ := run_rest start run ended
  exact ⟨l, acc, rest.send⟩

/-! ## Hangs -/

/-- A busy MTC that stands, clocked and undisturbed, at a poll for the flag `f`. -/
structure AtPoll (f : Flag) (s : State) : Prop where
  wf : s.cfg.wf = true
  host : s.ports.host = []
  busy : s.mtc.busy = true
  gate : RegValues.clkgate s.cfg s.per.rb = true
  poll : ∃ next, PollsFor s.mtc.upc f next

namespace AtPoll
variable {f : Flag} {s : State}

/-- R134: over a flag that is 0 a step is one more read of `SR1` and no more. -/
theorem step_eq (h : AtPoll f s) (low : RegValues.flag s.per.rb f = false) : step s = .next (regRead .sr1 s).2 := by
  obtain ⟨next, poll⟩ := h.poll
  rw [step_of_busy h.wf h.host h.busy, poll.exec_eq h.gate]
  unfold pollFlag setUpc
  rw [regRead_value, show bitAt (readValue .sr1 s.per) f.pos = false from low]
  rfl

theorem next (h : AtPoll f s) : AtPoll f (regRead .sr1 s).2 :=
  ⟨h.wf, h.host, h.busy, ((regRead_envOnly .sr1 s).clkgate s.cfg).trans h.gate, h.poll⟩

/-- R134, R164: as long as the flag is 0, each step is one more read that shows it so. -/
theorem run_low {n : Nat} (h : AtPoll f s)
    (low : ∀ k u, k < n → Host.Core.run core k s = .next u → RegValues.flag u.per.rb f = false) :
    ∃ (t : State) (vs : List Word), Host.Core.run core n s = .next t ∧ t.mtc = s.mtc ∧ t.ports = s.ports
      ∧ vs.length = n ∧ (∀ v ∈ vs, bitAt v f.pos = false) ∧ t.acc = s.acc ++ vs.map (sr1Read s.cfg) := by
  induction n generalizing s with
  | zero => exact ⟨s, [], rfl, rfl, rfl, rfl, by simp, by simp⟩
  | succ n ih =>
    have now : RegValues.flag s.per.rb f = false := low 0 s (Nat.succ_pos n) rfl
    have stepped := h.step_eq now
    obtain ⟨t, vs, run, mtc, ports, length, lows, acc⟩ := ih h.next fun k u bound run =>
      low (k + 1) u (Nat.succ_lt_succ bound) ((run_of_step (M := core) stepped).trans run)
    refine ⟨t, s.per.rb.sr1 :: vs, (run_of_step (M := core) stepped).trans run, mtc, ports, by simp [length],
      List.forall_mem_cons.2 ⟨now, lows⟩, ?_⟩
    rw [acc, regRead_acc, List.append_assoc]
    rfl

end AtPoll

/-- ENV will not move again before MTC does more than read (R146, R148, R151, R156): it is silent, or the reference one and
disabled, or stuck after a byte that was not acknowledged. -/
def Stuck (p : Periph) : Prop :=
  silent p = true ∨ (Periph.isRef p = true
    ∧ (RegValues.pe p.rb = false ∨ (p.env.phase = .nacked ∧ RegValues.stop p.rb = false)))

/-- A turn of an ENV that is stuck changes nothing but what is left of its schedule, and it stays stuck. -/
theorem Stuck.turn {p : Periph} (h : Stuck p) (c : Config) (w : Periph.TurnPoint) :
    ∃ sc, Periph.turn c w p = Periph.reschedule sc p ∧ Stuck (Periph.reschedule sc p) := by
  obtain quiet | ⟨ref, off⟩ := h
  · exact ⟨p.env.sched, turn_silent w p quiet, .inl quiet⟩
  have disabled : ∀ m, Periph.stepEnabled c p m = false := by
    intro m
    obtain pe | ⟨phase, stop⟩ := off
    · simp [Periph.stepEnabled, Periph.envEnabled, pe]
    · cases m <;> simp [Periph.stepEnabled, phase, stop]
  obtain ⟨sc, turned, -⟩ := turn_quiet w p ref disabled
  refine ⟨sc, turned, .inr ⟨?_, off⟩⟩
  rw [← turned, turn_isRef, ref]

/-- At a poll such an ENV leaves every register as it is, for ever. -/
theorem AtPoll.run_stuck {f : Flag} (n : Nat) {s : State} (h : AtPoll f s) (stuck : Stuck s.per)
    (low : RegValues.flag s.per.rb f = false) :
    ∃ t, Host.Core.run core n s = .next t ∧ t.mtc = s.mtc ∧ t.ports = s.ports ∧ t.per.rb = s.per.rb
      ∧ t.per.env = { s.per.env with sched := t.per.env.sched }
      ∧ t.acc = s.acc ++ List.replicate n (sr1Read s.cfg s.per.rb.sr1) := by
  induction n generalizing s with
  | zero => exact ⟨s, rfl, rfl, rfl, rfl, rfl, by simp⟩
  | succ n ih =>
    have stepped := h.step_eq low
    obtain ⟨sc, turned, stuck'⟩ := Stuck.turn (p := readEffect .sr1 s.per) stuck s.cfg _
    have per := (regRead_per .sr1 s).trans turned
    obtain ⟨t, run, mtc, ports, rb, env, acc⟩ := ih h.next (per ▸ stuck') (per ▸ low)
    refine ⟨t, (run_of_step (M := core) stepped).trans run, mtc, ports, ?rb, ?env, ?acc⟩
    case rb =>
      rw [rb, per]
      rfl
    case env =>
      rw [env, per]
      rfl
    case acc =>
      rw [acc, regRead_acc, per, List.append_assoc]
      rfl

/-- Settles O59: any ENV as long as the flag is 0, and for ever one that is stuck. -/
theorem hangIsAnInfiniteExecution : Obligations.HangIsAnInfiniteExecution := by
  intro s f n wf host busy gate listed
  have poll : ∃ next, PollsFor s.mtc.upc f next := by
    generalize s.mtc.upc = upc at listed ⊢
    simp only [List.mem_cons, Prod.mk.injEq, List.not_mem_nil, or_false] at listed
    obtain ⟨rfl, rfl⟩ | ⟨rfl, rfl⟩ | ⟨rfl, rfl⟩ | ⟨rfl, rfl⟩ | ⟨rfl, rfl⟩ := listed
    · exact ⟨_, .sb⟩
    · exact ⟨_, .addr⟩
    · exact ⟨_, .txe⟩
    · exact ⟨_, .drain⟩
    · exact ⟨_, .btf⟩
  have hangs : AtPoll f s := ⟨wf, host, busy, gate, poll⟩
  exact ⟨hangs.run_low, hangs.run_stuck n⟩

end Sys2Proof.TransmitProofs

/-! Proofs of the statements about the environment (43_peripheral_environment.md). The steps of the reference ENV come first: when
each is enabled, which one R158 picks, what it does. Then the moves of part 1, the hooks, and what MTC may change. -/

namespace Sys2Proof.EnvProofs

open Sys2Proof.Machine Sys2Proof.Safety Sys2Proof.Laws Sys2Proof.StateProofs Sys2Proof.EncodingProofs Sys2Proof.EnableProofs
  Sys2Proof.ConfiguratorProofs Sys2Proof.TransmitProofs

section Steps
variable {c : Config} {p q : Periph} {m : EnvStep}

/-! ## When a step of the reference ENV is enabled -/

theorem envEnabled_iff : Periph.envEnabled c p = true ↔ RegValues.clkgate c p.rb = true ∧ RegValues.pe p.rb = true := by
  simp [Periph.envEnabled]

theorem stepEnabled_start_iff : Periph.stepEnabled c p .start = true ↔
    Periph.envEnabled c p = true ∧ RegValues.start p.rb = true ∧ p.env.phase = .idle := by
  simp [Periph.stepEnabled]

theorem stepEnabled_addr_iff {a : Bool} : Periph.stepEnabled c p (.addr a) = true ↔
    Periph.envEnabled c p = true ∧ p.env.phase = .started ∧ p.env.holdValid = true := by
  simp [Periph.stepEnabled]

theorem stepEnabled_drained_iff : Periph.stepEnabled c p .drained = true ↔ Periph.envEnabled c p = true
    ∧ p.env.phase = .data ∧ p.env.holdValid = false ∧ p.env.shiftValid = false ∧ RegValues.flag p.rb .btf = false := by
  simp [Periph.stepEnabled, and_assoc]

theorem stepEnabled_load_iff : Periph.stepEnabled c p .load = true ↔
    Periph.envEnabled c p = true ∧ p.env.phase = .data ∧ p.env.holdValid = true ∧ p.env.shiftValid = false := by
  simp [Periph.stepEnabled, and_assoc]

theorem stepEnabled_stop_iff : Periph.stepEnabled c p .stop = true ↔
    Periph.envEnabled c p = true ∧ RegValues.stop p.rb = true := by
  simp [Periph.stepEnabled]

theorem stepEnabled_shiftDone_iff {a : Bool} : Periph.stepEnabled c p (.shiftDone a) = true ↔
    Periph.envEnabled c p = true ∧ p.env.phase = .data ∧ p.env.shiftValid = true := by
  simp [Periph.stepEnabled]

/-- R148: every step asks for an enabled ENV. -/
theorem envEnabled_of_stepEnabled (h : Periph.stepEnabled c p m = true) : Periph.envEnabled c p = true :=
  (Bool.and_eq_true_iff.1 h).1

theorem envStep_of_enabled (h : Periph.stepEnabled c p m = true) : Periph.envStep c m p = Periph.takeStep m p := if_pos h

theorem envStep_of_not_enabled (h : Periph.stepEnabled c p m = false) : Periph.envStep c m p = p :=
  if_neg (by rw [h]; exact Bool.false_ne_true)

/-! ## The draws -/

/-- The peripheral with other acknowledge draws to come. -/
def withAcks (acks : List Bool) (p : Periph) : Periph := { p with env := { p.env with acks := acks } }

theorem takeStep_withAcks (m : EnvStep) (acks : List Bool) (p : Periph) :
    Periph.takeStep m (withAcks acks p) = withAcks acks (Periph.takeStep m p) := by
  cases m <;> rfl

theorem takeStep_acks (m : EnvStep) (p : Periph) : (Periph.takeStep m p).env.acks = p.env.acks := by
  cases m <;> rfl

theorem ackDraw_eq (p : Periph) : Periph.ackDraw p = p.env.acks.headD true := by
  unfold Periph.ackDraw
  cases p.env.acks <;> rfl

/-- The step that R158 picks is an enabled one, but for the draws left. -/
theorem refStep_takes (h : Periph.refStep c p = some q) :
    ∃ m acks, Periph.stepEnabled c p m = true ∧ q = withAcks acks (Periph.takeStep m p) := by
  obtain ⟨m, -, enabled, rfl, -⟩ := refStep_cases h
  obtain ⟨acks, drawn⟩ := drawFor_eq m p
  exact ⟨m, acks, enabled, by rw [drawn]; exact takeStep_withAcks m acks p⟩

/-- A step of the reference ENV, picked by R158 or by any other schedule, is nothing or an enabled step, but for the draws left. -/
theorem refEnvStep_cases (h : Periph.refStep c p = some q ∨ ∃ m, q = Periph.envStep c m p) :
    q = p ∨ ∃ m acks, Periph.stepEnabled c p m = true ∧ q = withAcks acks (Periph.takeStep m p) := by
  obtain picked | ⟨m, rfl⟩ := h
  · exact .inr (refStep_takes picked)
  · cases enabled : Periph.stepEnabled c p m with
    | false => exact .inl (envStep_of_not_enabled enabled)
    | true => exact .inr ⟨m, p.env.acks, enabled, (envStep_of_enabled enabled).trans (by rw [← takeStep_acks m p]; rfl)⟩

/-! ## The step that R158 picks -/

/-- The one step that the phase and the slots leave to be taken while `STOP = 0`. -/
def dueStep (a : Bool) (p : Periph) : EnvStep :=
  match p.env.phase with
  | .idle => .start
  | .started => .addr a
  | .addrSent | .data | .nacked =>
    if p.env.shiftValid then .shiftDone a else if p.env.holdValid then .load else .drained

theorem eq_dueStep_of_enabled {a : Bool} (h : Periph.stepEnabled c p m = true) (listed : m ∈ Periph.stepOrder a)
    (stop : RegValues.stop p.rb = false) : m = dueStep a p := by
  unfold dueStep
  cases m with
  | start => simp [(stepEnabled_start_iff.1 h).2]
  | addr b =>
    obtain rfl : b = a := by simpa [Periph.stepOrder] using listed
    simp [(stepEnabled_addr_iff.1 h).2]
  | drained => simp [(stepEnabled_drained_iff.1 h).2]
  | load => simp [(stepEnabled_load_iff.1 h).2]
  | stop =>
    obtain ⟨-, requested⟩ := stepEnabled_stop_iff.1 h
    simp [stop] at requested
  | shiftDone b =>
    obtain rfl : b = a := by simpa [Periph.stepOrder] using listed
    simp [(stepEnabled_shiftDone_iff.1 h).2]

/-- R158: `E_STOP` is picked when enabled, any other step when enabled with `STOP = 0`. -/
theorem refStep_of_enabled (enabled : Periph.stepEnabled c p m = true) (listed : m ∈ Periph.stepOrder (Periph.ackDraw p))
    (first : RegValues.stop p.rb = false ∨ m = .stop) :
    Periph.refStep c p = some (Periph.takeStep m (Periph.drawFor m p)) := by
  cases picked : Periph.refStep c p with
  | none => exact absurd (enabled.symm.trans (refStep_eq_none.1 picked m)) (by decide)
  | some q =>
    obtain ⟨n, listed', enabled', rfl, stops⟩ := refStep_cases picked
    suffices same : n = m by rw [same]
    obtain stop | rfl := first
    · rw [eq_dueStep_of_enabled enabled listed stop, eq_dueStep_of_enabled enabled' listed' stop]
    · exact stops (stepEnabled_stop_iff.1 enabled).2

/-- R158 for the two steps that draw: the next draw is theirs, and it is used up. -/
theorem refStep_of_drawing (enabled : Periph.stepEnabled c p m = true) (stop : RegValues.stop p.rb = false)
    (draws : m = .addr (p.env.acks.headD true) ∨ m = .shiftDone (p.env.acks.headD true)) :
    Periph.refStep c p = some (withAcks p.env.acks.tail (Periph.takeStep m p)) := by
  rw [refStep_of_enabled enabled (by rw [ackDraw_eq]; obtain rfl | rfl := draws <;> simp [Periph.stepOrder]) (.inl stop)]
  obtain rfl | rfl := draws <;> rfl

end Steps

/-- Settles O52: each step's precondition, its effect as written, and the pick of R158. -/
theorem referenceEnvSteps : Obligations.ReferenceEnvSteps := by
  intro c p on
  refine ⟨?stop, ?start, ?addr, ?shiftDone, ?load, ?drained, ?none⟩
  case stop =>
    intro stop
    have enabled := stepEnabled_stop_iff.2 ⟨on, stop⟩
    refine ⟨Periph.eStop p, envStep_of_enabled enabled, refStep_of_enabled enabled (by simp [Periph.stepOrder]) (.inr rfl),
      stop_setCr1 p.rb posStop false (by decide), rfl, rfl, rfl, ?_, ?_, ?_, rfl⟩
    · simp [Periph.eStop]
    · simp [Periph.eStop]
    · intro f notTxe notBtf
      simp [Periph.eStop, notTxe, notBtf]
  case start =>
    intro start idle
    have enabled := stepEnabled_start_iff.2 ⟨on, start, idle⟩
    exact ⟨Periph.eStart p, envStep_of_enabled enabled,
      fun stop => refStep_of_enabled enabled (by simp [Periph.stepOrder]) (.inl stop),
      start_setCr1 p.rb posStart false (by decide), by simp [Periph.eStart], rfl, rfl⟩
  case addr =>
    intro a started full
    have enabled := stepEnabled_addr_iff (a := a).2 ⟨on, started, full⟩
    refine ⟨Periph.eAddr a p, envStep_of_enabled enabled, fun stop draw => refStep_of_drawing enabled stop (.inl (draw ▸ rfl)),
      rfl, rfl, ?_, ?_⟩
    · rintro rfl
      simp [Periph.eAddr]
    · rintro rfl
      simp [Periph.eAddr]
  case shiftDone =>
    intro a data full
    have enabled := stepEnabled_shiftDone_iff (a := a).2 ⟨on, data, full⟩
    refine ⟨Periph.eShiftDone a p, envStep_of_enabled enabled,
      fun stop draw => refStep_of_drawing enabled stop (.inr (draw ▸ rfl)), rfl, rfl, ?_, ?_⟩
    · rintro rfl
      exact ⟨rfl, data⟩
    · rintro rfl
      simp [Periph.eShiftDone]
  case load =>
    intro data full empty
    have enabled := stepEnabled_load_iff.2 ⟨on, data, full, empty⟩
    exact ⟨Periph.eLoad p, envStep_of_enabled enabled,
      fun stop => refStep_of_enabled enabled (by simp [Periph.stepOrder]) (.inl stop), rfl, rfl, rfl, by simp [Periph.eLoad], rfl⟩
  case drained =>
    intro data holdEmpty shiftEmpty btf
    have enabled := stepEnabled_drained_iff.2 ⟨on, data, holdEmpty, shiftEmpty, btf⟩
    exact ⟨Periph.eDrained p, envStep_of_enabled enabled,
      fun stop => refStep_of_enabled enabled (by simp [Periph.stepOrder]) (.inl stop), by simp [Periph.eDrained], rfl⟩
  case none =>
    intro stop noStart noAddr noData
    have disabled : ∀ m, Periph.stepEnabled c p m = false := by
      intro m
      rw [← Bool.not_eq_true]
      intro enabled
      cases m with
      | start =>
        obtain ⟨-, start, idle⟩ := stepEnabled_start_iff.1 enabled
        simp [start, idle] at noStart
      | addr a =>
        obtain ⟨-, started, full⟩ := stepEnabled_addr_iff.1 enabled
        simp [started, full] at noAddr
      | drained =>
        obtain ⟨-, data, -, -, btf⟩ := stepEnabled_drained_iff.1 enabled
        simp [data, btf] at noData
      | load =>
        obtain ⟨-, data, full, -⟩ := stepEnabled_load_iff.1 enabled
        simp [data, full] at noData
      | stop =>
        obtain ⟨-, requested⟩ := stepEnabled_stop_iff.1 enabled
        simp [stop] at requested
      | shiftDone a =>
        obtain ⟨-, data, full⟩ := stepEnabled_shiftDone_iff.1 enabled
        simp [data, full] at noData
    exact ⟨refStep_eq_none.2 disabled, fun m => envStep_of_not_enabled (disabled m)⟩

/-! ## Requests served -/

/-- R142 from one state of the peripheral to the next: `START` falls only with `SB` set and a start condition on the wire, `STOP`
only with a stop condition on it. -/
def ServesRequests (p q : Periph) : Prop :=
  (RegValues.start p.rb = true → RegValues.start q.rb = false →
    RegValues.flag q.rb .sb = true ∧ q.env.wire = p.env.wire ++ [.start])
  ∧ (RegValues.stop p.rb = true → RegValues.stop q.rb = false →
    q.env.wire = p.env.wire ++ [.stop] ∨ q.env.wire = p.env.wire ++ [.stopTrunc])

theorem servesRequests_of_cr1 {p q : Periph} (h : q.rb.cr1 = p.rb.cr1) : ServesRequests p q := by
  have falls : ∀ n, bitAt p.rb.cr1 n = true → bitAt q.rb.cr1 n ≠ false := fun n on => by rw [h, on]; decide
  exact ⟨fun on off => absurd off (falls posStart on), fun on off => absurd off (falls posStop on)⟩

theorem eStart_servesRequests (p : Periph) : ServesRequests p (Periph.eStart p) := by
  refine ⟨fun _ _ => ⟨by simp [Periph.eStart], rfl⟩, fun on off => ?_⟩
  have kept : RegValues.stop (Periph.eStart p).rb = RegValues.stop p.rb := stop_setCr1 p.rb posStart false (by decide)
  simp [kept, on] at off

/-- A stop condition that clears `STOP` clears no other request. -/
theorem servesRequests_of_stop {p q : Periph} (cr1 : q.rb.cr1 = (RegValues.setCr1 p.rb posStop false).cr1)
    (wire : q.env.wire = p.env.wire ++ [.stop] ∨ q.env.wire = p.env.wire ++ [.stopTrunc]) : ServesRequests p q := by
  refine ⟨fun on off => ?_, fun _ _ => wire⟩
  have kept : RegValues.start q.rb = RegValues.start p.rb :=
    (congrArg (fun w => bitAt w posStart) cr1).trans (start_setCr1 p.rb posStop false (by decide))
  simp [kept, on] at off

/-- Whether it loses a byte or not, a stop condition is one of the two events. -/
theorem stopEvent_append (truncates : Bool) (w : List WireEvent) :
    w ++ [if truncates then .stopTrunc else .stop] = w ++ [.stop]
    ∨ w ++ [if truncates then .stopTrunc else .stop] = w ++ [.stopTrunc] := by
  cases truncates
  · exact .inl rfl
  · exact .inr rfl

theorem takeStep_servesRequests (m : EnvStep) (p : Periph) : ServesRequests p (Periph.takeStep m p) := by
  cases m with
  | start => exact eStart_servesRequests p
  | stop => exact servesRequests_of_stop rfl (stopEvent_append _ _)
  | shiftDone a => cases a <;> exact servesRequests_of_cr1 rfl
  | addr | drained | load => exact servesRequests_of_cr1 rfl

theorem applyMove_servesRequests (c : Config) (m : EnvMove) (p : Periph) : ServesRequests p (Periph.applyMove c m p) := by
  have none : ServesRequests p p := servesRequests_of_cr1 rfl
  unfold Periph.applyMove
  split
  · exact none
  cases m with
  | genStart keepHold keepShift =>
    dsimp only
    split
    · exact eStart_servesRequests (Periph.keepSlots keepHold keepShift p)
    · exact servesRequests_of_cr1 rfl
  | genStop keepHold keepShift clear =>
    cases clear with
    | true => exact servesRequests_of_stop rfl (stopEvent_append _ _)
    | false => exact servesRequests_of_cr1 rfl
  | sendAddr | raiseAddr | load | shiftDone | status =>
    dsimp only
    split
    · exact servesRequests_of_cr1 rfl
    · exact none
  | drop | abandon => exact servesRequests_of_cr1 rfl

/-- Settles O50: of the steps and the moves only a start and a stop write `CR1`. -/
theorem requestsFallOnlyWhenServed : Obligations.RequestsFallOnlyWhenServed := by
  intro c p q moved
  obtain step | ⟨m, rfl⟩ := or_assoc.2 moved
  · obtain rfl | ⟨m, acks, -, rfl⟩ := refEnvStep_cases step
    · exact servesRequests_of_cr1 rfl
    · exact takeStep_servesRequests m p
  · exact applyMove_servesRequests c m p

/-! ## The address byte -/

/-- R151: of the steps of the reference ENV only an acknowledged `E_ADDR` sets `ADDR`. -/
theorem takeStep_raises_addr {m : EnvStep} {p : Periph} (low : RegValues.flag p.rb .addr = false)
    (high : RegValues.flag (Periph.takeStep m p).rb .addr = true) : m = .addr true := by
  cases m with
  | addr a =>
    cases a with
    | true => rfl
    | false => simp [Periph.takeStep, Periph.eAddr, low] at high
  | start => simp [Periph.takeStep, Periph.eStart, low] at high
  | drained => simp [Periph.takeStep, Periph.eDrained, low] at high
  | load => simp [Periph.takeStep, Periph.eLoad, low] at high
  | stop => simp [Periph.takeStep, Periph.eStop, low] at high
  | shiftDone a => cases a <;> simp [Periph.takeStep, Periph.eShiftDone, low] at high

/-- R149: only `E_START` begins the address phase. -/
theorem takeStep_enters_started {m : EnvStep} {p : Periph} (before : p.env.phase ≠ .started)
    (after : (Periph.takeStep m p).env.phase = .started) : m = .start := by
  cases m with
  | start => rfl
  | addr a => cases a <;> cases after
  | drained | load => exact absurd after before
  | stop => cases after
  | shiftDone a =>
    cases a with
    | true => exact absurd after before
    | false => cases after

section Moves
variable (c : Config) (m : EnvMove) (p : Periph)

/-- R143: a move changes `ADDR` only once the address byte was acknowledged. -/
theorem applyMove_addr :
    RegValues.flag (Periph.applyMove c m p).rb .addr = RegValues.flag p.rb .addr ∨ p.env.addrStage = .acked := by
  unfold Periph.applyMove
  split
  · exact .inl rfl
  cases m with
  | genStart keepHold keepShift =>
    dsimp only
    split
    · exact .inl (by simp [Periph.eStart, Periph.keepSlots])
    · exact .inl rfl
  | genStop keepHold keepShift clear => cases clear <;> exact .inl rfl
  | raiseAddr enter =>
    dsimp only
    split
    · next acked => exact .inr (beq_iff_eq.1 acked)
    · exact .inl rfl
  | load =>
    dsimp only
    split
    · exact .inl (by simp)
    · exact .inl rfl
  | status v =>
    dsimp only
    split
    · next allowed =>
      simp only [Periph.statusAllowed, Bool.and_eq_true, beq_iff_eq] at allowed
      obtain ⟨⟨⟨same, -⟩, -⟩, -⟩ := allowed
      exact .inl same
    · exact .inl rfl
  | sendAddr | shiftDone =>
    dsimp only
    split <;> exact .inl rfl
  | drop | abandon => exact .inl rfl

/-- R143: what a move makes of the address byte. It stays where it is or is lost, is put on the wire and acknowledged, or goes from
the holding slot to the shift register. -/
theorem applyMove_addrStage (q : Periph) (h : q = Periph.applyMove c m p) :
    q.env.addrStage = p.env.addrStage ∨ q.env.addrStage = .none
    ∨ (q.env.addrStage = .acked ∧
      ((p.env.addrStage = .held ∧ p.env.holdValid = true ∧ q.env.wire = p.env.wire ++ [.byte p.env.hold true])
      ∨ (p.env.addrStage = .shifting ∧ p.env.shiftValid = true ∧ q.env.wire = p.env.wire ++ [.byte p.env.shift true])))
    ∨ (q.env.addrStage = .shifting ∧ p.env.addrStage = .held ∧ p.env.holdValid = true ∧ q.env.shift = p.env.hold) := by
  have kept : ∀ a : AddrStage, ∀ h s, a.kept h s = a ∨ a.kept h s = .none := by
    intro a h s
    cases a <;> cases h <;> cases s <;> simp [AddrStage.kept]
  have lost : ∀ {keepHold keepShift}, q.env.addrStage = p.env.addrStage.kept keepHold keepShift →
      q.env.addrStage = p.env.addrStage ∨ q.env.addrStage = .none := fun e => e ▸ kept _ _ _
  unfold Periph.applyMove at h
  split at h
  · exact .inl (by rw [h])
  cases m with
  | genStart keepHold keepShift =>
    dsimp only at h
    split at h <;> exact (lost (by rw [h]; rfl)).imp_right .inl
  | genStop keepHold keepShift clear => exact (lost (by rw [h]; rfl)).imp_right .inl
  | drop keepHold keepShift => exact (lost (by rw [h]; rfl)).imp_right .inl
  | sendAddr a keep =>
    dsimp only at h
    split at h
    · next full =>
      simp only [Bool.and_eq_true, beq_iff_eq] at full
      obtain ⟨held, full⟩ := full
      subst h
      cases a <;> cases keep <;> simp [held, full]
    · exact .inl (by rw [h])
  | load =>
    dsimp only at h
    split at h
    · next full =>
      simp only [Bool.and_eq_true] at full
      subst h
      by_cases held : p.env.addrStage = .held <;> simp [held, full]
    · exact .inl (by rw [h])
  | shiftDone a keep =>
    dsimp only at h
    split at h
    · next full =>
      simp only [Bool.and_eq_true] at full
      subst h
      by_cases shifting : p.env.addrStage = .shifting
      · cases a <;> cases keep <;> simp [shifting, full]
      · simp [shifting]
    · exact .inl (by rw [h])
  | raiseAddr | status =>
    dsimp only at h
    split at h <;> exact .inl (by rw [h])
  | abandon => exact .inl (by rw [h])

/-- R142, R143: only a start condition begins the address phase. -/
theorem applyMove_enters_started (before : p.env.phase ≠ .started) (after : (Periph.applyMove c m p).env.phase = .started) :
    (Periph.applyMove c m p).env.wire = p.env.wire ++ [.start] := by
  unfold Periph.applyMove at after ⊢
  split at after
  · exact absurd after before
  next gate =>
  rw [if_neg gate]
  cases m with
  | genStart keepHold keepShift =>
    dsimp only
    split <;> rfl
  | genStop => cases after
  | raiseAddr enter =>
    dsimp only at after
    split at after
    · cases enter with
      | true => cases after
      | false => exact absurd after before
    · exact absurd after before
  | abandon =>
    dsimp only at after
    split at after <;> cases after
  | sendAddr | load | shiftDone | status =>
    dsimp only at after
    split at after <;> exact absurd after before
  | drop => exact absurd after before

end Moves

/-- R157: disabling makes no byte an address byte. -/
theorem disableHook_held {p : Periph} (h : (Periph.disableHook p).env.addrStage = .held) : p.env.addrStage = .held := by
  unfold Periph.disableHook at h
  split at h
  · exact ((kept_eq_held _ _ _).1 h).1
  · exact h

/-- R22: only a `DR` write in the address phase makes a byte an address byte. -/
theorem writeEffect_holds_address {r : WriteReg} {v : Word} {p : Periph} (before : p.env.addrStage ≠ .held)
    (after : (writeEffect r v p).env.addrStage = .held) : r = .dr ∧ p.env.phase = .started
      ∧ (writeEffect r v p).env.hold = v.setWidth 8 ∧ (writeEffect r v p).env.holdValid = true := by
  cases r with
  | dr =>
    change (Periph.drHook (v.setWidth 8) { p with clrArmed := false }).env.addrStage = .held at after
    show _ ∧ _ ∧ (Periph.drHook (v.setWidth 8) { p with clrArmed := false }).env.hold = _
      ∧ (Periph.drHook (v.setWidth 8) { p with clrArmed := false }).env.holdValid = true
    unfold Periph.drHook at after ⊢
    split at after
    · next started => rw [if_pos started]; exact ⟨rfl, beq_iff_eq.1 started, rfl, rfl⟩
    · split at after <;> exact absurd after before
  | cr1 =>
    change (cr1WriteEffect v p).env.addrStage = .held at after
    obtain stores | ⟨-, -, -, tells⟩ := cr1WriteEffect_cases v p
    · rw [stores] at after
      exact absurd after before
    · rw [tells] at after
      exact absurd (disableHook_held after) before
  | _ => exact absurd after before

/-- Settles O51, from what each step, each move and each write does to `ADDR`, to the address byte and to the phase. -/
theorem addrRisesOnlyByAcknowledge : Obligations.AddrRisesOnlyByAcknowledge := by
  intro c p q
  refine ⟨fun step low high => ?raised, ?moves, ?written, ?started⟩
  case raised =>
    obtain rfl | ⟨m, acks, enabled, rfl⟩ := refEnvStep_cases step
    · simp [low] at high
    · obtain rfl := takeStep_raises_addr low high
      obtain ⟨-, started, full⟩ := stepEnabled_addr_iff.1 enabled
      exact ⟨started, full, rfl⟩
  case moves =>
    intro m h
    have stage := applyMove_addrStage c m p q h
    refine ⟨fun low high => ?_, fun before after => ?_, fun before after => ?_, fun before after => ?_⟩
    · refine (applyMove_addr c m p).resolve_left fun same => ?_
      rw [h, same, low] at high
      cases high
    · simpa [after, before.symm] using stage
    · simpa [after, before.symm] using stage
    · simp [after, before.symm] at stage
  case written =>
    rintro r v rfl before after
    exact writeEffect_holds_address before after
  case started =>
    intro moved before after
    obtain step | ⟨m, rfl⟩ := or_assoc.2 moved
    · obtain rfl | ⟨m, acks, -, rfl⟩ := refEnvStep_cases step
      · exact absurd after before
      · obtain rfl := takeStep_enters_started before after
        rfl
    · exact applyMove_enters_started c m p before after

/-! ## The reference ENV is an ENV of part 1 -/

/-- Writing a bit with the value it has changes nothing. -/
theorem putBit_same {w : Word} {n : Nat} {b : Bool} (h : bitAt w n = b) (bound : n < 32) : putBit w n b = w := by
  refine BitVec.eq_of_getLsbD_eq fun i _ => ?_
  have bit := bitAt_putBit w n i b bound
  split at bit
  · next same => exact bit.trans (by rw [same]; exact h.symm)
  · exact bit

theorem setFlag_same {rb : RegValues} {f : Flag} {b : Bool} (h : RegValues.flag rb f = b) : RegValues.setFlag rb f b = rb :=
  congrArg (fun w => { rb with sr1 := w }) (putBit_same h (Flag.pos_lt f))

/-- A start or stop that keeps both slots. -/
theorem keepSlots_true_true (p : Periph) : Periph.keepSlots true true p = p := by
  simp [Periph.keepSlots]

/-- R24, R143 to R145: with one flag changed a status word is allowed when the flag is an error flag, or `TXE` or `BTF` lowered, or
either raised over its empty slot while `ADDR` is 0. -/
theorem statusAllowed_putBit {p : Periph} {f : Flag} {b : Bool} (addr : f ≠ .addr) (sb : f ≠ .sb)
    (txe : f = .txe → b = true → p.env.holdValid = false ∧ RegValues.flag p.rb .addr = false)
    (btf : f = .btf → b = true → p.env.shiftValid = false ∧ RegValues.flag p.rb .addr = false) :
    Periph.statusAllowed p (putBit p.rb.sr1 f.pos b) = true := by
  have bit : ∀ g : Flag, bitAt (putBit p.rb.sr1 f.pos b) g.pos = if g = f then b else RegValues.flag p.rb g :=
    fun g => flag_setFlag p.rb f g b
  simp only [Periph.statusAllowed, bit, if_neg addr.symm, if_neg sb.symm, Bool.and_eq_true, Bool.or_eq_true,
    Bool.not_eq_true', beq_self_eq_true]
  refine ⟨⟨⟨trivial, ?_⟩, ?_⟩, ?_⟩
  · cases RegValues.flag p.rb .sb <;> simp
  · by_cases same : f = .txe
    · cases b with
      | false => simp [same]
      | true => simp [txe same rfl]
    · rw [if_neg (Ne.symm same)]
      cases RegValues.flag p.rb .txe <;> simp
  · by_cases same : f = .btf
    · cases b with
      | false => simp [same]
      | true => simp [btf same rfl]
    · rw [if_neg (Ne.symm same)]
      cases RegValues.flag p.rb .btf <;> simp

section PartOne
variable {c : Config} {p : Periph}

/-- A clocked ENV shows a status word with one flag changed where part 1 allows it. -/
theorem applyMove_status {f : Flag} {b : Bool} (gate : RegValues.clkgate c p.rb = true)
    (allowed : Periph.statusAllowed p (putBit p.rb.sr1 f.pos b) = true) :
    Periph.applyMove c (.status (putBit p.rb.sr1 f.pos b)) p = { p with rb := RegValues.setFlag p.rb f b } := by
  simp only [Periph.applyMove, gate, allowed]
  rfl

/-- A byte that was not acknowledged: the error flag, and the transfer left. -/
theorem applyMoves_nack (gate : RegValues.clkgate c p.rb = true) (busy : p.env.phase ≠ .idle) :
    Periph.applyMoves c [.status (putBit p.rb.sr1 Flag.af.pos true), .abandon] p =
      { p with rb := RegValues.setFlag p.rb .af true, env := { p.env with phase := .nacked } } := by
  simp only [Periph.applyMoves, applyMove_status gate (statusAllowed_putBit (f := .af) (b := true) (by decide) (by decide)
    (by simp) (by simp))]
  simp [Periph.applyMove, gate, busy]

/-- `TXE` and then `BTF` lowered. -/
theorem applyMoves_lowered (gate : RegValues.clkgate c p.rb = true) :
    Periph.applyMoves c [.status (putBit p.rb.sr1 Flag.txe.pos false),
        .status (putBit (putBit p.rb.sr1 Flag.txe.pos false) Flag.btf.pos false)] p =
      { p with rb := RegValues.setFlag (RegValues.setFlag p.rb .txe false) .btf false } := by
  have lowered : ∀ (q : Periph) (f : Flag), RegValues.clkgate c q.rb = true → f ≠ .addr → f ≠ .sb →
      Periph.applyMove c (.status (putBit q.rb.sr1 f.pos false)) q = { q with rb := RegValues.setFlag q.rb f false } :=
    fun q f gate addr sb => applyMove_status gate (statusAllowed_putBit addr sb (by simp) (by simp))
  rw [Periph.applyMoves, lowered p .txe gate (by decide) (by decide)]
  exact lowered { p with rb := RegValues.setFlag p.rb .txe false } .btf gate (by decide) (by decide)

/-- The address byte goes on the bus from the holding slot. -/
theorem applyMove_sendAddr (a : Bool) (gate : RegValues.clkgate c p.rb = true) (held : p.env.addrStage = .held)
    (full : p.env.holdValid = true) : Periph.applyMove c (.sendAddr a false) p = { p with env := { p.env with
      holdValid := false
      addrStage := if a then .acked else .none
      wire := p.env.wire ++ [.byte p.env.hold a] } } := by
  simp [Periph.applyMove, gate, held, full]

/-- A data byte goes on the bus from the shift register. -/
theorem applyMove_shiftDone (a : Bool) (gate : RegValues.clkgate c p.rb = true) (full : p.env.shiftValid = true)
    (clear : RegValues.flag p.rb .addr = false) (data : p.env.addrStage ≠ .shifting) :
    Periph.applyMove c (.shiftDone a false) p =
      { p with env := { p.env with shiftValid := false, wire := p.env.wire ++ [.byte p.env.shift a] } } := by
  simp [Periph.applyMove, gate, full, clear, data]

/-- A data byte goes to the shift register; `BTF` has fallen before. -/
theorem applyMove_load (gate : RegValues.clkgate c p.rb = true) (full : p.env.holdValid = true)
    (empty : p.env.shiftValid = false) (clear : RegValues.flag p.rb .addr = false) (data : p.env.addrStage ≠ .held)
    (btf : RegValues.flag p.rb .btf = false) : Periph.applyMove c .load p =
      { p with env := { p.env with shift := p.env.hold, shiftValid := true, holdValid := false } } := by
  simp [Periph.applyMove, gate, full, empty, clear, data, setFlag_same btf]

/-- A requested stop condition that empties both slots. -/
theorem applyMove_genStop (gate : RegValues.clkgate c p.rb = true) : Periph.applyMove c (.genStop false false true) p =
    { p with
      rb := RegValues.setCr1 p.rb posStop false
      env := { p.env with
        phase := .idle
        holdValid := false
        shiftValid := false
        addrStage := p.env.addrStage.kept false false
        wire := p.env.wire ++ [Periph.stopEvent p] } } := by
  simp [Periph.applyMove, gate, Periph.keepSlots, Periph.stopEventWith, Periph.stopEvent]

/-- The moves of part 1 that make a step of the reference ENV. -/
def movesOf (m : EnvStep) (p : Periph) : List EnvMove :=
  match m with
  | .start => [.genStart true true]
  | .addr true => [.sendAddr true false, .raiseAddr true]
  | .addr false => [.sendAddr false false, .status (putBit p.rb.sr1 Flag.af.pos true), .abandon]
  | .drained => [.status (putBit p.rb.sr1 Flag.btf.pos true)]
  | .load => [.load, .status (putBit p.rb.sr1 Flag.txe.pos true)]
  | .stop => [.genStop false false true, .status (putBit p.rb.sr1 Flag.txe.pos false),
      .status (putBit (putBit p.rb.sr1 Flag.txe.pos false) Flag.btf.pos false)]
  | .shiftDone true => [.shiftDone true false]
  | .shiftDone false => [.shiftDone false false, .status (putBit p.rb.sr1 Flag.af.pos true), .abandon]

/-- R149 to R156: each enabled step is the moves named for it, one after another. -/
theorem applyMoves_movesOf {m : EnvStep} (ref : Periph.isRef p = true) (latch : latchInv p = true) (slots : slotInv p = true)
    (enabled : Periph.stepEnabled c p m = true) : Periph.applyMoves c (movesOf m p) p = Periph.takeStep m p := by
  obtain ⟨gate, -⟩ := envEnabled_iff.1 (envEnabled_of_stepEnabled enabled)
  obtain ⟨-, dataClear⟩ := (latchInv_iff p).1 latch
  obtain ⟨shift, hold, drained, held, shifting⟩ := (slotInv_iff_of_isRef ref).1 slots
  cases m with
  | start =>
    obtain ⟨-, start, -⟩ := stepEnabled_start_iff.1 enabled
    simp [movesOf, Periph.applyMoves, Periph.applyMove, gate, start, keepSlots_true_true, Periph.takeStep]
  | addr a =>
    obtain ⟨-, started, full⟩ := stepEnabled_addr_iff.1 enabled
    have sent := applyMove_sendAddr a gate (held.2 ⟨started, full⟩) full
    cases a with
    | true =>
      rw [movesOf, Periph.applyMoves, sent]
      simp [Periph.applyMoves, Periph.applyMove, gate, Periph.takeStep, Periph.eAddr]
    | false =>
      rw [movesOf, Periph.applyMoves, sent]
      exact applyMoves_nack gate (by rw [started]; decide)
  | drained =>
    obtain ⟨-, data, -, empty, -⟩ := stepEnabled_drained_iff.1 enabled
    exact applyMove_status gate (statusAllowed_putBit (by decide) (by decide) (by simp) fun _ _ => ⟨empty, dataClear ref data⟩)
  | load =>
    obtain ⟨-, data, full, empty⟩ := stepEnabled_load_iff.1 enabled
    have notDrained : RegValues.flag p.rb .btf = false := by
      rw [← Bool.not_eq_true]
      intro btf
      simp [(drained data btf).1] at full
    have notHeld : p.env.addrStage ≠ .held := by simpa [data] using held
    rw [movesOf, Periph.applyMoves, applyMove_load gate full empty (dataClear ref data) notHeld notDrained]
    exact applyMove_status (f := .txe) (p := { p with env := _ }) gate
      (statusAllowed_putBit (by decide) (by decide) (fun _ _ => ⟨rfl, dataClear ref data⟩) (by simp))
  | stop =>
    rw [movesOf, Periph.applyMoves, applyMove_genStop gate]
    exact applyMoves_lowered gate
  | shiftDone a =>
    obtain ⟨-, data, full⟩ := stepEnabled_shiftDone_iff.1 enabled
    have sent := applyMove_shiftDone a gate full (dataClear ref data) shifting
    cases a with
    | true => exact sent
    | false =>
      rw [movesOf, Periph.applyMoves, sent]
      exact applyMoves_nack gate (by rw [data]; decide)

end PartOne

/-- Settles O56: an enabled step is its moves, and no step is no move. -/
theorem referenceEnvIsAPartOneEnv : Obligations.ReferenceEnvIsAPartOneEnv := by
  intro c p q ref latch slots step
  obtain rfl | ⟨m, acks, enabled, rfl⟩ := refEnvStep_cases step
  · exact ⟨[], rfl⟩
  · refine ⟨movesOf m p, (applyMoves_movesOf ref latch slots enabled).trans ?_⟩
    rw [← takeStep_acks m p]
    rfl

/-! ## What ENV does at an access -/

section Hooks
variable {p : Periph} (v : Word)

/-- R144, R150: after a start the byte written is the address byte; the write clears `SB` under the reference ENV, `TXE` under any
other. -/
theorem drWrite_of_started (started : p.env.phase = .started) : writeEffect .dr v p = { p with
    rb := RegValues.setFlag p.rb (if Periph.isRef p then .sb else .txe) false
    clrArmed := false
    env := { p.env with hold := v.setWidth 8, holdValid := true, addrStage := .held } } :=
  if_pos (beq_iff_eq.2 started)

/-- R144, R150: in the data phase, and under an ENV that is not the reference one before it too, the byte enters the holding
slot. -/
theorem drWrite_of_taking (taking : p.env.phase = .data ∨ (p.env.phase = .addrSent ∧ Periph.isRef p = false)) :
    writeEffect .dr v p = { p with
      rb := if Periph.isRef p then RegValues.setFlag (RegValues.setFlag p.rb .txe false) .btf false
        else RegValues.setFlag p.rb .txe false
      clrArmed := false
      env := { p.env with hold := v.setWidth 8, holdValid := true } } := by
  have notStarted : ¬ p.env.phase = .started := by
    rintro started
    simp [started] at taking
  have takes : (p.env.phase == .data || (p.env.phase == .addrSent && !Periph.isRef p)) = true := by simpa using taking
  exact (if_neg (by simpa using notStarted)).trans (if_pos takes)

/-- R150: in any other phase the reference ENV drops the byte. -/
theorem drWrite_of_dropping (ref : Periph.isRef p = true) (notStarted : p.env.phase ≠ .started)
    (notData : p.env.phase ≠ .data) : writeEffect .dr v p = { p with clrArmed := false } := by
  have drops : ¬ (p.env.phase == .data || (p.env.phase == .addrSent && !Periph.isRef p)) = true := by simp [notData, ref]
  exact (if_neg (by simpa using notStarted)).trans (if_neg drops)

/-- R27: an `SR2` read takes the value drawn. -/
def drawn (p : Periph) : Periph := { p with
  rb := { p.rb with sr2 := sr2Draw p }
  env := { p.env with draws := if Periph.isScheduled p then p.env.draws else p.env.draws + 1 } }

/-- R35: the armed read clears `ADDR` besides, and disarms. -/
def latchCleared (p : Periph) : Periph := { drawn p with rb := RegValues.setFlag (drawn p).rb .addr false, clrArmed := false }

theorem sr2Read_of_unarmed (unarmed : p.clrArmed = false) : readEffect .sr2 p = drawn p :=
  if_neg (by simp [unarmed])

theorem addrPhaseEnds_iff : Periph.addrPhaseEnds p = true ↔ p.env.phase = .addrSent
    ∨ (Periph.isRef p = false ∧ p.env.phase = .started ∧ p.env.addrStage = .acked) := by
  simp [Periph.addrPhaseEnds, and_assoc]

/-- R45, R152: at the end of the address phase the data phase begins, and the reference ENV sets `TXE`. -/
theorem sr2Read_of_ending (armed : p.clrArmed = true) (ends : Periph.addrPhaseEnds p = true) :
    readEffect .sr2 p = { latchCleared p with
      rb := if Periph.isRef p then RegValues.setFlag (latchCleared p).rb .txe true else (latchCleared p).rb
      env := { (latchCleared p).env with phase := .data } } :=
  (if_pos armed).trans (if_pos ends)

theorem sr2Read_of_not_ending (armed : p.clrArmed = true) (ends : ¬ Periph.addrPhaseEnds p = true) :
    readEffect .sr2 p = latchCleared p :=
  (if_pos armed).trans (if_neg ends)

end Hooks

/-- Settles O53: each access by itself, in the phases the reference ENV tells apart. -/
theorem referenceEnvHooks : Obligations.ReferenceEnvHooks := by
  intro p v ref
  refine ⟨fun started => ?started, fun data => ?data, drWrite_of_dropping v ref, fun armed sent => ?sent,
    fun armed notSent => ?notSent, sr2Read_of_unarmed, sr2Draw_of_isScheduled⟩
  case started => rw [drWrite_of_started v started, if_pos ref]
  case data => rw [drWrite_of_taking v (.inl data), if_pos ref]
  case sent =>
    rw [sr2Read_of_ending armed (addrPhaseEnds_iff.2 (.inl sent)), if_pos ref]
    rfl
  case notSent =>
    rw [sr2Read_of_not_ending armed]
    · rfl
    · rw [addrPhaseEnds_iff]
      rintro (sent | ⟨other, -⟩)
      · exact notSent sent
      · exact absurd (ref.symm.trans other) (by decide)

/-- Settles O60, in the same way for any other ENV. -/
theorem anyEnvTakesTheDrByte : Obligations.AnyEnvTakesTheDrByte := by
  intro p v other
  have notRef : ¬ Periph.isRef p = true := by simp [other]
  refine ⟨fun started => ?started, fun taking => ?taking, fun armed => ⟨sr2ReadEffect_addr armed,
    (sr2ReadEffect_envOnly p).armed, fun f notAddr => ?flags, fun ends => ?ends, fun notSent notAcked => ?stays⟩,
    fun unarmed => ?unarmed⟩
  case started => rw [drWrite_of_started v started, if_neg notRef]
  case taking => rw [drWrite_of_taking v (taking.imp_right fun sent => ⟨sent, other⟩), if_neg notRef]
  case flags => exact sr2ReadEffect_flag notAddr fun ref => absurd ref notRef
  case ends =>
    rw [sr2Read_of_ending armed (addrPhaseEnds_iff.2 (ends.imp_right fun acked => ⟨other, acked⟩))]
  case stays =>
    rw [sr2Read_of_not_ending armed]
    · rfl
    · rw [addrPhaseEnds_iff]
      rintro (sent | ⟨-, started, acked⟩)
      · exact notSent sent
      · exact notAcked.elim (· started) (· acked)
  case unarmed => rw [sr2Read_of_unarmed unarmed]; rfl

/-! ## Undescribed writes and a disabled ENV -/

/-- X6: a `DR` write whose effect no rule gives is refused, whatever would come after it. -/
theorem drWriteThen_of_undescribed {b : Byte} {s : State} (k : State → State) (h : ¬ Periph.drWriteDescribed s.per = true) :
    drWriteThen b s k = .refused .drWriteUndescribed := if_neg h

/-- Settles O47: where the gate is on, the write's own check refuses. -/
theorem undescribedDrWriteIsRefused : Obligations.UndescribedDrWriteIsRefused := by
  intro s gate other
  refine ⟨fun notAddress notData => ?address, fun undescribed => ?data⟩
  case address =>
    refine (whenClocked_of_gate _ gate).trans (drWriteThen_of_undescribed _ ?_)
    rw [drWriteDescribed_iff]
    rintro (ref | ⟨started, empty⟩ | ⟨phase, txe⟩)
    · exact absurd (ref.symm.trans other) (by decide)
    · simp [started, empty] at notAddress
    · rcases phase with phase | phase <;> simp [phase, txe] at notData
  case data =>
    exact (whenClocked_of_gate _ gate).trans
      (drWriteThen_of_undescribed (s := (bufRead (bufferAddr s.mtc) s).2) _ (by rw [bufRead_per, undescribed]; decide))

/-- R148: with the gate off or `PE = 0` no step is enabled. -/
theorem stepEnabled_of_disabled {c : Config} {p : Periph} (off : RegValues.clkgate c p.rb = false ∨ RegValues.pe p.rb = false)
    (m : EnvStep) : Periph.stepEnabled c p m = false := by
  rw [← Bool.not_eq_true]
  intro enabled
  obtain ⟨gate, pe⟩ := envEnabled_iff.1 (envEnabled_of_stepEnabled enabled)
  simp [gate, pe] at off

/-- Settles O55: with no step enabled a turn is no more than the schedule's own. -/
theorem disabledReferenceEnvIsInert : Obligations.DisabledReferenceEnvIsInert := by
  intro c w p ref off
  have disabled := stepEnabled_of_disabled off
  obtain ⟨sc, turned, scheduled⟩ := turn_quiet w p ref disabled
  refine ⟨fun m => envStep_of_not_enabled (disabled m), ?_, fun h => ?_⟩
  · rw [turned]
    rfl
  · rw [turned, scheduled h]
    rfl

/-! ## Disabling the reference ENV -/

theorem error_ne {f : Flag} (error : f ∈ [Flag.berr, .arlo, .af, .ovr, .timeout]) :
    f ≠ .sb ∧ f ≠ .addr ∧ f ≠ .btf ∧ f ≠ .txe := by
  refine ⟨?_, ?_, ?_, ?_⟩ <;> rintro rfl <;> simp at error

/-- R145: the error flags are cleared by no step of the reference ENV. -/
theorem takeStep_keeps_error {f : Flag} (error : f ∈ [Flag.berr, .arlo, .af, .ovr, .timeout]) (m : EnvStep) {p : Periph}
    (high : RegValues.flag p.rb f = true) : RegValues.flag (Periph.takeStep m p).rb f = true := by
  obtain ⟨-, -, btf, txe⟩ := error_ne error
  cases m with
  | start => simp [Periph.takeStep, Periph.eStart, high]
  | addr a => simp [Periph.takeStep, Periph.eAddr, high]
  | drained => simp [Periph.takeStep, Periph.eDrained, high]
  | load => simp [Periph.takeStep, Periph.eLoad, high]
  | stop => simp [Periph.takeStep, Periph.eStop, high, btf, txe]
  | shiftDone a => cases a <;> simp [Periph.takeStep, Periph.eShiftDone, high]

theorem turn_keeps_error {f : Flag} (error : f ∈ [Flag.berr, .arlo, .af, .ovr, .timeout]) (c : Config) (w : Periph.TurnPoint)
    {p : Periph} (ref : Periph.isRef p = true) (high : RegValues.flag p.rb f = true) :
    RegValues.flag (Periph.turn c w p).rb f = true := by
  refine (turn_keeps (c := c) (P := fun q => Periph.isRef q = true ∧ RegValues.flag q.rb f = true) ?step ?move ?own w p
    ⟨ref, high⟩).2
  case step =>
    rintro m q ⟨ref, high⟩ - -
    exact ⟨(isRef_of_sched (takeStep_sched m q)).trans ref, takeStep_keeps_error error m high⟩
  case move =>
    rintro m q ⟨ref, -⟩ other
    simp [ref] at other
  case own =>
    rintro q sc acks ⟨ref, high⟩ kind
    exact ⟨kind.trans ref, high⟩

/-- R46, R157: the peripheral after a `CR1` write of `v` that disables the reference ENV. -/
def disabledBy (v : Word) (p : Periph) : Periph where
  rb := RegValues.setFlag (RegValues.setFlag (RegValues.setFlag (RegValues.setFlag { p.rb with cr1 := v } .sb false) .addr false)
    .btf false) .txe false
  clrArmed := false
  env := { p.env with
    phase := .idle
    holdValid := false
    shiftValid := false
    addrStage := p.env.addrStage.kept false false }

theorem cr1Write_of_disabling {v : Word} {p : Periph} (ref : Periph.isRef p = true) (on : RegValues.pe p.rb = true)
    (off : bitAt v posPe = false) : writeEffect .cr1 v p = disabledBy v p :=
  (if_pos (Bool.and_eq_true_iff.2 ⟨on, congrArg Bool.not off⟩)).trans (if_pos ref)

theorem flag_disabledBy (v : Word) (p : Periph) (f : Flag) : RegValues.flag (disabledBy v p).rb f =
    (RegValues.flag p.rb f && !(f == .sb || f == .addr || f == .btf || f == .txe)) := by
  have stores : RegValues.flag { p.rb with cr1 := v } f = RegValues.flag p.rb f := rfl
  simp only [disabledBy, flag_setFlag, stores]
  cases f <;> simp

/-- R100: what SET_ENABLED(0) writes. -/
def withoutPe (w : Word) : Word := w &&& ~~~0x0001#32

theorem rmwValue_disabling (w : Word) : rmwValue w peMask (maskIf false peMask) = withoutPe w :=
  (rmwValue_pe w false).trans (by simp [withoutPe])

theorem bitAt_withoutPe (w : Word) : bitAt (withoutPe w) posPe = false := rmwValue_disabling w ▸ bitAt_rmwValue_pe w false

/-- R100, R157: SET_ENABLED(0) with `PE = 1`. Once its write half has disabled ENV, a turn changes nothing but the schedule. -/
theorem enableBody_false_per {s : State} (ref : Periph.isRef s.per = true) (pe : RegValues.pe s.per.rb = true) :
    ∃ sc, (enableBody false s).per =
      Periph.reschedule sc (disabledBy (withoutPe s.per.rb.cr1) (regRead .cr1 s).2.per) := by
  have written := cr1Write_of_disabling ((regRead_isRef .cr1 s).trans ref) ((regRead_envOnly .cr1 s).pe.trans pe)
    (bitAt_withoutPe s.per.rb.cr1)
  have off : RegValues.pe (disabledBy (withoutPe s.per.rb.cr1) (regRead .cr1 s).2.per).rb = false := bitAt_withoutPe _
  have refOff : Periph.isRef (disabledBy (withoutPe s.per.rb.cr1) (regRead .cr1 s).2.per) = true :=
    (regRead_isRef .cr1 s).trans ref
  obtain ⟨sc, turned, -⟩ := turn_quiet (c := s.cfg)
    (.bus (busCount ((regRead .cr1 s).2.acc ++ [.regWrite (regAddr s.cfg .cr1) (withoutPe s.per.rb.cr1)])))
    _ refOff (stepEnabled_of_disabled (.inr off))
  refine ⟨sc, ?_⟩
  rw [← turned, ← written, ← rmwValue_disabling]
  rfl

/-- Settles O28: the read half keeps what ENV may not touch, the write half resets ENV, and nothing moves after it. -/
theorem disableResetsReferenceEnv : Obligations.DisableResetsReferenceEnv := by
  intro s gate ref pe
  obtain ⟨sc, per⟩ := enableBody_false_per ref pe
  have same := regRead_envOnly .cr1 s
  refine ⟨respond false false (enableBody false s), whenClocked_of_gate _ gate, ?_⟩
  rw [respond_per, per]
  refine ⟨rfl, rfl, rfl, ?sb, ?addr, ?btf, ?txe, ?errors, rfl, same.cr2, same.oar1, same.oar2, same.dr, same.sr2, same.ccr,
    same.trise, same.fltr, same.clken, rfl, same.wire⟩
  case errors =>
    intro f error high
    have kept : RegValues.flag (regRead .cr1 s).2.per.rb f = true := turn_keeps_error error _ _ ref high
    obtain ⟨sb, addr, btf, txe⟩ := error_ne error
    exact (flag_disabledBy ..).trans (by simp [kept, sb, addr, btf, txe])
  all_goals exact (flag_disabledBy ..).trans (by simp)

/-! ## Who writes a register -/

/-- R80, R100, R102, R110, R118, R120, R126, R129: the registers an instruction writes. -/
def writes (i : Instr) (r : WriteReg) : Prop :=
  match i with
  | .configure _ _ _ _ _ => r ≠ .dr ∧ r ≠ .clken
  | .initPeripheral _ _ _ _ => r ≠ .dr
  | .clockGateEnable => r = .clken
  | .setEnabled _ | .seqStartSet | .seqStopSet => r = .cr1
  | .seqAddrWrite | .seqDataWrite => r = .dr
  | .hasFlag _ | .clearAddr | .masterSend _ _ _ | .seqIdle | .seqWaitSb | .seqWaitAddr | .seqClrSr1 | .seqClrSr2 | .seqLoopTest
  | .seqWaitTxe | .seqDrainTxe | .seqWaitBtf => False

/-! ## Whose each register is -/

/-- The word of a register that a write names. -/
def content (r : WriteReg) (rb : RegValues) : Word :=
  match r with
  | .cr1 => rb.cr1
  | .cr2 => rb.cr2
  | .oar1 => rb.oar1
  | .dr => rb.dr
  | .ccr => rb.ccr
  | .trise => rb.trise
  | .clken => rb.clken

theorem content_of_envOnly {r : WriteReg} (notCr1 : r ≠ .cr1) {p q : Periph} (h : EnvOnly p q) :
    content r q.rb = content r p.rb := by
  cases r with
  | cr1 => exact absurd rfl notCr1
  | cr2 => exact h.cr2
  | oar1 => exact h.oar1
  | dr => exact h.dr
  | ccr => exact h.ccr
  | trise => exact h.trise
  | clken => exact h.clken

theorem content_readEffect (r : WriteReg) (x : ReadReg) (p : Periph) : content r (readEffect x p).rb = content r p.rb := by
  obtain ⟨sr1, sr2, rb⟩ := readEffect_rb x p
  rw [rb]
  cases r <;> rfl

/-- R22, R46: a write reaches the register it names alone, and `DR` is not storage. -/
theorem content_stored (r x : WriteReg) (v : Word) (rb : RegValues) :
    content r (stored x v rb) = if x = r ∧ r ≠ .dr then v else content r rb := by
  cases x <;> cases r <;> rfl

theorem content_writeEffect {r x : WriteReg} (other : x ≠ r) (v : Word) (p : Periph) :
    content r (writeEffect x v p).rb = content r p.rb := by
  obtain ⟨sr1, rb⟩ := writeEffect_rb x v p
  calc content r (writeEffect x v p).rb
      = content r (stored x v p.rb) := by rw [rb]; cases r <;> rfl
    _ = content r p.rb := (content_stored r x v p.rb).trans (if_neg fun h => other h.1)

section Contents
variable {r : WriteReg} (notCr1 : r ≠ .cr1) (s : State)
include notCr1

theorem turn_content (c : Config) (w : Periph.TurnPoint) (p : Periph) : content r (Periph.turn c w p).rb = content r p.rb :=
  content_of_envOnly notCr1 (turn_envOnly w p)

theorem regRead_content (x : ReadReg) : content r (regRead x s).2.per.rb = content r s.per.rb :=
  (turn_content notCr1 _ _ _).trans (content_readEffect r x s.per)

theorem regWrite_content {x : WriteReg} (other : x ≠ r) (v : Word) : content r (regWrite x v s).per.rb = content r s.per.rb :=
  (turn_content notCr1 _ _ _).trans (content_writeEffect other v s.per)

theorem regRmw_content {x : RmwReg} (other : x.toWrite ≠ r) (clr set : Word) :
    content r (regRmw x clr set s).per.rb = content r s.per.rb :=
  (regWrite_content notCr1 _ other _).trans (regRead_content notCr1 s x.toRead)

/-- R141: a register other than `CR1` is as before after an instruction that does not write it. -/
theorem exec_content {i : Instr} {t : State} (e : exec i s = .next t) (unwritten : ¬ writes i r) :
    content r t.per.rb = content r s.per.rb := by
  rw [exec_next e]
  cases i with
  | configure pclk scl duty addr ack =>
    have apart : r = .dr ∨ r = .clken := by simpa [writes, imp_iff_not_or] using unwritten
    obtain rfl | rfl := apart
    · exact (configBody_envOnly pclk scl duty addr ack s).dr
    · exact (configBody_envOnly pclk scl duty addr ack s).clken
  | initPeripheral addr ack scl duty =>
    obtain rfl : r = .dr := by simpa [writes] using unwritten
    exact (initBody_envOnly addr ack scl duty s).dr
  | clockGateEnable => exact regRmw_content notCr1 s (x := .clken) (Ne.symm unwritten) _ _
  | setEnabled | seqStartSet | seqStopSet => exact regRmw_content notCr1 s (x := .cr1) notCr1.symm _ _
  | seqAddrWrite => exact regWrite_content notCr1 s (Ne.symm unwritten) _
  | seqDataWrite =>
    exact (regWrite_content notCr1 _ (Ne.symm unwritten) _).trans (turn_content notCr1 s.cfg .buffer s.per)
  | hasFlag sel =>
    simp only [nextState]
    split
    · exact regRead_content notCr1 s .sr1
    · rfl
  | clearAddr => exact (regRead_content notCr1 _ .sr2).trans (regRead_content notCr1 s .sr1)
  | masterSend => rfl
  | seqIdle | seqLoopTest => exact turn_content notCr1 s.cfg .internal s.per
  | seqClrSr2 => exact regRead_content notCr1 s .sr2
  | seqWaitSb | seqWaitAddr | seqClrSr1 | seqWaitTxe | seqDrainTxe | seqWaitBtf => exact regRead_content notCr1 s .sr1

end Contents

/-- R84, R100, R118, R129: the bits of `CR1` that a read-modify-write clears or sets, by the instruction they belong to. -/
theorem rmwsCr1_owner {i : Instr} {clr set : Word} {n : Nat} (h : RmwsCr1 i clr set)
    (own : bitAt clr n = true ∨ bitAt set n = true) :
    (n = posPe ∧ ((∃ en, i = .setEnabled en) ∨ ∃ addr ack scl duty, i = .initPeripheral addr ack scl duty))
    ∨ (n = posAck ∧ ((∃ pclk scl duty addr ack, i = .configure pclk scl duty addr ack)
      ∨ ∃ addr ack scl duty, i = .initPeripheral addr ack scl duty))
    ∨ n = posStart ∨ n = posStop := by
  cases h with
  | configure => exact .inr (.inl ⟨own.elim eq_of_bitAt_bitMask eq_of_bitAt_maskIf, .inl ⟨_, _, _, _, _, rfl⟩⟩)
  | setEnabled => exact .inl ⟨own.elim eq_of_bitAt_bitMask eq_of_bitAt_maskIf, .inl ⟨_, rfl⟩⟩
  | initEnable => exact .inl ⟨own.elim eq_of_bitAt_bitMask eq_of_bitAt_maskIf, .inr ⟨_, _, _, _, rfl⟩⟩
  | initAck => exact .inr (.inl ⟨own.elim eq_of_bitAt_bitMask eq_of_bitAt_maskIf, .inr ⟨_, _, _, _, rfl⟩⟩)
  | startSet => exact .inr (.inr (.inl (own.elim eq_of_bitAt_bitMask eq_of_bitAt_bitMask)))
  | stopSet => exact .inr (.inr (.inr (own.elim eq_of_bitAt_bitMask eq_of_bitAt_bitMask)))

/-- R141: a bit of `CR1` other than the two requests is as before after an instruction that does not own it. -/
theorem survives_cr1Bit {n : Nat} (notStart : n ≠ posStart) (notStop : n ≠ posStop) {i : Instr} (b : Bool)
    (unowned : ∀ clr set, RmwsCr1 i clr set → bitAt clr n = false ∧ bitAt set n = false) :
    Survives i (fun p => bitAt p.rb.cr1 n = b) where
  turn := fun _ w p h => ((turn_envOnly w p).cr1Bits n notStart notStop).trans h
  read := fun r p hr h => by rw [readEffect_rb_of_ne hr]; exact h
  write := fun r v p h1 _ h => by
    obtain ⟨_, rb⟩ := writeEffect_rb r v p
    rw [rb]
    exact (congrArg (fun w => bitAt w n) (stored_cr1_of_ne h1 v p.rb)).trans h
  readSr2 := fun _ p h => by
    obtain ⟨_, _, rb⟩ := readEffect_rb .sr2 p
    rw [show (sr2ReadEffect p).rb = _ from rb]
    exact h
  writeDr := fun _ v p h => by
    obtain ⟨_, rb⟩ := writeEffect_rb .dr v p
    rw [rb]
    exact h
  rmwCr1 := fun clr set own s h => by
    obtain ⟨kept, unset⟩ := unowned clr set own
    obtain ⟨_, rb⟩ := writeEffect_rb .cr1 (rmwValue s.per.rb.cr1 clr set) (readEffect .cr1 s.per)
    calc bitAt (regRmw .cr1 clr set s).per.rb.cr1 n
        = bitAt (writeEffect .cr1 (rmwValue s.per.rb.cr1 clr set) (readEffect .cr1 s.per)).rb.cr1 n :=
          (regRmw_envOnly .cr1 clr set s).cr1Bits n notStart notStop
      _ = bitAt (rmwValue s.per.rb.cr1 clr set) n := by rw [rb]; rfl
      _ = b := by rw [bitAt_rmwValue, h, kept, unset]; simp

theorem exec_cr1Bit {n : Nat} (notStart : n ≠ posStart) (notStop : n ≠ posStop) {i : Instr} {s t : State}
    (e : exec i s = .next t) (unowned : ∀ clr set, RmwsCr1 i clr set → ¬ (bitAt clr n = true ∨ bitAt set n = true)) :
    bitAt t.per.rb.cr1 n = bitAt s.per.rb.cr1 n :=
  (survives_cr1Bit notStart notStop (bitAt s.per.rb.cr1 n) fun clr set own => by simpa using unowned clr set own).exec e rfl

/-- R22, R28, R33: no instruction reaches the two opaque registers, and `DR` is not storage. -/
theorem exec_opaque {i : Instr} {s t : State} (e : exec i s = .next t) :
    t.per.rb.oar2 = s.per.rb.oar2 ∧ t.per.rb.fltr = s.per.rb.fltr ∧ t.per.rb.dr = s.per.rb.dr := by
  refine exec_keeps (P := fun p => p.rb.oar2 = s.per.rb.oar2 ∧ p.rb.fltr = s.per.rb.fltr ∧ p.rb.dr = s.per.rb.dr)
    ?turn ?read ?write e ⟨rfl, rfl, rfl⟩
  case turn =>
    rintro c w p ⟨oar2, fltr, dr⟩
    exact ⟨(turn_envOnly w p).oar2.trans oar2, (turn_envOnly w p).fltr.trans fltr, (turn_envOnly w p).dr.trans dr⟩
  case read =>
    intro r p h
    obtain ⟨_, _, rb⟩ := readEffect_rb r p
    rw [rb]; exact h
  case write =>
    intro r v p h
    obtain ⟨_, rb⟩ := writeEffect_rb r v p
    rw [rb]
    cases r <;> exact h

/-- Settles O49: what no access of an instruction writes, neither it nor ENV changes. -/
theorem registersChangeOnlyByTheirOwners : Obligations.RegistersChangeOnlyByTheirOwners := by
  intro i s t e
  refine ⟨fun notConfigure notInit => ?configured, fun notSetEnabled notInit => ?pe, fun notGate notInit => ?clken,
    fun n notGate => ?gate, fun n notPe notStart notStop notAck => ?unnamed, exec_opaque e⟩
  case configured =>
    have same : ∀ r : WriteReg, r ≠ .cr1 → r ≠ .dr → r ≠ .clken → content r t.per.rb = content r s.per.rb := by
      intro r notCr1 notDr notClken
      refine exec_content notCr1 s e ?_
      cases i with
      | configure => exact absurd rfl (notConfigure _ _ _ _ _)
      | initPeripheral => exact absurd rfl (notInit _ _ _ _)
      | _ => simp [writes, notCr1, notDr, notClken]
    refine ⟨same .cr2 (by decide) (by decide) (by decide), same .oar1 (by decide) (by decide) (by decide),
      same .ccr (by decide) (by decide) (by decide), same .trise (by decide) (by decide) (by decide),
      exec_cr1Bit (by decide) (by decide) e fun clr set own bit => ?_⟩
    obtain ⟨n, -⟩ | ⟨-, ⟨_, _, _, _, _, h⟩ | ⟨_, _, _, _, h⟩⟩ | n | n := rmwsCr1_owner own bit
    · cases n
    · exact notConfigure _ _ _ _ _ h
    · exact notInit _ _ _ _ h
    · cases n
    · cases n
  case pe =>
    refine exec_cr1Bit (by decide) (by decide) e fun clr set own bit => ?_
    obtain ⟨-, ⟨_, h⟩ | ⟨_, _, _, _, h⟩⟩ | ⟨n, -⟩ | n | n := rmwsCr1_owner own bit
    · exact notSetEnabled _ h
    · exact notInit _ _ _ _ h
    all_goals cases n
  case clken =>
    refine exec_content (r := .clken) (by decide) s e ?_
    cases i with
    | clockGateEnable => exact absurd rfl notGate
    | initPeripheral => exact absurd rfl (notInit _ _ _ _)
    | _ => simp [writes]
  case gate =>
    obtain same | opened := exec_clken e
    · rw [same]
    · have masked : bitAt (clkgateMask s.cfg) n = false := by
        rw [← Bool.not_eq_true]
        exact fun bit => notGate (eq_of_bitAt_bitMask bit)
      rw [opened, (clockGateBody_envOnly s).clken, bitAt_or, masked, Bool.or_false]
  case unnamed =>
    refine exec_cr1Bit notStart notStop e fun clr set own bit => ?_
    obtain ⟨n, -⟩ | ⟨n, -⟩ | n | n := rmwsCr1_owner own bit
    · exact notPe n
    · exact notAck n
    · exact notStart n
    · exact notStop n

end Sys2Proof.EnvProofs

/-! Proofs of the statements about the schedulers of R158 (43_peripheral_environment.md): an eager turn ends with nothing left to do,
and a whole send under the eager ENV goes from one state of rest to the next. -/

namespace Sys2Proof.EagerProofs

open Sys2Proof.Machine Sys2Proof.Safety Sys2Proof.Laws Sys2Proof.StateProofs Sys2Proof.EncodingProofs Sys2Proof.TransmitProofs
  Sys2Proof.EnvProofs

/-! ## Quiescence -/

section Quiescence
variable {c : Config} {p q : Periph} {m : EnvStep}

/-- R149 to R156: how many steps of the reference ENV can follow one another from here at most. A stop condition may be followed by
a start, and that by an address byte; a byte in the holding slot still has to be loaded and sent, one in the shift register to be
sent, and after the last `BTF` rises. -/
def stepsLeft (p : Periph) : Nat :=
  (if RegValues.stop p.rb then 3 else 0) +
  match p.env.phase with
  | .idle => 2
  | .started => 1
  | .addrSent | .nacked => 0
  | .data => (if p.env.holdValid then 2 else 0) + (if p.env.shiftValid then 1 else 0)
      + (if RegValues.flag p.rb .btf then 0 else 1)

theorem stepsLeft_le_eagerFuel (p : Periph) : stepsLeft p ≤ Periph.eagerFuel := by
  unfold stepsLeft Periph.eagerFuel
  cases p.env.phase <;> dsimp only <;> split_ifs <;> omega

/-- Every step leaves fewer to follow. -/
theorem stepsLeft_takeStep (enabled : Periph.stepEnabled c p m = true) : stepsLeft (Periph.takeStep m p) < stepsLeft p := by
  have keptStop : RegValues.stop (Periph.eStart p).rb = RegValues.stop p.rb := stop_setCr1 p.rb posStart false (by decide)
  have noStop : RegValues.stop (Periph.eStop p).rb = false := stop_setCr1 p.rb posStop false (by decide)
  cases m with
  | start =>
    obtain ⟨-, -, idle⟩ := stepEnabled_start_iff.1 enabled
    simp only [Periph.takeStep, stepsLeft, keptStop, idle]
    simp [Periph.eStart]
  | addr a =>
    obtain ⟨-, started, -⟩ := stepEnabled_addr_iff.1 enabled
    cases a <;> simp [Periph.takeStep, Periph.eAddr, stepsLeft, started]
  | drained =>
    obtain ⟨-, data, holdEmpty, shiftEmpty, btf⟩ := stepEnabled_drained_iff.1 enabled
    simp [Periph.takeStep, Periph.eDrained, stepsLeft, data, holdEmpty, shiftEmpty, btf]
    rfl
  | load =>
    obtain ⟨-, data, full, empty⟩ := stepEnabled_load_iff.1 enabled
    simp [Periph.takeStep, Periph.eLoad, stepsLeft, data, full, empty]
  | stop =>
    obtain ⟨-, stop⟩ := stepEnabled_stop_iff.1 enabled
    simp only [Periph.takeStep, stepsLeft, noStop, stop]
    simp [Periph.eStop]
    omega
  | shiftDone a =>
    obtain ⟨-, data, full⟩ := stepEnabled_shiftDone_iff.1 enabled
    cases a <;> simp [Periph.takeStep, Periph.eShiftDone, stepsLeft, data, full]

theorem stepsLeft_refStep (h : Periph.refStep c p = some q) : stepsLeft q < stepsLeft p := by
  obtain ⟨m, acks, enabled, rfl⟩ := refStep_takes h
  exact stepsLeft_takeStep enabled

/-- The steps of R158 from one state of the peripheral to another. -/
abbrev Steps (c : Config) : Periph → Periph → Prop := Relation.ReflTransGen fun a b => Periph.refStep c a = some b

theorem runRef_steps (c : Config) (n : Nat) (p : Periph) : Steps c p (Periph.runRef c n p) := by
  induction n generalizing p with
  | zero => exact .refl
  | succ n ih =>
    unfold Periph.runRef
    cases h : Periph.refStep c p with
    | none => exact .refl
    | some q => exact .head h (ih q)

/-- With enough fuel a run ends where the steps end. -/
theorem runRef_quiet {n : Nat} (enough : stepsLeft p ≤ n) : Periph.refStep c (Periph.runRef c n p) = none := by
  induction n generalizing p with
  | zero =>
    refine Option.eq_none_iff_forall_ne_some.2 fun q h => ?_
    exact absurd (stepsLeft_refStep h) (by change ¬ _ < stepsLeft p; omega)
  | succ n ih =>
    unfold Periph.runRef
    cases h : Periph.refStep c p with
    | none => exact h
    | some q =>
      have fewer := stepsLeft_refStep h
      exact ih (by omega)

theorem runEager_quiet (c : Config) (p : Periph) : Periph.refStep c (Periph.runEager c p) = none :=
  runRef_quiet (stepsLeft_le_eagerFuel p)

theorem runRef_eq {n : Nat} (steps : Steps c p q) (quiet : Periph.refStep c q = none) (enough : stepsLeft p ≤ n) :
    Periph.runRef c n p = q := by
  induction steps using Relation.ReflTransGen.head_induction_on generalizing n with
  | refl =>
    unfold Periph.runRef
    cases n with
    | zero => rfl
    | succ n => rw [quiet]
  | head first _ ih =>
    have fewer := stepsLeft_refStep first
    cases n with
    | zero => omega
    | succ n =>
      unfold Periph.runRef
      rw [first]
      exact ih (by omega)

/-- R158: an eager turn goes to the one quiescent state that the steps lead to. -/
theorem runEager_eq (steps : Steps c p q) (quiet : Periph.refStep c q = none) : Periph.runEager c p = q :=
  runRef_eq steps quiet (stepsLeft_le_eagerFuel p)

end Quiescence

/-! ## Turns under the two schedulers -/

section Turns
variable {c : Config} {p : Periph}

theorem turn_of_eager (eager : p.env.sched = .eager) {w : Periph.TurnPoint} (access : w ≠ .internal) :
    Periph.turn c w p = Periph.runEager c p := by
  unfold Periph.turn
  rw [eager]
  cases w with
  | bus | buffer => rfl
  | internal => exact absurd rfl access

theorem turn_of_lazy {k : Nat} (lazy : p.env.sched = .lazy k) (n : Nat) :
    Periph.turn c (.bus n) p = if n % k = 0 then (Periph.refStep c p).getD p else p := by
  have once : Periph.runOnce c p = (Periph.refStep c p).getD p := by
    unfold Periph.runOnce
    cases Periph.refStep c p <;> rfl
  unfold Periph.turn
  rw [lazy, ← once]
  simp only [beq_iff_eq]

theorem busCount_append (acc : List Access) (a : Access) (bus : a.isBus = true) : busCount (acc ++ [a]) = busCount acc + 1 := by
  simp [busCount, bus]

end Turns

/-- Settles O54: an eager turn is a run of enough fuel, and a lazy one is at most one step. -/
theorem eagerRunsToQuiescence : Obligations.EagerRunsToQuiescence := by
  refine ⟨runEager_quiet, fun s => ⟨fun eager => ?eager, fun k lazy => ?lazy⟩⟩
  case eager =>
    have ends : ∀ (p : Periph) (w : Periph.TurnPoint), p.env.sched = .eager → w ≠ .internal →
        Steps s.cfg p (Periph.turn s.cfg w p) ∧ Periph.refStep s.cfg (Periph.turn s.cfg w p) = none := by
      intro p w eager access
      rw [turn_of_eager eager access]
      exact ⟨runRef_steps s.cfg _ p, runEager_quiet s.cfg p⟩
    refine ⟨fun r => ?read, fun r v => ?write, fun a => ?buffer⟩
    case read => rw [regRead_per]; exact ends _ _ ((readEffect_sched r s.per).trans eager) (by simp)
    case write => rw [regWrite_per]; exact ends _ _ ((writeEffect_sched r v s.per).trans eager) (by simp)
    case buffer => rw [bufRead_per]; exact ends _ _ eager (by simp)
  case lazy =>
    refine ⟨fun r => ?read, fun r v => ?write, fun a => ?buffer⟩
    case read =>
      rw [regRead_per, turn_of_lazy ((readEffect_sched r s.per).trans lazy), busCount_append _ _ rfl]
    case write =>
      rw [regWrite_per, turn_of_lazy ((writeEffect_sched r v s.per).trans lazy), busCount_append _ _ rfl]
    case buffer =>
      rw [bufRead_per, Periph.turn, lazy]

/-! ## The eager ENV at rest between two accesses of a send -/

/-- R150 to R156: the flags that tell SEQ how far ENV has come, in each phase where it rests. -/
def shown (ph : Phase) : List Flag :=
  match ph with
  | .started => [.sb]
  | .addrSent => [.addr]
  | .data => [.txe, .btf]
  | .idle | .nacked => []

/-- The eager reference ENV, enabled, at rest in a phase with both slots empty and no request, with every draw 1. -/
structure AtRest (c : Config) (ph : Phase) (w : List WireEvent) (p : Periph) : Prop where
  sched : p.env.sched = .eager
  acks : p.env.acks = []
  on : Periph.envEnabled c p = true
  phase : p.env.phase = ph
  hold : p.env.holdValid = false
  shift : p.env.shiftValid = false
  start : RegValues.start p.rb = false
  stop : RegValues.stop p.rb = false
  flags : ∀ f ∈ shown ph, RegValues.flag p.rb f = true
  wire : p.env.wire = w

namespace AtRest
variable {c : Config} {ph : Phase} {w : List WireEvent} {p : Periph}

theorem isRef (h : AtRest c ph w p) : Periph.isRef p = true := by
  unfold Periph.isRef
  rw [h.sched]

theorem isScheduled (h : AtRest c ph w p) : Periph.isScheduled p = true := by
  unfold Periph.isScheduled
  rw [h.sched]

theorem gate (h : AtRest c ph w p) : RegValues.clkgate c p.rb = true := (envEnabled_iff.1 h.on).1

/-- With `BTF` set in the data phase, nothing is left to do. -/
theorem quiet (h : AtRest c ph w p) : Periph.refStep c p = none := by
  refine refStep_eq_none.2 fun m => ?_
  rw [← Bool.not_eq_true]
  intro enabled
  cases m with
  | start => simp [stepEnabled_start_iff, h.start] at enabled
  | addr a => simp [stepEnabled_addr_iff, h.hold] at enabled
  | drained =>
    obtain ⟨-, data, -, -, low⟩ := stepEnabled_drained_iff.1 enabled
    have high := h.flags .btf (by simp [shown, h.phase.symm.trans data])
    simp [high] at low
  | load => simp [stepEnabled_load_iff, h.hold] at enabled
  | stop => simp [stepEnabled_stop_iff, h.stop] at enabled
  | shiftDone a => simp [stepEnabled_shiftDone_iff, h.shift] at enabled

/-- The two-step clear is none of ENV's. -/
theorem withArmed (h : AtRest c ph w p) (b : Bool) : AtRest c ph w { p with clrArmed := b } :=
  ⟨h.sched, h.acks, h.on, h.phase, h.hold, h.shift, h.start, h.stop, h.flags, h.wire⟩

end AtRest

/-- The steps of the reference ENV from `p` on end at rest. -/
def ComesToRest (c : Config) (ph : Phase) (w : List WireEvent) (p : Periph) : Prop := ∃ q, Steps c p q ∧ AtRest c ph w q

section Access
variable {c : Config} {ph : Phase} {w : List WireEvent} {p : Periph}

theorem ComesToRest.head {q : Periph} (h : ComesToRest c ph w q) (step : Periph.refStep c p = some q) : ComesToRest c ph w p := by
  obtain ⟨r, steps, rest⟩ := h
  exact ⟨r, .head step steps, rest⟩

/-- R158: it is at rest after its turn. -/
theorem ComesToRest.turn (h : ComesToRest c ph w p) (eager : p.env.sched = .eager) {at_ : Periph.TurnPoint}
    (access : at_ ≠ .internal) : AtRest c ph w (Periph.turn c at_ p) := by
  obtain ⟨q, steps, rest⟩ := h
  rw [turn_of_eager eager access, runEager_eq steps rest.quiet]
  exact rest

/-- At rest a turn does nothing. -/
theorem AtRest.turn_eq (h : AtRest c ph w p) (at_ : Periph.TurnPoint) : Periph.turn c at_ p = p := by
  cases at_ with
  | internal => exact turn_internal_of_isScheduled h.isScheduled
  | bus | buffer => exact (turn_of_eager h.sched (by simp)).trans (runEager_eq .refl h.quiet)

/-! ## What each access of a send leads to -/

/-- R44, R118, R129: the peripheral after a `CR1` write that sets the bits of `m`. -/
def requested (m : Word) (p : Periph) : Periph := { p with rb := { p.rb with cr1 := p.rb.cr1 ||| m }, clrArmed := false }

theorem requested_bit (m : Word) (p : Periph) (n : Nat) :
    bitAt (requested m p).rb.cr1 n = (bitAt p.rb.cr1 n || bitAt m n) := bitAt_or _ _ n

theorem envEnabled_requested (m : Word) (on : Periph.envEnabled c p = true) : Periph.envEnabled c (requested m p) = true := by
  obtain ⟨gate, pe⟩ := envEnabled_iff.1 on
  exact envEnabled_iff.2 ⟨gate, (requested_bit m p posPe).trans (Bool.or_eq_true_iff.2 (.inl pe))⟩

theorem envEnabled_of_envOnly {q : Periph} (h : EnvOnly p q) (on : Periph.envEnabled c p = true) :
    Periph.envEnabled c q = true := by
  obtain ⟨gate, pe⟩ := envEnabled_iff.1 on
  exact envEnabled_iff.2 ⟨(h.clkgate c).trans gate, h.pe.trans pe⟩

/-- R118, R149: `START` requested, the start condition is generated. -/
theorem AtRest.startRequested (h : AtRest c .idle w p) : ComesToRest c .started (w ++ [.start]) (requested startMask p) := by
  have on := envEnabled_requested startMask h.on
  have start : RegValues.start (requested startMask p).rb = true :=
    (requested_bit startMask p posStart).trans (Bool.or_eq_true_iff.2 (.inr (by decide)))
  have noStop : RegValues.stop (requested startMask p).rb = false :=
    (requested_bit startMask p posStop).trans (Bool.or_eq_false_iff.2 ⟨h.stop, by decide⟩)
  refine ⟨Periph.eStart (requested startMask p), .single (refStep_of_enabled (m := .start)
    (stepEnabled_start_iff.2 ⟨on, start, h.phase⟩) (by simp [Periph.stepOrder]) (.inl noStop)), ?_⟩
  refine ⟨h.sched, h.acks, envEnabled_of_envOnly (eStart_envOnly _) on, rfl, h.hold, h.shift,
    start_setCr1 _ posStart false (by decide), (stop_setCr1 _ posStart false (by decide)).trans noStop, ?flags, ?wire⟩
  case flags => simp [shown, Periph.eStart]
  case wire => rw [← h.wire]; rfl

/-- R129, R155: `STOP` requested, the stop condition is generated and cuts off nothing. -/
theorem AtRest.stopRequested (h : AtRest c .data w p) : ComesToRest c .idle (w ++ [.stop]) (requested stopMask p) := by
  have on := envEnabled_requested stopMask h.on
  have noStart : RegValues.start (requested stopMask p).rb = false :=
    (requested_bit stopMask p posStart).trans (Bool.or_eq_false_iff.2 ⟨h.start, by decide⟩)
  have stop : RegValues.stop (requested stopMask p).rb = true :=
    (requested_bit stopMask p posStop).trans (Bool.or_eq_true_iff.2 (.inr (by decide)))
  have whole : Periph.stopEvent (requested stopMask p) = .stop := by simp [Periph.stopEvent, requested, h.hold, h.shift]
  refine ⟨Periph.eStop (requested stopMask p), .single (refStep_of_enabled (m := .stop) (stepEnabled_stop_iff.2 ⟨on, stop⟩)
    (by simp [Periph.stepOrder]) (.inr rfl)), ?_⟩
  refine ⟨h.sched, h.acks, envEnabled_of_envOnly (eStop_envOnly _) on, rfl, rfl, rfl,
    (start_setCr1 _ posStop false (by decide)).trans noStart, stop_setCr1 _ posStop false (by decide), ?flags, ?wire⟩
  case flags => simp [shown]
  case wire => rw [← h.wire, ← whole]; rfl

/-- R120, R150, R151: the address byte is sent and acknowledged. -/
theorem AtRest.addressWritten (h : AtRest c .started w p) (b : Byte) :
    ComesToRest c .addrSent (w ++ [.byte b true]) (writeEffect .dr (b.setWidth 32) p) := by
  have byte : (b.setWidth 32).setWidth 8 = b := by simp
  rw [drWrite_of_started _ h.phase, if_pos h.isRef, byte]
  refine ⟨_, .single (refStep_of_drawing (m := .addr true) (stepEnabled_addr_iff.2 ⟨h.on, h.phase, rfl⟩) h.stop
    (.inl (by simp [h.acks]))), ?_⟩
  refine ⟨h.sched, congrArg List.tail h.acks, h.on, rfl, rfl, h.shift, h.start, h.stop, ?flags, ?wire⟩
  case flags => simp [shown, withAcks, Periph.takeStep, Periph.eAddr]
  case wire => rw [← h.wire]; rfl

/-- R153: in the data phase with both slots empty, it is at rest or `BTF` rises. -/
theorem comesToRest_drained (sched : p.env.sched = .eager) (acks : p.env.acks = []) (on : Periph.envEnabled c p = true)
    (data : p.env.phase = .data) (hold : p.env.holdValid = false) (shift : p.env.shiftValid = false)
    (start : RegValues.start p.rb = false) (stop : RegValues.stop p.rb = false) (txe : RegValues.flag p.rb .txe = true) :
    ComesToRest c .data p.env.wire p := by
  cases btf : RegValues.flag p.rb .btf with
  | true => exact ⟨p, .refl, sched, acks, on, data, hold, shift, start, stop, by simp [shown, txe, btf], rfl⟩
  | false =>
    refine ⟨Periph.eDrained p, .single (refStep_of_enabled (m := .drained)
      (stepEnabled_drained_iff.2 ⟨on, data, hold, shift, btf⟩) (by simp [Periph.stepOrder]) (.inl stop)), ?_⟩
    exact ⟨sched, acks, on, data, hold, shift, start, stop, by simp [shown, Periph.eDrained, txe], rfl⟩

/-- R123, R152: the clearing read ends the address phase. -/
theorem AtRest.latchRead (h : AtRest c .addrSent w p) (armed : p.clrArmed = true) : ComesToRest c .data w (readEffect .sr2 p) := by
  rw [sr2Read_of_ending armed (addrPhaseEnds_iff.2 (.inl h.phase)), if_pos h.isRef, ← h.wire]
  exact comesToRest_drained h.sched h.acks h.on rfl h.hold h.shift h.start h.stop (by simp)

/-- R126, R150, R154, R156: a data byte is loaded, sent and acknowledged. -/
theorem AtRest.byteWritten (h : AtRest c .data w p) (b : Byte) :
    ComesToRest c .data (w ++ [.byte b true]) (writeEffect .dr (b.setWidth 32) p) := by
  have byte : (b.setWidth 32).setWidth 8 = b := by simp
  rw [drWrite_of_taking _ (.inl h.phase), if_pos h.isRef, byte, ← h.wire]
  refine ComesToRest.head ?_ (refStep_of_enabled (m := .load) (stepEnabled_load_iff.2 ⟨h.on, h.phase, rfl, h.shift⟩)
    (by simp [Periph.stepOrder]) (.inl h.stop))
  refine ComesToRest.head ?_ (refStep_of_drawing (m := .shiftDone true)
    (stepEnabled_shiftDone_iff.2 ⟨h.on, h.phase, rfl⟩) h.stop (.inr ?draw))
  · exact comesToRest_drained h.sched (congrArg List.tail h.acks) h.on h.phase rfl rfl h.start h.stop
      (by simp [withAcks, Periph.takeStep, Periph.eShiftDone, Periph.eLoad, Periph.drawFor])
  case draw => simp [Periph.takeStep, Periph.eLoad, Periph.drawFor, h.acks]

end Access

section Accesses
variable {ph : Phase} {w : List WireEvent} {s : State}

/-- At rest a read other than of `SR2` leads to no step of ENV. -/
theorem AtRest.regRead_per_eq (h : AtRest s.cfg ph w s.per) {r : ReadReg} (notSr2 : r ≠ .sr2) :
    (regRead r s).2.per = readEffect r s.per := by
  have same : ∃ b, readEffect r s.per = { s.per with clrArmed := b } := by
    cases r with
    | sr2 => exact absurd rfl notSr2
    | sr1 => exact ⟨RegValues.flag s.per.rb .addr, rfl⟩
    | clken => exact ⟨s.per.clrArmed, rfl⟩
    | _ => exact ⟨false, rfl⟩
  obtain ⟨b, same⟩ := same
  rw [regRead_per, same]
  exact (h.withArmed b).turn_eq _

theorem AtRest.readsSr1 (h : AtRest s.cfg ph w s.per) : AtRest s.cfg ph w (regRead .sr1 s).2.per := by
  rw [h.regRead_per_eq (by decide)]
  exact h.withArmed _

/-- R158: after an access ENV goes on until it is at rest. -/
theorem AtRest.regWrite_of {ph' : Phase} {w' : List WireEvent} {r : WriteReg} {v : Word} (h : AtRest s.cfg ph w s.per)
    (rests : ComesToRest s.cfg ph' w' (writeEffect r v s.per)) : AtRest s.cfg ph' w' (regWrite r v s).per := by
  rw [regWrite_per]
  exact rests.turn ((writeEffect_sched r v _).trans h.sched) (by simp)

theorem AtRest.regRead_of {ph' : Phase} {w' : List WireEvent} {r : ReadReg} (h : AtRest s.cfg ph w s.per)
    (rests : ComesToRest s.cfg ph' w' (readEffect r s.per)) : AtRest s.cfg ph' w' (regRead r s).2.per := by
  rw [regRead_per]
  exact rests.turn ((readEffect_sched r _).trans h.sched) (by simp)

/-- R44, R158: ENV comes to rest after a read-modify-write that sets bits of `CR1`. -/
theorem AtRest.setCr1Bits {ph' : Phase} {w' : List WireEvent} {m : Word} (h : AtRest s.cfg ph w s.per)
    (notPe : bitAt m posPe = false) (rests : ComesToRest s.cfg ph' w' (requested m s.per)) :
    AtRest s.cfg ph' w' (regRmw .cr1 m m s).per := by
  have read : (regRead .cr1 s).2.per = { s.per with clrArmed := false } := h.regRead_per_eq (by decide)
  have written : writeEffect .cr1 (rmwValue s.per.rb.cr1 m m) (regRead .cr1 s).2.per = requested m s.per := by
    rw [read, rmwValue_own]
    exact cr1WriteEffect_of_pe ((bitAt_or _ _ _).trans (by rw [notPe, Bool.or_false]; rfl))
  have between : AtRest s.cfg ph w (regRead .cr1 s).2.per := read ▸ h.withArmed false
  exact AtRest.regWrite_of (s := setTmp s.per.rb.cr1 (regRead .cr1 s).2) between (written.symm ▸ rests)

end Accesses

/-! ## The micro-steps of a send -/

/-- A micro-step that is refused nothing goes on: the gate is on and every `DR` write is described. -/
theorem exec_instr {s : State} (gate : RegValues.clkgate s.cfg s.per.rb = true) (ref : Periph.isRef s.per = true) (u : Upc) :
    exec u.instr s = .next (nextState u.instr s) := by
  have dr : ∀ (b : Byte) (t : State) (k : State → State), Periph.isRef t.per = true →
      whenClocked s (drWriteThen b t k) = .next (k (regWrite .dr (b.setWidth 32) t)) := fun b t k ref =>
    (whenClocked_of_gate _ gate).trans (drWriteThen_of_described k (drWriteDescribed_of_isRef ref))
  cases u with
  | u0 | u7 => rfl
  | u3 => exact dr _ s _ ref
  | u9 => exact dr _ _ _ ((bufRead_isRef _ s).trans ref)
  | _ => exact whenClocked_of_gate _ gate

/-- Between two micro-steps of the send that the state `s` begins: at `u` with `idx` bytes written, ENV at rest. -/
structure Sends (s : State) (u : Upc) (idx : Word) (ph : Phase) (w : List WireEvent) (t : State) : Prop where
  cfg : t.cfg = s.cfg
  buf : t.buf = s.buf
  ports : t.ports = s.ports
  mtc : ∃ tmp, t.mtc = { s.mtc with upc := u, idx := idx, tmp := tmp }
  rest : AtRest t.cfg ph w t.per

/-- A command is in execution, and the host does nothing. -/
structure Executing (s : State) : Prop where
  wf : s.cfg.wf = true
  host : s.ports.host = []
  busy : s.mtc.busy = true

/-- `k` steps lead from one state to another. -/
def Reaches (k : Nat) (s t : State) : Prop := ∀ n, Host.Core.run core (n + k) s = Host.Core.run core n t

theorem Reaches.trans {j k : Nat} {s t u : State} (h : Reaches j s t) (i : Reaches k t u) : Reaches (k + j) s u := fun n => by
  rw [← Nat.add_assoc, h (n + k), i n]

section MicroSteps
variable {s t : State} {u : Upc} {idx : Word} {ph : Phase} {w : List WireEvent}

theorem Sends.idx_eq (h : Sends s u idx ph w t) : t.mtc.idx = idx := by
  obtain ⟨_, mtc⟩ := h.mtc
  rw [mtc]

/-- R66, R117: a step runs the micro-step at `UPC`. -/
theorem Sends.reaches (h : Sends s u idx ph w t) (busy : Executing s) : Reaches 1 t (nextState u.instr t) := by
  obtain ⟨_, mtc⟩ := h.mtc
  have stepped : step t = .next (nextState u.instr t) := by
    rw [step_of_busy (by rw [h.cfg]; exact busy.wf) (by rw [h.ports]; exact busy.host) (by rw [mtc]; exact busy.busy),
      show t.mtc.upc = u by rw [mtc]]
    exact exec_instr h.rest.gate h.rest.isRef u
  exact fun n => run_of_step (M := core) stepped

/-- A micro-step that answers nothing stays within the send. -/
theorem Sends.moves (h : Sends s u idx ph w t) {u' : Upc} {idx' : Word} {ph' : Phase} {w' : List WireEvent}
    (ports : (nextState u.instr t).ports = t.ports) (idx_eq : (nextState u.instr t).mtc.idx = idx')
    (mtc : ∃ tmp, (nextState u.instr t).mtc =
      { t.mtc with upc := u', idx := (nextState u.instr t).mtc.idx, tmp := tmp })
    (rest : AtRest t.cfg ph' w' (nextState u.instr t).per) : Sends s u' idx' ph' w' (nextState u.instr t) := by
  have went := exec_instr h.rest.gate h.rest.isRef u
  obtain ⟨_, before⟩ := h.mtc
  obtain ⟨tmp, after⟩ := mtc
  have cfg := exec_cfg went
  exact ⟨cfg.trans h.cfg, (exec_buf went).trans h.buf, ports.trans h.ports, ⟨tmp, by rw [after, before, idx_eq]⟩,
    cfg ▸ rest⟩

/-- R119, R121, R125, R127, R128: a poll for a flag that is shown goes on at once. -/
theorem Sends.polls (h : Sends s u idx ph w t) {f : Flag} {next : Upc} (poll : PollsFor u f next) (high : f ∈ shown ph) :
    Sends s next idx ph w (nextState u.instr t) := by
  have next_eq := poll.nextState_eq t
  have flag : bitAt t.per.rb.sr1 f.pos = true := h.rest.flags f high
  refine h.moves ?ports ?idx ⟨t.mtc.tmp, ?mtc⟩ ?rest <;> rw [next_eq]
  case ports => rfl
  case idx => exact h.idx_eq
  case mtc => rw [pollFlag_mtc, if_pos flag]
  case rest => exact h.rest.readsSr1

/-- R118: SEQ_START_SET, up to the start condition. -/
theorem Sends.startSet (h : Sends s .u1 idx .idle w t) :
    Sends s .u2 idx .started (w ++ [.start]) (nextState Upc.u1.instr t) :=
  h.moves rfl h.idx_eq ⟨_, rfl⟩ (h.rest.setCr1Bits (by decide) h.rest.startRequested)

/-- R120: SEQ_ADDR_WRITE, up to the acknowledge. -/
theorem Sends.addrWrite (h : Sends s .u3 idx .started w t) :
    Sends s .u4 idx .addrSent (w ++ [.byte (addrByte s.mtc.tAddr) true]) (nextState Upc.u3.instr t) := by
  obtain ⟨tmp, mtc⟩ := h.mtc
  refine h.moves rfl h.idx_eq ⟨t.mtc.tmp, rfl⟩ ?_
  rw [show addrByte s.mtc.tAddr = addrByte t.mtc.tAddr by rw [mtc]]
  exact h.rest.regWrite_of (h.rest.addressWritten _)

/-- R122: the first clearing read arms, over the latched `ADDR`. -/
theorem Sends.clrSr1 (h : Sends s .u5 idx .addrSent w t) :
    Sends s .u6 idx .addrSent w (nextState Upc.u5.instr t) ∧ (nextState Upc.u5.instr t).per.clrArmed = true := by
  refine ⟨h.moves rfl h.idx_eq ⟨t.mtc.tmp, rfl⟩ h.rest.readsSr1, ?_⟩
  show (regRead .sr1 t).2.per.clrArmed = true
  rw [h.rest.regRead_per_eq (by decide)]
  exact h.rest.flags .addr (by simp [shown])

/-- R123: the second one ends the address phase. -/
theorem Sends.clrSr2 (h : Sends s .u6 idx .addrSent w t) (armed : t.per.clrArmed = true) :
    Sends s .u7 idx .data w (nextState Upc.u6.instr t) :=
  h.moves rfl h.idx_eq ⟨t.mtc.tmp, rfl⟩ (h.rest.regRead_of (h.rest.latchRead armed))

/-- R124: the loop goes on while bytes are left. -/
theorem Sends.loopTest (h : Sends s .u7 idx .data w t) :
    Sends s (if idx.toNat < s.mtc.tLen.toNat then .u8 else .u10) idx .data w (nextState Upc.u7.instr t) := by
  obtain ⟨tmp, mtc⟩ := h.mtc
  refine h.moves rfl h.idx_eq ⟨t.mtc.tmp, ?_⟩ ?_
  · rw [← h.idx_eq, show s.mtc.tLen = t.mtc.tLen by rw [mtc]]
    rfl
  · show AtRest t.cfg .data w (internalTurn t).per
    rw [internalTurn_per, h.rest.turn_eq]
    exact h.rest

/-- R126: SEQ_DATA_WRITE, up to the acknowledge. -/
theorem Sends.dataWrite (h : Sends s .u9 idx .data w t) :
    Sends s .u7 (idx + 1) .data (w ++ [.byte (Memory.read s.buf (s.mtc.tPtr + idx).toNat) true]) (nextState Upc.u9.instr t) := by
  obtain ⟨tmp, mtc⟩ := h.mtc
  refine h.moves rfl (congrArg (· + 1) h.idx_eq) ⟨t.mtc.tmp, rfl⟩ ?_
  have same : (bufRead (bufferAddr t.mtc) t).2.per = t.per := (bufRead_per _ t).trans (h.rest.turn_eq _)
  have byte : Memory.read s.buf (s.mtc.tPtr + idx).toNat = (bufRead (bufferAddr t.mtc) t).1 := by
    rw [bufRead_value, h.buf, bufferAddr, mtc]
  have between : AtRest t.cfg .data w (bufRead (bufferAddr t.mtc) t).2.per := same.symm ▸ h.rest
  rw [byte]
  exact AtRest.regWrite_of (s := (bufRead (bufferAddr t.mtc) t).2) between (between.byteWritten _)

/-! ## The send -/

/-- R118 to R123: six micro-steps from the start condition to the data phase. -/
theorem Sends.address (h : Sends s .u1 idx .idle w t) (busy : Executing s) : ∃ t', Reaches 6 t t'
    ∧ Sends s .u7 idx .data (w ++ [.start, .byte (addrByte s.mtc.tAddr) true]) t' := by
  have h2 := h.startSet
  have h3 := h2.polls .sb (by simp [shown])
  have h4 := h3.addrWrite
  have h5 := h4.polls .addr (by simp [shown])
  obtain ⟨h6, armed⟩ := h5.clrSr1
  have h7 := h6.clrSr2 armed
  refine ⟨_, (h.reaches busy).trans (h2.reaches busy) |>.trans (h3.reaches busy) |>.trans (h4.reaches busy)
    |>.trans (h5.reaches busy) |>.trans (h6.reaches busy), ?_⟩
  simpa using h7

/-- R124 to R126: three micro-steps for each byte left. -/
theorem Sends.bytes (n : Nat) (h : Sends s .u7 idx .data w t) (busy : Executing s) (left : idx.toNat + n = s.mtc.tLen.toNat) :
    ∃ t', Reaches (3 * n) t t' ∧ Sends s .u7 s.mtc.tLen .data
      (w ++ (bufferBytes s.buf (s.mtc.tPtr + idx) n).map fun b => WireEvent.byte b true) t' := by
  induction n generalizing idx w t with
  | zero =>
    obtain rfl : idx = s.mtc.tLen := BitVec.eq_of_toNat_eq left
    exact ⟨t, fun n => rfl, by simpa [bufferBytes] using h⟩
  | succ n ih =>
    have h8 := h.loopTest
    rw [if_pos (by omega)] at h8
    have h9 := h8.polls .txe (by simp [shown])
    have h7 := h9.dataWrite
    have bumped : (idx + 1).toNat = idx.toNat + 1 := by
      have bound := s.mtc.tLen.isLt
      rw [BitVec.toNat_add]
      exact Nat.mod_eq_of_lt (by simp; omega)
    obtain ⟨t', reaches, sends⟩ := ih h7 (by omega)
    refine ⟨t', (((h.reaches busy).trans (h8.reaches busy)).trans (h9.reaches busy)).trans reaches, ?_⟩
    simpa [bufferBytes, BitVec.add_assoc] using sends

/-- R124, R127 to R129: four micro-steps from the last byte to the stop condition and the response. -/
theorem Sends.stop (h : Sends s .u7 s.mtc.tLen .data w t) (busy : Executing s) : ∃ t', Reaches 4 t t'
    ∧ t'.mtc.busy = false ∧ t'.mtc.upc = .u0 ∧ t'.ports.rsp = some ⟨false, false⟩
    ∧ AtRest s.cfg .idle (w ++ [.stop]) t'.per := by
  have h10 := h.loopTest
  rw [if_neg (lt_irrefl _)] at h10
  have h11 := h10.polls .drain (by simp [shown])
  have h12 := h11.polls .btf (by simp [shown])
  refine ⟨_, (((h.reaches busy).trans (h10.reaches busy)).trans (h11.reaches busy)).trans (h12.reaches busy), rfl, rfl, rfl, ?_⟩
  rw [← h12.cfg]
  exact h12.rest.setCr1Bits (by decide) h12.rest.stopRequested

end MicroSteps

/-- Settles O58: the address, the bytes and the stop, one after another. -/
theorem eagerSendTerminates : Obligations.EagerSendTerminates := by
  intro s s1 addr ptr len wf host busy sched acks on idle hold shift start stop _ _ _ _ accepted
  obtain rfl := exec_next accepted
  have first : Sends (nextState (.masterSend addr ptr len) s) .u1 0 .idle s.per.env.wire (nextState (.masterSend addr ptr len) s) :=
    ⟨rfl, rfl, rfl, ⟨s.mtc.tmp, rfl⟩, sched, acks, on, idle, hold, shift, start, stop, by simp [shown], rfl⟩
  have executing : Executing (nextState (.masterSend addr ptr len) s) := ⟨wf, host, busy⟩
  obtain ⟨t1, reaches1, sends1⟩ := first.address executing
  obtain ⟨t2, reaches2, sends2⟩ := sends1.bytes len.toNat executing (Nat.zero_add _)
  obtain ⟨t, reaches3, ended, upc, rsp, rest⟩ := sends2.stop executing
  refine ⟨t, ?run, ended, upc, rsp, rest.phase, rest.stop, rest.start, ?wire⟩
  case run =>
    have total := ((reaches1.trans reaches2).trans reaches3) 0
    rw [show 10 + 3 * len.toNat = 0 + (4 + (3 * len.toNat + 6)) by omega]
    exact total
  case wire =>
    rw [rest.wire, show (nextState (.masterSend addr ptr len) s).mtc.tPtr + 0 = ptr from BitVec.add_zero ptr]
    rfl

end Sys2Proof.EagerProofs

/-! Proofs of the statements about exceptions (60_exceptions.md). MTC has none to take: what stands in their place is the answer
to an illegal command (R165). -/

namespace Sys2Proof.ExceptionProofs

open Sys2Proof.Machine Sys2Proof.EncodingProofs

/-- R72: an accepted command that does not decode is illegal work, whatever the error. -/
theorem decodeAccepted_of_error {s : State} {e : DecodeError} (malformed : decodeCommand s.mtc.cmd = .error e) :
    decodeAccepted s = .illegal s := by
  unfold decodeAccepted
  rw [malformed]

/-- Settles O7: the malformed command is fetched, and the answer is given over the state that accepted it. -/
theorem illegalCommandIsAnsweredOnly : Obligations.IllegalCommandIsAnsweredOnly := by
  intro s w rest e wf rst ready offered malformed
  have malformed : decodeCommand (accept w rest (hostTurn s)).mtc.cmd = .error e := malformed
  calc step s
      = runWork (fetch (hostTurn s)) := step_eq_runWork wf rst
    _ = runWork (decodeAccepted (accept w rest (hostTurn s))) := by rw [fetch_of_offered ready offered]
    _ = runWork (.illegal (accept w rest (hostTurn s))) := by rw [decodeAccepted_of_error malformed]
    _ = .next (respondIllegal (accept w rest (hostTurn s))) := rfl

end Sys2Proof.ExceptionProofs

/-! Proofs of the statements about reset and hazards (70_reset_and_hazards.md): `rst`, the stop that truncates nothing, and the send
under a weakly fair ENV. -/

namespace Sys2Proof.HazardProofs

open Sys2Proof.Machine Sys2Proof.Safety Sys2Proof.Laws Sys2Proof.StateProofs Sys2Proof.EncodingProofs Sys2Proof.TransmitProofs
  Sys2Proof.EnvProofs Sys2Proof.EagerProofs

/-! ## Reset -/

/-- R180: in a step with `rst` nothing but the reset happens. -/
theorem step_of_rst {s : State} {rest : List HostMove} (wf : s.cfg.wf = true) (host : s.ports.host = .rst :: rest) :
    step s = .next (rstState { s with ports := { s.ports with host := rest } }) := by
  unfold step
  rw [if_pos wf, rstAsserted, hostTurn, host]
  rfl

/-- Settles O8: each field is written so in the state that `rst` leaves. -/
theorem rstResetsTheSystem : Obligations.RstResetsTheSystem := fun _ _ wf host =>
  ⟨_, step_of_rst wf host, rfl, rfl, rfl, rfl, rfl, rfl, rfl, rfl, rfl, rfl, rfl, rfl, rfl, rfl⟩

/-! ## A stop with both slots drained -/

/-- R155: with both slots empty a stop condition cuts off nothing. -/
theorem stopEvent_of_empty {p : Periph} (hold : p.env.holdValid = false) (shift : p.env.shiftValid = false) :
    Periph.stopEvent p = .stop := by
  simp [Periph.stopEvent, hold, shift]

/-- R144: nor does it, with both slots empty, whatever it is said to keep. -/
theorem stopEventWith_of_empty {p : Periph} (keepHold keepShift : Bool) (hold : p.env.holdValid = false)
    (shift : p.env.shiftValid = false) : Periph.stopEventWith keepHold keepShift p = .stop := by
  simp [Periph.stopEventWith, hold, shift]

/-- Settles O14: under either kind of ENV the flags say that both slots are empty, and then a stop condition loses no byte. -/
theorem drainedStopTruncatesNothing : Obligations.DrainedStopTruncatesNothing := by
  intro c p slots btf
  refine ⟨fun q ref data stop taken => ?reference, fun keepHold keepShift clear other gate txe => ?other⟩
  case reference =>
    obtain ⟨-, -, drained, -, -⟩ := (slotInv_iff_of_isRef ref).1 slots
    obtain ⟨hold, shift⟩ := drained data btf
    have stopped : q = Periph.eStop p := by
      obtain picked | ⟨on, rfl⟩ := taken
      · obtain ⟨m, -, -, rfl, stops⟩ := refStep_cases picked
        rw [stops stop]
        rfl
      · exact envStep_of_enabled (stepEnabled_stop_iff.2 ⟨on, stop⟩)
    rw [stopped, ← stopEvent_of_empty hold shift]
    rfl
  case other =>
    obtain ⟨holdEmpty, shiftEmpty, -, -⟩ := (slotInv_iff_of_not_isRef other).1 slots
    rw [← stopEventWith_of_empty keepHold keepShift (holdEmpty txe) (shiftEmpty btf), Periph.applyMove, gate]
    rfl

/-! ## What a weakly fair plan offers -/

section Plans
variable {turns again : List (List EnvStep)} {m : EnvStep}

/-- R199: a step is one of the six with every draw 1 exactly when it draws no 0. -/
theorem mem_stepOrder_true_iff : m ∈ Periph.stepOrder true ↔ m ≠ .addr false ∧ m ≠ .shiftDone false := by
  cases m <;> simp [Periph.stepOrder]

/-- R146, R199: the clauses of a weakly fair plan, as propositions. -/
theorem fair_iff : fair turns again = true ↔ (∀ m ∈ Periph.stepOrder true, ∃ t ∈ again, m ∈ t)
    ∧ ∀ t ∈ turns ++ again, ∀ m ∈ t, m ∈ Periph.stepOrder true := by
  unfold fair
  rw [Bool.and_eq_true_iff]
  refine and_congr ?offers ?draws
  case offers =>
    have six : ∀ m, m ∈ [EnvStep.start, .addr true, .drained, .load, .stop, .shiftDone true] ↔ m ∈ Periph.stepOrder true :=
      fun m => by cases m <;> simp [Periph.stepOrder]
    simp only [List.all_eq_true, List.any_eq_true, List.contains_iff_mem, six]
  case draws =>
    simp only [List.all_eq_true, mem_stepOrder_true_iff, Bool.not_eq_true', Bool.or_eq_false_iff, beq_eq_false_iff_ne]

/-- The steps of a plan's next turn are steps of the plan. -/
theorem exists_of_mem_planTurn (h : m ∈ (Periph.planTurn turns again).1) : ∃ t ∈ turns ++ again, m ∈ t := by
  unfold Periph.planTurn at h
  split at h
  · exact ⟨_, by simp, h⟩
  · exact ⟨_, by simp, h⟩
  · cases h

/-- The turns left of a plan are turns of it. -/
theorem mem_of_mem_planTurn_rest {t : List EnvStep} (h : t ∈ (Periph.planTurn turns again).2) : t ∈ turns ++ again := by
  unfold Periph.planTurn at h
  split at h
  · exact List.mem_append_left _ (List.mem_cons_of_mem _ h)
  · exact List.mem_cons_of_mem _ h
  · cases h

/-- A plan stays weakly fair as it is played. -/
theorem fair_planTurn (h : fair turns again = true) : fair (Periph.planTurn turns again).2 again = true := by
  obtain ⟨offers, draws⟩ := fair_iff.1 h
  refine fair_iff.2 ⟨offers, fun t listed => ?_⟩
  obtain rest | repeated := List.mem_append.1 listed
  · exact draws t (mem_of_mem_planTurn_rest rest)
  · exact draws t (List.mem_append_right _ repeated)

/-- The turn of a plan that comes after `k` others. -/
def turnAt (again : List (List EnvStep)) : Nat → List (List EnvStep) → List EnvStep
  | 0, turns => (Periph.planTurn turns again).1
  | k + 1, turns => turnAt again k (Periph.planTurn turns again).2

/-- Every turn listed comes. -/
theorem exists_turnAt_of_listed {t : List EnvStep} (h : t ∈ turns) : ∃ k, turnAt again k turns = t := by
  induction turns with
  | nil => cases h
  | cons first rest ih =>
    obtain rfl | later := List.mem_cons.1 h
    · exact ⟨0, rfl⟩
    · obtain ⟨k, comes⟩ := ih later
      exact ⟨k + 1, comes⟩

/-- Every turn of the part that is repeated comes, whatever is played first. -/
theorem exists_turnAt_of_repeated {t : List EnvStep} (h : t ∈ again) : ∃ k, turnAt again k turns = t := by
  induction turns with
  | nil =>
    have startsOver : ∀ k, turnAt again k [] = turnAt again k again := by
      intro k
      cases again with
      | nil => rfl
      | cons first rest => cases k <;> rfl
    obtain ⟨k, comes⟩ := exists_turnAt_of_listed (again := again) h
    exact ⟨k, (startsOver k).trans comes⟩
  | cons first rest ih =>
    obtain ⟨k, comes⟩ := ih
    exact ⟨k + 1, comes⟩

end Plans

section Turns
variable {c : Config} {p : Periph} {turns again : List (List EnvStep)}

theorem turn_of_plan (plan : p.env.sched = .plan turns again) (at_ : Periph.TurnPoint) : Periph.turn c at_ p =
    Periph.envSteps c (Periph.planTurn turns again).1
      (Periph.reschedule (.plan (Periph.planTurn turns again).2 again) p) := by
  unfold Periph.turn
  rw [plan]

/-- A property that each of the steps listed keeps is kept by the list. -/
theorem envSteps_keeps_of_listed {P : Periph → Prop} {ms : List EnvStep}
    (step : ∀ m ∈ ms, ∀ q, P q → Periph.stepEnabled c q m = true → P (Periph.takeStep m q)) (h : P p) :
    P (Periph.envSteps c ms p) := by
  induction ms generalizing p with
  | nil => exact h
  | cons m rest ih =>
    refine ih (fun n later => step n (List.mem_cons_of_mem m later)) ?_
    cases enabled : Periph.stepEnabled c p m with
    | true => exact (envStep_of_enabled enabled).symm ▸ step m List.mem_cons_self p h enabled
    | false => exact (envStep_of_not_enabled enabled).symm ▸ h

/-- A property that every step with a draw of 1 keeps is kept by a turn of a weakly fair plan. -/
theorem turn_keeps_of_fair {P : Periph → Prop} (plan : p.env.sched = .plan turns again) (isFair : fair turns again = true)
    (step : ∀ m ∈ Periph.stepOrder true, ∀ q, P q → Periph.stepEnabled c q m = true → P (Periph.takeStep m q))
    (own : ∀ sc, P (Periph.reschedule sc p)) (at_ : Periph.TurnPoint) : P (Periph.turn c at_ p) := by
  rw [turn_of_plan plan]
  refine envSteps_keeps_of_listed (fun m named => ?_) (own _)
  obtain ⟨t, inPlan, inTurn⟩ := exists_of_mem_planTurn named
  exact step m ((fair_iff.1 isFair).2 t inPlan m inTurn)

/-- A list of steps leaves fewer to follow, or none of them is enabled and nothing happens. -/
theorem envSteps_taken_or_kept (c : Config) (ms : List EnvStep) (p : Periph) :
    stepsLeft (Periph.envSteps c ms p) < stepsLeft p
    ∨ ((∀ m ∈ ms, Periph.stepEnabled c p m = false) ∧ Periph.envSteps c ms p = p) := by
  induction ms generalizing p with
  | nil => exact .inr ⟨by simp, rfl⟩
  | cons m rest ih =>
    unfold Periph.envSteps
    cases enabled : Periph.stepEnabled c p m with
    | true =>
      have fewer := stepsLeft_takeStep enabled
      rw [envStep_of_enabled enabled]
      obtain taken | ⟨-, kept⟩ := ih (Periph.takeStep m p)
      · exact .inl (taken.trans fewer)
      · exact .inl (kept.symm ▸ fewer)
    | false =>
      rw [envStep_of_not_enabled enabled]
      exact (ih p).imp_right fun ⟨others, kept⟩ => ⟨List.forall_mem_cons.2 ⟨enabled, others⟩, kept⟩

end Turns

/-! ## Where the ENV of a send stands -/

/-- Phase, slots and requests of a peripheral. -/
structure Stands (ph : Phase) (hold shift start stop : Bool) (p : Periph) : Prop where
  phase : p.env.phase = ph
  hold : p.env.holdValid = hold
  shift : p.env.shiftValid = shift
  start : RegValues.start p.rb = start
  stop : RegValues.stop p.rb = stop

/-- R149 to R156: the reference ENV during a send is in a phase, or still has to serve what leads there; when everything is served
and acknowledged, the wire is `w`. -/
inductive Serving : Phase → List WireEvent → Periph → Prop where
  /-- a start condition is requested -/
  | startDue {p : Periph} {w : List WireEvent} (stands : Stands .idle false false true false p)
    (sb : RegValues.flag p.rb .sb = false) (addr : RegValues.flag p.rb .addr = false)
    (wire : w = p.env.wire ++ [.start]) : Serving .started w p
  | started {p : Periph} {w : List WireEvent} (stands : Stands .started false false false false p)
    (sb : RegValues.flag p.rb .sb = true) (addr : RegValues.flag p.rb .addr = false)
    (wire : w = p.env.wire) : Serving .started w p
  /-- the address byte is in the holding slot -/
  | addrDue {p : Periph} {w : List WireEvent} (stands : Stands .started true false false false p)
    (addr : RegValues.flag p.rb .addr = false)
    (wire : w = p.env.wire ++ [.byte p.env.hold true]) : Serving .addrSent w p
  | addrSent {p : Periph} {w : List WireEvent} (stands : Stands .addrSent false false false false p)
    (addr : RegValues.flag p.rb .addr = true) (wire : w = p.env.wire) : Serving .addrSent w p
  /-- at most one byte is in each slot; the one in the shift register goes first -/
  | data {p : Periph} {w : List WireEvent} {hold shift : Bool} (stands : Stands .data hold shift false false p)
    (txe : RegValues.flag p.rb .txe = !hold) (btf : RegValues.flag p.rb .btf = true → hold = false ∧ shift = false)
    (wire : w = p.env.wire ++ (if shift then [.byte p.env.shift true] else [])
      ++ (if hold then [.byte p.env.hold true] else [])) : Serving .data w p
  /-- a stop condition is requested -/
  | stopDue {p : Periph} {w : List WireEvent} (stands : Stands .data false false false true p)
    (wire : w = p.env.wire ++ [.stop]) : Serving .idle w p
  | idle {p : Periph} {w : List WireEvent} (stands : Stands .idle false false false false p)
    (wire : w = p.env.wire) : Serving .idle w p

section Steps
variable {c : Config} {ph : Phase} {w : List WireEvent} {p : Periph} {m : EnvStep} {f : Flag}

/-- Neither the two-step clear nor the schedule is part of it. -/
theorem Stands.own {hold shift start stop : Bool} (h : Stands ph hold shift start stop p) (armed : Bool) (sc : Scheduler) :
    Stands ph hold shift start stop { p with clrArmed := armed, env := { p.env with sched := sc } } :=
  ⟨h.phase, h.hold, h.shift, h.start, h.stop⟩

theorem Serving.own (h : Serving ph w p) (armed : Bool) (sc : Scheduler) :
    Serving ph w { p with clrArmed := armed, env := { p.env with sched := sc } } := by
  cases h with
  | startDue stands sb addr wire => exact .startDue (stands.own armed sc) sb addr wire
  | started stands sb addr wire => exact .started (stands.own armed sc) sb addr wire
  | addrDue stands addr wire => exact .addrDue (stands.own armed sc) addr wire
  | addrSent stands addr wire => exact .addrSent (stands.own armed sc) addr wire
  | data stands txe btf wire => exact .data (stands.own armed sc) txe btf wire
  | stopDue stands wire => exact .stopDue (stands.own armed sc) wire
  | idle stands wire => exact .idle (stands.own armed sc) wire

/-- With no stop requested, a step that is enabled is the one due. -/
theorem Stands.due {hold shift start : Bool} (h : Stands ph hold shift start false p)
    (enabled : Periph.stepEnabled c p m = true) (listed : m ∈ Periph.stepOrder true) : m = dueStep true p :=
  eq_dueStep_of_enabled enabled listed h.stop

/-- R155: a stop condition that is served cuts off nothing. -/
theorem Serving.stopped {ph' : Phase} (stands : Stands ph' false false false true p) :
    Serving .idle (p.env.wire ++ [.stop]) (Periph.eStop p) := by
  refine .idle ⟨rfl, rfl, rfl, (start_setCr1 _ posStop false (by decide)).trans stands.start,
    stop_setCr1 _ posStop false (by decide)⟩ ?_
  rw [← stopEvent_of_empty stands.hold stands.shift]
  rfl

/-- R149 to R156: every step with a draw of 1 leads on to the same phase and the same wire. -/
theorem Serving.takeStep (h : Serving ph w p) (listed : m ∈ Periph.stepOrder true)
    (enabled : Periph.stepEnabled c p m = true) : Serving ph w (Periph.takeStep m p) := by
  cases h with
  | startDue stands sb addr wire =>
    obtain rfl : m = .start := by simpa [dueStep, stands.phase] using stands.due enabled listed
    exact .started ⟨rfl, stands.hold, stands.shift, start_setCr1 _ posStart false (by decide),
      (stop_setCr1 _ posStart false (by decide)).trans stands.stop⟩ (by simp [Periph.takeStep, Periph.eStart])
      (by simpa [Periph.takeStep, Periph.eStart] using addr) wire
  | started stands =>
    obtain rfl : m = .addr true := by simpa [dueStep, stands.phase] using stands.due enabled listed
    simp [stepEnabled_addr_iff, stands.hold] at enabled
  | addrDue stands addr wire =>
    obtain rfl : m = .addr true := by simpa [dueStep, stands.phase] using stands.due enabled listed
    exact .addrSent ⟨rfl, rfl, stands.shift, stands.start, stands.stop⟩ (by simp [Periph.takeStep, Periph.eAddr]) wire
  | addrSent stands =>
    obtain rfl : m = .drained := by
      simpa [dueStep, stands.phase, stands.hold, stands.shift] using stands.due enabled listed
    simp [stepEnabled_drained_iff, stands.phase] at enabled
  | @data _ _ hold shift stands txe btf wire =>
    have due := stands.due enabled listed
    cases shift with
    | true =>
      obtain rfl : m = .shiftDone true := by simpa [dueStep, stands.phase, stands.shift] using due
      exact .data (shift := false) ⟨stands.phase, stands.hold, rfl, stands.start, stands.stop⟩ txe
        (fun on => ⟨(btf on).1, rfl⟩) (by simpa [Periph.takeStep, Periph.eShiftDone] using wire)
    | false =>
      cases hold with
      | true =>
        obtain rfl : m = .load := by simpa [dueStep, stands.phase, stands.shift, stands.hold] using due
        exact .data (hold := false) (shift := true) ⟨stands.phase, rfl, rfl, stands.start, stands.stop⟩
          (by simp [Periph.takeStep, Periph.eLoad])
          (fun on => absurd (btf (by simpa [Periph.takeStep, Periph.eLoad] using on)).1 (by decide))
          (by simpa [Periph.takeStep, Periph.eLoad] using wire)
      | false =>
        obtain rfl : m = .drained := by simpa [dueStep, stands.phase, stands.shift, stands.hold] using due
        exact .data (hold := false) (shift := false) ⟨stands.phase, stands.hold, stands.shift, stands.start, stands.stop⟩
          (by simpa [Periph.takeStep, Periph.eDrained] using txe) (fun _ => ⟨rfl, rfl⟩) wire
  | stopDue stands wire =>
    cases m with
    | stop => exact wire ▸ .stopped stands
    | drained => exact .stopDue ⟨stands.phase, stands.hold, stands.shift, stands.start, stands.stop⟩ wire
    | start => simp [stepEnabled_start_iff, stands.start] at enabled
    | addr a => simp [stepEnabled_addr_iff, stands.hold] at enabled
    | load => simp [stepEnabled_load_iff, stands.hold] at enabled
    | shiftDone a => simp [stepEnabled_shiftDone_iff, stands.shift] at enabled
  | idle stands =>
    obtain rfl : m = .start := by simpa [dueStep, stands.phase] using stands.due enabled listed
    simp [stepEnabled_start_iff, stands.start] at enabled

/-- Only a stop condition clears a flag. -/
theorem takeStep_keeps_high (notStop : m ≠ .stop) (high : RegValues.flag p.rb f = true) :
    RegValues.flag (Periph.takeStep m p).rb f = true := by
  have kept : ∀ g, RegValues.flag (RegValues.setFlag p.rb g true) f = true := fun g => by simp [high]
  cases m with
  | stop => exact absurd rfl notStop
  | start => exact kept .sb
  | addr a => exact kept _
  | drained => exact kept .btf
  | load => exact kept .txe
  | shiftDone a =>
    cases a
    · exact kept .af
    · exact high

/-- A flag that SEQ waits for stays set until SEQ's next access to `DR` or `SR2`. -/
theorem Serving.takeStep_shown (h : Serving ph w p) (waited : f ∈ shown ph) (enabled : Periph.stepEnabled c p m = true)
    (high : RegValues.flag p.rb f = true) : RegValues.flag (Periph.takeStep m p).rb f = true := by
  refine takeStep_keeps_high ?_ high
  rintro rfl
  obtain ⟨-, requested⟩ := stepEnabled_stop_iff.1 enabled
  cases h with
  | startDue stands | started stands | addrDue stands | addrSent stands | data stands =>
    exact absurd (requested.symm.trans stands.stop) (by decide)
  | stopDue | idle => simp [shown] at waited

/-- Where nothing is left to do, the flags that SEQ waits for are set. -/
theorem Serving.shown_of_quiet (h : Serving ph w p) (on : Periph.envEnabled c p = true)
    (quiet : ∀ m, Periph.stepEnabled c p m = false) (waited : f ∈ shown ph) : RegValues.flag p.rb f = true := by
  have no : ∀ m, ¬ Periph.stepEnabled c p m = true := fun m => by simp [quiet m]
  cases h with
  | startDue stands => exact absurd (stepEnabled_start_iff.2 ⟨on, stands.start, stands.phase⟩) (no _)
  | started _ sb =>
    obtain rfl : f = .sb := by simpa [shown] using waited
    exact sb
  | addrDue stands => exact absurd (stepEnabled_addr_iff.2 ⟨on, stands.phase, stands.hold⟩) (no (.addr true))
  | addrSent _ addr =>
    obtain rfl : f = .addr := by simpa [shown] using waited
    exact addr
  | @data _ _ hold shift stands txe btf =>
    obtain rfl : shift = false := Bool.eq_false_iff.2 fun full =>
      no (.shiftDone true) (stepEnabled_shiftDone_iff.2 ⟨on, stands.phase, stands.shift.trans full⟩)
    obtain rfl : hold = false := Bool.eq_false_iff.2 fun full =>
      no .load (stepEnabled_load_iff.2 ⟨on, stands.phase, stands.hold.trans full, stands.shift⟩)
    have high : RegValues.flag p.rb .btf = true := (Bool.not_eq_false _).mp fun low =>
      no .drained (stepEnabled_drained_iff.2 ⟨on, stands.phase, stands.hold, stands.shift, low⟩)
    obtain rfl | rfl : f = .txe ∨ f = .btf := by simpa [shown] using waited
    · exact txe
    · exact high
  | stopDue | idle => simp [shown] at waited

/-- Where nothing is left to do after the stop request, the stop condition is on the wire. -/
theorem Serving.idle_of_quiet (h : Serving .idle w p) (on : Periph.envEnabled c p = true)
    (quiet : ∀ m, Periph.stepEnabled c p m = false) : Stands .idle false false false false p ∧ p.env.wire = w := by
  cases h with
  | idle stands wire => exact ⟨stands, wire.symm⟩
  | stopDue stands =>
    exact absurd ((stepEnabled_stop_iff.2 ⟨on, stands.stop⟩).symm.trans (quiet .stop)) (by decide)

end Steps

/-! ## What each access of a send asks of ENV -/

section Accesses
variable {w : List WireEvent} {p : Periph}

/-- R118: `START` is requested. -/
theorem Serving.startRequested (stands : Stands .idle false false false false p) (sb : RegValues.flag p.rb .sb = false)
    (addr : RegValues.flag p.rb .addr = false) : Serving .started (p.env.wire ++ [.start]) (requested startMask p) :=
  .startDue ⟨stands.phase, stands.hold, stands.shift,
    (requested_bit startMask p posStart).trans (Bool.or_eq_true_iff.2 (.inr (by decide))),
    (requested_bit startMask p posStop).trans (Bool.or_eq_false_iff.2 ⟨stands.stop, by decide⟩)⟩ sb addr rfl

/-- R120, R150: after the start condition the address byte is taken. -/
theorem Serving.addressWritten (h : Serving .started w p) (ref : Periph.isRef p = true)
    (sb : RegValues.flag p.rb .sb = true) (b : Byte) :
    Serving .addrSent (w ++ [.byte b true]) (writeEffect .dr (b.setWidth 32) p) := by
  cases h with
  | startDue _ low => exact absurd (sb.symm.trans low) (by decide)
  | started stands _ addr wire =>
    rw [drWrite_of_started _ stands.phase, if_pos ref]
    exact .addrDue ⟨stands.phase, rfl, stands.shift, stands.start, stands.stop⟩ (by simpa using addr) (by simp [wire])

/-- R123, R152: once the address byte was acknowledged, the clearing read ends the address phase. -/
theorem Serving.latchRead (h : Serving .addrSent w p) (ref : Periph.isRef p = true) (addr : RegValues.flag p.rb .addr = true)
    (armed : p.clrArmed = true) : Serving .data w (readEffect .sr2 p) := by
  cases h with
  | addrDue _ low => exact absurd (addr.symm.trans low) (by decide)
  | addrSent stands _ wire =>
    rw [sr2Read_of_ending armed (addrPhaseEnds_iff.2 (.inl stands.phase)), if_pos ref]
    exact .data ⟨rfl, stands.hold, stands.shift, stands.start, stands.stop⟩ (by simp) (fun _ => ⟨rfl, rfl⟩)
      (by simp [wire, latchCleared, drawn])

/-- R126, R150: with `TXE` set the next byte is taken, behind the one in the shift register. -/
theorem Serving.byteWritten (h : Serving .data w p) (ref : Periph.isRef p = true) (high : RegValues.flag p.rb .txe = true)
    (b : Byte) : Serving .data (w ++ [.byte b true]) (writeEffect .dr (b.setWidth 32) p) := by
  cases h with
  | @data _ _ hold shift stands txe _ wire =>
    obtain rfl : hold = false := by simpa [high] using txe
    rw [drWrite_of_taking _ (.inl stands.phase), if_pos ref]
    exact .data (hold := true) (shift := shift) ⟨stands.phase, rfl, stands.shift, stands.start, stands.stop⟩ (by simp)
      (by simp) (by simp [wire])

/-- R129: with `BTF` set every byte is on the wire, and `STOP` is requested. -/
theorem Serving.stopRequested (h : Serving .data w p) (high : RegValues.flag p.rb .btf = true) :
    Serving .idle (w ++ [.stop]) (requested stopMask p) := by
  cases h with
  | data stands _ btf wire =>
    obtain ⟨rfl, rfl⟩ := btf high
    exact .stopDue ⟨stands.phase, stands.hold, stands.shift,
      (requested_bit stopMask p posStart).trans (Bool.or_eq_false_iff.2 ⟨stands.start, by decide⟩),
      (requested_bit stopMask p posStop).trans (Bool.or_eq_true_iff.2 (.inr (by decide)))⟩ (by simp [wire, requested])

/-- With `BTF` set ENV has nothing left to do. -/
theorem Serving.quiet_of_btf {c : Config} (h : Serving .data w p) (high : RegValues.flag p.rb .btf = true) (m : EnvStep) :
    Periph.stepEnabled c p m = false := by
  cases h with
  | data stands _ btf =>
    obtain ⟨rfl, rfl⟩ := btf high
    cases m <;> simp [Periph.stepEnabled, stands.phase, stands.hold, stands.shift, stands.stop, high]

end Accesses

/-- The reference ENV of a send, under a weakly fair plan and enabled; the flags `fs` that SEQ waited for are set. -/
structure Attends (c : Config) (ph : Phase) (fs : List Flag) (w : List WireEvent) (p : Periph) : Prop where
  plan : ∃ turns again, p.env.sched = .plan turns again ∧ fair turns again = true
  on : Periph.envEnabled c p = true
  serving : Serving ph w p
  seen : ∀ f ∈ fs, f ∈ shown ph ∧ RegValues.flag p.rb f = true

namespace Attends
variable {c : Config} {ph : Phase} {fs : List Flag} {w : List WireEvent} {p : Periph}

theorem isRef (h : Attends c ph fs w p) : Periph.isRef p = true := by
  obtain ⟨_, _, plan, -⟩ := h.plan
  unfold Periph.isRef
  rw [plan]

theorem gate (h : Attends c ph fs w p) : RegValues.clkgate c p.rb = true := (envEnabled_iff.1 h.on).1

theorem forget (h : Attends c ph fs w p) : Attends c ph [] w p := ⟨h.plan, h.on, h.serving, by simp⟩

theorem withArmed (h : Attends c ph fs w p) (armed : Bool) : Attends c ph fs w { p with clrArmed := armed } :=
  ⟨h.plan, h.on, h.serving.own armed p.env.sched, h.seen⟩

/-- R146: the plan is played on, and its turn serves. -/
theorem turn (h : Attends c ph fs w p) (at_ : Periph.TurnPoint) : Attends c ph fs w (Periph.turn c at_ p) := by
  obtain ⟨turns, again, plan, isFair⟩ := h.plan
  refine ⟨⟨(Periph.planTurn turns again).2, again, ?sched, fair_planTurn isFair⟩,
    envEnabled_of_envOnly (turn_envOnly at_ p) h.on, ?serving, fun f listed => ?seen⟩
  case sched =>
    rw [turn_of_plan plan, envSteps_sched]
    rfl
  case serving =>
    exact turn_keeps_of_fair plan isFair (P := Serving ph w) (fun m listed q serving => serving.takeStep listed)
      (h.serving.own p.clrArmed) at_
  case seen =>
    obtain ⟨waited, high⟩ := h.seen f listed
    have kept := turn_keeps_of_fair (c := c) plan isFair (P := fun q => Serving ph w q ∧ RegValues.flag q.rb f = true)
      (fun m listed q ⟨serving, high⟩ enabled =>
        ⟨serving.takeStep listed enabled, serving.takeStep_shown waited enabled high⟩)
      (fun sc => ⟨h.serving.own p.clrArmed sc, high⟩) at_
    exact ⟨waited, kept.2⟩

/-- After an access that starts something new, ENV serves it in the turns that follow. -/
theorem afterAccess {ph' : Phase} {w' : List WireEvent} {q : Periph} (h : Attends c ph fs w p)
    (sched : q.env.sched = p.env.sched) (on : Periph.envEnabled c q = true) (serving : Serving ph' w' q)
    (at_ : Periph.TurnPoint) : Attends c ph' [] w' (Periph.turn c at_ q) :=
  Attends.turn ⟨sched ▸ h.plan, on, serving, by simp⟩ at_

theorem writesDr {ph' : Phase} {w' : List WireEvent} {v : Word} {s : State} (h : Attends c ph fs w s.per) (cfg : s.cfg = c)
    (serving : Serving ph' w' (writeEffect .dr v s.per)) : Attends c ph' [] w' (regWrite .dr v s).per := by
  rw [regWrite_per, cfg]
  exact h.afterAccess (writeEffect_sched .dr v s.per)
    (envEnabled_of_envOnly (drHook_envOnly _ _) (h.withArmed false).on) serving _

theorem readsSr2 {ph' : Phase} {w' : List WireEvent} {s : State} (h : Attends c ph fs w s.per) (cfg : s.cfg = c)
    (serving : Serving ph' w' (readEffect .sr2 s.per)) : Attends c ph' [] w' (regRead .sr2 s).2.per := by
  rw [regRead_per, cfg]
  refine h.afterAccess (readEffect_sched .sr2 s.per) (envEnabled_of_envOnly (sr2ReadEffect_envOnly s.per) ?_) serving _
  cases s.per.clrArmed <;> exact h.on

/-- R44: a read-modify-write that requests a start or a stop, where ENV has nothing left to do. -/
theorem requests {ph' : Phase} {w' : List WireEvent} {m : Word} {s : State} (h : Attends c ph fs w s.per) (cfg : s.cfg = c)
    (quiet : ∀ m, Periph.stepEnabled c s.per m = false) (notPe : bitAt m posPe = false)
    (serving : Serving ph' w' (requested m s.per)) : Attends c ph' [] w' (regRmw .cr1 m m s).per := by
  obtain rfl := cfg
  have disarmed := h.withArmed false
  obtain ⟨sc, still, -⟩ := turn_quiet (.bus (busCount (regRead .cr1 s).2.acc)) { s.per with clrArmed := false } disarmed.isRef quiet
  have read : (regRead .cr1 s).2.per = Periph.reschedule sc { s.per with clrArmed := false } := still
  have between : Attends s.cfg ph fs w (regRead .cr1 s).2.per := regRead_per .cr1 s ▸ disarmed.turn _
  have written : writeEffect .cr1 (rmwValue s.per.rb.cr1 m m) (regRead .cr1 s).2.per
      = requested m (Periph.reschedule sc s.per) := by
    rw [read, rmwValue_own]
    exact cr1WriteEffect_of_pe ((bitAt_or _ _ _).trans (by rw [notPe, Bool.or_false]; rfl))
  rw [regRmw_per]
  exact between.afterAccess (writeEffect_sched .cr1 _ _) (written ▸ envEnabled_requested m h.on)
    (written ▸ serving.own false sc) _

end Attends

/-! ## Waiting for a fair ENV -/

/-- A turn of ENV passes in which SEQ at most reads `SR1`. -/
def Waited (c : Config) (p q : Periph) : Prop :=
  ∃ (at_ : Periph.TurnPoint) (armed : Bool), q = Periph.turn c at_ { p with clrArmed := armed }

/-- States in which SEQ waits, until one of them ends the waiting. -/
def Waits (c : Config) (Stays Ends : State → Prop) : Prop :=
  ∀ t, Stays t → ¬ Ends t → ∃ t', Reaches 1 t t' ∧ Stays t' ∧ Waited c t.per t'.per

section Waiting
variable {c : Config} {Stays Ends : State → Prop} {t : State} {turns again : List (List EnvStep)} {m : EnvStep}

/-- A turn of a plan leaves fewer steps to follow, or none that it names is enabled and only the plan goes on. -/
theorem Waited.taken_or_kept {p q : Periph} (h : Waited c p q) (plan : p.env.sched = .plan turns again) :
    stepsLeft q < stepsLeft p ∨ ((∀ m ∈ (Periph.planTurn turns again).1, Periph.stepEnabled c p m = false)
      ∧ ∃ armed, q = Periph.reschedule (.plan (Periph.planTurn turns again).2 again) { p with clrArmed := armed }) := by
  obtain ⟨at_, armed, rfl⟩ := h
  rw [turn_of_plan (p := { p with clrArmed := armed }) plan]
  exact (envSteps_taken_or_kept c _ _).imp_right fun ⟨disabled, kept⟩ => ⟨disabled, armed, kept⟩

/-- R146: an enabled step that the plan names after `k` turns is taken, unless another is before. -/
theorem Waits.takes (waits : Waits c Stays Ends) {k : Nat} (stays : Stays t) (plan : t.per.env.sched = .plan turns again)
    (named : m ∈ turnAt again k turns) (enabled : Periph.stepEnabled c t.per m = true) :
    ∃ j t', Reaches j t t' ∧ Stays t' ∧ (Ends t' ∨ stepsLeft t'.per < stepsLeft t.per) := by
  induction k using Nat.strong_induction_on generalizing t turns with
  | _ k ih =>
    by_cases ends : Ends t
    · exact ⟨0, t, fun _ => rfl, stays, .inl ends⟩
    obtain ⟨t', one, stays', waited⟩ := waits t stays ends
    obtain taken | ⟨disabled, armed, kept⟩ := waited.taken_or_kept plan
    · exact ⟨1, t', one, stays', .inr taken⟩
    cases k with
    | zero => exact absurd (enabled.symm.trans (disabled m named)) (by decide)
    | succ k =>
      have same : stepsLeft t'.per = stepsLeft t.per := kept ▸ rfl
      obtain ⟨j, t'', more, stays'', done⟩ := ih k k.lt_succ_self stays' (kept ▸ rfl) named (kept ▸ enabled)
      exact ⟨j + 1, t'', one.trans more, stays'', same ▸ done⟩

/-- Where any step is enabled, one of the six that a fair plan names is. -/
theorem exists_enabled_listed {p : Periph} (h : ¬ ∀ m, Periph.stepEnabled c p m = false) :
    ∃ m ∈ Periph.stepOrder true, Periph.stepEnabled c p m = true := by
  obtain ⟨m, enabled⟩ := not_forall.1 h
  rw [Bool.not_eq_false] at enabled
  cases m with
  | addr a => exact ⟨.addr true, by simp [Periph.stepOrder], enabled⟩
  | shiftDone a => exact ⟨.shiftDone true, by simp [Periph.stepOrder], enabled⟩
  | start | drained | load | stop => exact ⟨_, by simp [Periph.stepOrder], enabled⟩

/-- R146: under a weakly fair plan, waiting ends, or ENV comes to have nothing left to do. -/
theorem Waits.ends_or_quiet (waits : Waits c Stays Ends)
    (isFair : ∀ t, Stays t → ∃ turns again, t.per.env.sched = .plan turns again ∧ fair turns again = true) (stays : Stays t) :
    ∃ j t', Reaches j t t' ∧ Stays t' ∧ (Ends t' ∨ ∀ m, Periph.stepEnabled c t'.per m = false) := by
  induction left : stepsLeft t.per using Nat.strong_induction_on generalizing t with
  | _ n ih =>
    by_cases quiet : ∀ m, Periph.stepEnabled c t.per m = false
    · exact ⟨0, t, fun _ => rfl, stays, .inr quiet⟩
    obtain ⟨m, listed, enabled⟩ := exists_enabled_listed quiet
    obtain ⟨turns, again, plan, offers⟩ := isFair t stays
    obtain ⟨turn, repeated, named⟩ := (fair_iff.1 offers).1 m listed
    obtain ⟨k, comes⟩ := exists_turnAt_of_repeated (turns := turns) repeated
    obtain ⟨j, t', first, stays', ends | fewer⟩ := waits.takes stays plan (comes.symm ▸ named) enabled
    · exact ⟨j, t', first, stays', .inl ends⟩
    · obtain ⟨i, t'', second, stays'', done⟩ := ih _ (left ▸ fewer) stays' rfl
      exact ⟨i + j, t'', first.trans second, stays'', done⟩

end Waiting

/-! ## The micro-steps of a send under a fair ENV -/

/-- Between two micro-steps of the send that the state `s` begins: at `u` with `idx` bytes written, ENV on its way to the phase `ph`
and the wire `w`, and the flags `fs` seen. -/
structure Transfer (s : State) (u : Upc) (idx : Word) (ph : Phase) (fs : List Flag) (w : List WireEvent) (t : State) : Prop where
  cfg : t.cfg = s.cfg
  buf : t.buf = s.buf
  ports : t.ports = s.ports
  mtc : ∃ tmp, t.mtc = { s.mtc with upc := u, idx := idx, tmp := tmp }
  env : Attends s.cfg ph fs w t.per

namespace Transfer
variable {s t : State} {u : Upc} {idx : Word} {ph : Phase} {fs : List Flag} {w : List WireEvent}

theorem idx_eq (h : Transfer s u idx ph fs w t) : t.mtc.idx = idx := by
  obtain ⟨_, mtc⟩ := h.mtc
  rw [mtc]

theorem exec_eq (h : Transfer s u idx ph fs w t) : exec u.instr t = .next (nextState u.instr t) :=
  exec_instr (h.cfg.symm ▸ h.env.gate) h.env.isRef u

/-- R66, R117: a step runs the micro-step at `UPC`. -/
theorem reaches (h : Transfer s u idx ph fs w t) (busy : Executing s) : Reaches 1 t (nextState u.instr t) := by
  obtain ⟨_, mtc⟩ := h.mtc
  have stepped : step t = .next (nextState u.instr t) := by
    rw [step_of_busy (h.cfg ▸ busy.wf) (h.ports ▸ busy.host) (by rw [mtc]; exact busy.busy), show t.mtc.upc = u by rw [mtc]]
    exact h.exec_eq
  exact fun n => run_of_step (M := core) stepped

/-- A micro-step that answers nothing stays within the send. -/
theorem moves (h : Transfer s u idx ph fs w t) {u' : Upc} {idx' : Word} {ph' : Phase} {fs' : List Flag} {w' : List WireEvent}
    (ports : (nextState u.instr t).ports = t.ports) (idx_eq : (nextState u.instr t).mtc.idx = idx')
    (mtc : ∃ tmp, (nextState u.instr t).mtc =
      { t.mtc with upc := u', idx := (nextState u.instr t).mtc.idx, tmp := tmp })
    (env : Attends s.cfg ph' fs' w' (nextState u.instr t).per) : Transfer s u' idx' ph' fs' w' (nextState u.instr t) := by
  obtain ⟨_, before⟩ := h.mtc
  obtain ⟨tmp, after⟩ := mtc
  exact ⟨(exec_cfg h.exec_eq).trans h.cfg, (exec_buf h.exec_eq).trans h.buf, ports.trans h.ports,
    ⟨tmp, by rw [after, before, idx_eq]⟩, env⟩

/-- R45, R140: a read of `SR1` and ENV's turn after it. -/
theorem readsSr1 (h : Transfer s u idx ph fs w t) : Attends s.cfg ph fs w (regRead .sr1 t).2.per := by
  rw [regRead_per, h.cfg]
  exact (h.env.withArmed _).turn _

/-- R134: at a poll for a flag that is 0, SEQ waits. -/
theorem pollAgain (h : Transfer s u idx ph [] w t) {f : Flag} {next : Upc} (poll : PollsFor u f next)
    (low : RegValues.flag t.per.rb f = false) : Transfer s u idx ph [] w (nextState u.instr t) := by
  have next_eq := poll.nextState_eq t
  refine h.moves ?ports ?idx ⟨t.mtc.tmp, ?mtc⟩ ?env <;> rw [next_eq]
  case ports => rfl
  case idx => exact h.idx_eq
  case mtc => rw [pollFlag_mtc, if_neg (by simpa [RegValues.flag] using low)]
  case env => exact h.readsSr1

/-- R119, R121, R125, R127, R128: at a poll for a flag that is 1, SEQ goes on. -/
theorem pollDone (h : Transfer s u idx ph [f] w t) {next : Upc} (poll : PollsFor u f next) :
    Transfer s next idx ph [f] w (nextState u.instr t) := by
  have next_eq := poll.nextState_eq t
  have high : bitAt t.per.rb.sr1 f.pos = true := (h.env.seen f (by simp)).2
  refine h.moves ?ports ?idx ⟨t.mtc.tmp, ?mtc⟩ ?env <;> rw [next_eq]
  case ports => rfl
  case idx => exact h.idx_eq
  case mtc => rw [pollFlag_mtc, if_pos high]
  case env => exact h.readsSr1

theorem withSeen (h : Transfer s u idx ph fs w t) {f : Flag} (waited : f ∈ shown ph)
    (high : RegValues.flag t.per.rb f = true) : Transfer s u idx ph [f] w t :=
  { h with env := ⟨h.env.plan, h.env.on, h.env.serving, by simp [waited, high]⟩ }

/-- R199: a poll for a flag that ENV shows in the phase it is on its way to comes to an end. -/
theorem polls (h : Transfer s u idx ph fs w t) (busy : Executing s) {f : Flag} {next : Upc} (poll : PollsFor u f next)
    (waited : f ∈ shown ph) : ∃ k t', Reaches k t t' ∧ Transfer s next idx ph [f] w t' := by
  have waits : Waits s.cfg (Transfer s u idx ph [] w) (fun t => RegValues.flag t.per.rb f = true) := by
    intro t h low
    refine ⟨nextState u.instr t, h.reaches busy, h.pollAgain poll (by simpa using low), ?_⟩
    rw [poll.nextState_eq t, ← h.cfg]
    exact ⟨_, _, regRead_per .sr1 t⟩
  have stays : Transfer s u idx ph [] w t := { h with env := h.env.forget }
  obtain ⟨j, t', waiting, h', ended⟩ := waits.ends_or_quiet (fun t h => h.env.plan) stays
  have high : RegValues.flag t'.per.rb f = true :=
    ended.elim id fun quiet => h'.env.serving.shown_of_quiet h'.env.on quiet waited
  have seen := h'.withSeen waited high
  exact ⟨1 + j, _, waiting.trans (seen.reaches busy), seen.pollDone poll⟩

/-- R118: SEQ_START_SET requests the start condition. -/
theorem startSet (h : Transfer s .u1 idx ph fs w t) (stands : Stands .idle false false false false t.per)
    (sb : RegValues.flag t.per.rb .sb = false) (addr : RegValues.flag t.per.rb .addr = false) :
    Transfer s .u2 idx .started [] (t.per.env.wire ++ [.start]) (nextState Upc.u1.instr t) := by
  refine h.moves rfl h.idx_eq ⟨_, rfl⟩ (h.env.requests h.cfg ?quiet (by decide) (.startRequested stands sb addr))
  case quiet =>
    intro m
    cases m <;> simp [Periph.stepEnabled, stands.phase, stands.start, stands.stop]

/-- R120: SEQ_ADDR_WRITE hands over the address byte. -/
theorem addrWrite (h : Transfer s .u3 idx .started [.sb] w t) :
    Transfer s .u4 idx .addrSent [] (w ++ [.byte (addrByte s.mtc.tAddr) true]) (nextState Upc.u3.instr t) := by
  obtain ⟨tmp, mtc⟩ := h.mtc
  refine h.moves rfl h.idx_eq ⟨t.mtc.tmp, rfl⟩ ?_
  rw [show addrByte s.mtc.tAddr = addrByte t.mtc.tAddr by rw [mtc]]
  exact h.env.writesDr h.cfg (h.env.serving.addressWritten h.env.isRef (h.env.seen .sb (by simp)).2 _)

/-- R122: the first clearing read arms, over the latched `ADDR`. -/
theorem clrSr1 (h : Transfer s .u5 idx .addrSent [.addr] w t) :
    Transfer s .u6 idx .addrSent [.addr] w (nextState Upc.u5.instr t) ∧ (nextState Upc.u5.instr t).per.clrArmed = true :=
  ⟨h.moves rfl h.idx_eq ⟨t.mtc.tmp, rfl⟩ h.readsSr1,
    (regRead_envOnly .sr1 t).armed.trans (h.env.seen .addr (by simp)).2⟩

/-- R123: the second one ends the address phase. -/
theorem clrSr2 (h : Transfer s .u6 idx .addrSent [.addr] w t) (armed : t.per.clrArmed = true) :
    Transfer s .u7 idx .data [] w (nextState Upc.u6.instr t) :=
  h.moves rfl h.idx_eq ⟨t.mtc.tmp, rfl⟩
    (h.env.readsSr2 h.cfg (h.env.serving.latchRead h.env.isRef (h.env.seen .addr (by simp)).2 armed))

/-- R124: the loop goes on while bytes are left. -/
theorem loopTest (h : Transfer s .u7 idx ph fs w t) :
    Transfer s (if idx.toNat < s.mtc.tLen.toNat then .u8 else .u10) idx ph fs w (nextState Upc.u7.instr t) := by
  obtain ⟨tmp, mtc⟩ := h.mtc
  refine h.moves rfl h.idx_eq ⟨t.mtc.tmp, ?_⟩ ?_
  · rw [← h.idx_eq, show s.mtc.tLen = t.mtc.tLen by rw [mtc]]
    rfl
  · show Attends s.cfg ph fs w (internalTurn t).per
    rw [internalTurn_per, h.cfg]
    exact h.env.turn _

/-- R126: SEQ_DATA_WRITE hands over the next byte. -/
theorem dataWrite (h : Transfer s .u9 idx .data [.txe] w t) :
    Transfer s .u7 (idx + 1) .data [] (w ++ [.byte (Memory.read s.buf (s.mtc.tPtr + idx).toNat) true])
      (nextState Upc.u9.instr t) := by
  obtain ⟨tmp, mtc⟩ := h.mtc
  refine h.moves rfl (congrArg (· + 1) h.idx_eq) ⟨t.mtc.tmp, rfl⟩ ?_
  have between : Attends s.cfg .data [.txe] w (bufRead (bufferAddr t.mtc) t).2.per := by
    rw [bufRead_per, h.cfg]
    exact h.env.turn _
  have byte : Memory.read s.buf (s.mtc.tPtr + idx).toNat = (bufRead (bufferAddr t.mtc) t).1 := by
    rw [bufRead_value, h.buf, bufferAddr, mtc]
  rw [byte]
  exact between.writesDr (s := (bufRead (bufferAddr t.mtc) t).2) h.cfg
    (between.serving.byteWritten between.isRef (between.seen .txe (by simp)).2 _)

/-- R129: SEQ_STOP_SET requests the stop condition. -/
theorem stopSet (h : Transfer s .u12 idx .data [.btf] w t) :
    Attends s.cfg .idle [] (w ++ [.stop]) (nextState Upc.u12.instr t).per := by
  have btf : RegValues.flag t.per.rb .btf = true := (h.env.seen .btf (by simp)).2
  exact h.env.requests h.cfg (h.env.serving.quiet_of_btf btf) (by decide) (h.env.serving.stopRequested btf)

/-! ## The send -/

/-- R118 to R123: from the start condition to the data phase. -/
theorem address (h : Transfer s .u2 idx .started fs w t) (busy : Executing s) : ∃ k t', Reaches k t t'
    ∧ Transfer s .u7 idx .data [] (w ++ [.byte (addrByte s.mtc.tAddr) true]) t' := by
  obtain ⟨_, t3, reaches3, h3⟩ := h.polls busy .sb (by simp [shown])
  have h4 := h3.addrWrite
  obtain ⟨_, t5, reaches5, h5⟩ := h4.polls busy .addr (by simp [shown])
  obtain ⟨h6, armed⟩ := h5.clrSr1
  exact ⟨_, _, reaches3.trans (h3.reaches busy) |>.trans reaches5 |>.trans (h5.reaches busy) |>.trans (h6.reaches busy),
    h6.clrSr2 armed⟩

/-- R124 to R126: the bytes left, one after another. -/
theorem bytes (n : Nat) (h : Transfer s .u7 idx .data fs w t) (busy : Executing s)
    (left : idx.toNat + n = s.mtc.tLen.toNat) : ∃ k fs' t', Reaches k t t' ∧ Transfer s .u7 s.mtc.tLen .data fs'
      (w ++ (bufferBytes s.buf (s.mtc.tPtr + idx) n).map fun b => WireEvent.byte b true) t' := by
  induction n generalizing idx fs w t with
  | zero =>
    obtain rfl : idx = s.mtc.tLen := BitVec.eq_of_toNat_eq left
    exact ⟨0, fs, t, fun _ => rfl, by simpa [bufferBytes] using h⟩
  | succ n ih =>
    have h8 := h.loopTest
    rw [if_pos (by omega)] at h8
    obtain ⟨_, t9, reaches9, h9⟩ := h8.polls busy .txe (by simp [shown])
    have bumped : (idx + 1).toNat = idx.toNat + 1 := by bv_omega
    obtain ⟨_, fs', t', more, h7⟩ := ih h9.dataWrite (by omega)
    refine ⟨_, fs', t', (h.reaches busy).trans reaches9 |>.trans (h9.reaches busy) |>.trans more, ?_⟩
    simpa [bufferBytes, BitVec.add_assoc] using h7

/-- R124, R127 to R129: from the last byte to the stop request and the response. -/
theorem stop (h : Transfer s .u7 s.mtc.tLen .data fs w t) (busy : Executing s) : ∃ k t', Reaches k t t'
    ∧ t'.cfg = s.cfg ∧ t'.ports = { s.ports with rsp := some ⟨false, false⟩ } ∧ t'.mtc.busy = false ∧ t'.mtc.upc = .u0
    ∧ Attends s.cfg .idle [] (w ++ [.stop]) t'.per := by
  have h10 := h.loopTest
  rw [if_neg (lt_irrefl _)] at h10
  obtain ⟨_, t11, reaches11, h11⟩ := h10.polls busy .drain (by simp [shown])
  obtain ⟨_, t12, reaches12, h12⟩ := h11.polls busy .btf (by simp [shown])
  exact ⟨_, nextState Upc.u12.instr t12, (h.reaches busy).trans reaches11 |>.trans reaches12 |>.trans (h12.reaches busy),
    h12.cfg, h12.ports ▸ rfl, rfl, rfl, h12.stopSet⟩

end Transfer

/-- After a send, with no command offered: SEQ idles, and ENV has `w` to put on the wire. -/
structure Ended (c : Config) (w : List WireEvent) (t : State) : Prop where
  cfg : t.cfg = c
  wf : c.wf = true
  ports : t.ports.host = [] ∧ t.ports.offered = [] ∧ t.ports.rsp = some ⟨false, false⟩
  mtc : t.mtc.busy = false ∧ t.mtc.upc = .u0
  env : Attends c .idle [] w t.per

/-- R117: SEQ_IDLE is a turn of ENV, and nothing else. -/
theorem Ended.reaches {c : Config} {w : List WireEvent} {t : State} (h : Ended c w t) : Reaches 1 t (internalTurn t) := by
  have stepped : step t = .next (internalTurn t) := by
    rw [step_of_no_host (h.cfg ▸ h.wf) h.ports.1, fetch_of_none_offered h.mtc.1 h.ports.2.1]
    rfl
  exact fun n => run_of_step (M := core) stepped

theorem Ended.next {c : Config} {w : List WireEvent} {t : State} (h : Ended c w t) : Ended c w (internalTurn t) := by
  refine ⟨h.cfg, h.wf, h.ports, h.mtc, ?_⟩
  rw [internalTurn_per, h.cfg]
  exact h.env.turn _

/-- R129, R199: the stop request is served. -/
theorem Ended.served {c : Config} {w : List WireEvent} {t : State} (h : Ended c w t) :
    ∃ k t', Reaches k t t' ∧ Ended c w t' ∧ Stands .idle false false false false t'.per ∧ t'.per.env.wire = w := by
  have waits : Waits c (Ended c w) (fun _ => False) := fun t h _ =>
    ⟨internalTurn t, h.reaches, h.next, .internal, t.per.clrArmed, by rw [internalTurn_per, h.cfg]⟩
  obtain ⟨k, t', reaches, h', ended⟩ := waits.ends_or_quiet (fun t h => h.env.plan) h
  exact ⟨k, t', reaches, h', h'.env.serving.idle_of_quiet h'.env.on (ended.resolve_left id)⟩

/-- Settles O31: SEQ waits for each of ENV's steps in turn, and a weakly fair plan brings each wait to its end. -/
theorem weaklyFairSendTerminates : Obligations.WeaklyFairSendTerminates := by
  intro s s1 addr ptr len turns again wf host offered busy plan isFair on idle hold shift start stop sb addrLow _ _ accepted
  obtain rfl := exec_next accepted
  have executing : Executing (nextState (.masterSend addr ptr len) s) := ⟨wf, host, busy⟩
  have stands : Stands .idle false false false false s.per := ⟨idle, hold, shift, start, stop⟩
  have h1 : Transfer (nextState (.masterSend addr ptr len) s) .u1 0 .idle [] s.per.env.wire
      (nextState (.masterSend addr ptr len) s) :=
    ⟨rfl, rfl, rfl, ⟨s.mtc.tmp, rfl⟩, ⟨turns, again, plan, isFair⟩, on, .idle stands rfl, by simp⟩
  have h2 := h1.startSet stands sb addrLow
  obtain ⟨_, t7, reaches7, h7⟩ := h2.address executing
  obtain ⟨_, _, t7', bytes, h7'⟩ := h7.bytes len.toNat executing (Nat.zero_add _)
  obtain ⟨_, t0, reaches0, cfg, ports, ready, upc, env⟩ := h7'.stop executing
  have ended : Ended s.cfg _ t0 := ⟨cfg, wf, ports ▸ ⟨host, offered, rfl⟩, ⟨ready, upc⟩, env⟩
  obtain ⟨_, t, last, ended, rest, wire⟩ := ended.served
  have run := (h1.reaches executing).trans reaches7 |>.trans bytes |>.trans reaches0 |>.trans last
  refine ⟨_, t, run 0, ended.mtc.1, ended.mtc.2, ended.ports.2.2, rest.phase, rest.stop, rest.start, ?wire⟩
  case wire =>
    rw [wire, show (nextState (.masterSend addr ptr len) s).mtc.tPtr + 0 = ptr from BitVec.add_zero ptr]
    simp only [List.append_assoc]
    rfl

end Sys2Proof.HazardProofs
